-- ==== Sys2Proof/Word.lean ====
section
/-! DEFINITION. The word types of the voice block (spec/00_scope.md R8, R9): every value has a fixed width.
A width stands as a literal in the type wherever the spec gives one width; the parameters of R7 that are counts
or values stand in Config.lean. -/

namespace Sys2Proof

/-- A host transaction word (30_encoding.md R90: every host transaction is one 32-bit word). -/
abbrev Word := BitVec 32

/-- A 16-bit register value, the DATA field of a transaction (R90). -/
abbrev Half := BitVec 16

/-- One byte of SPU RAM (20_memory.md R60). -/
abbrev Byte := BitVec 8

/-- One 4-bit residual of an ADPCM block (30_encoding.md R113). -/
abbrev Nibble := BitVec 4

/-- One decoded sample, an i16 (10_state.md R29). -/
abbrev Sample := BitVec 16

/-- A byte offset into SPU RAM, a u19 (10_state.md R27, R39). -/
abbrev RamAddr := BitVec 19

/-- A voice number, 0 .. NUM_VOICES-1 with NUM_VOICES = 24 (00_scope.md R7, 43_voice_mixer.md R200). -/
abbrev VoiceIx := Fin 24

end Sys2Proof
end

