-- ==== Sys2Proof/Config.lean ====
section
/-! DEFINITION. The implementation parameters of spec/00_scope.md R7 at the values this hardware takes, the
coefficient table the spec sets (40_adpcm.md R133, a configuration field by 93_implementation_defined.md I10), and
the free values. `INTERP` is not here but beside the voice (Machine/Voice.lean `interpSample`): this hardware takes
`Interp_None` (43_voice_mixer.md R223). NUM_VOICES = 24 is the bound of `VoiceIx` in Word.lean. -/

namespace Sys2Proof

/-- `NUM_VOICES` (R7). -/
abbrev Config.numVoices : Nat := 24

/-- `RAM_BYTES` (R7): 512 KiB. -/
abbrev Config.ramBytes : Nat := 524288

/-- `BLOCK_BYTES` (R7). -/
abbrev Config.blockBytes : Nat := 16

/-- `CAP_BLOCKS` = RAM_BYTES / BLOCK_BYTES (R7). -/
abbrev Config.capBlocks : Nat := 32768

/-- The value of the pitch counter at which a block ends: SAMPLES_PER_BLOCK = 28 samples of
2^PITCH_FRAC_BITS = 4096 parts each (R7, 43_voice_mixer.md R222). -/
abbrev Config.blockEndCtr : Nat := 114688

/-- `PITCH_MAX` (R7). -/
abbrev Config.pitchMax : Nat := 0x3FFF

/-- `SHIFT_RESERVED_AS` (R7, 40_adpcm.md R131). -/
abbrev Config.shiftReservedAs : Nat := 9

/-- `EXP_INC_THRESHOLD`, compared with `>` (R7, 42_envelope.md R176). -/
abbrev Config.expIncThreshold : Nat := 0x6000

/-- The maximum envelope level, 0x7FFF (10_state.md R32). -/
abbrev Config.levelMax : Nat := 0x7FFF

/-- `TERM_END_FLAGS` (R7, 41_spu_ram.md R154). -/
abbrev Config.termEndFlags : Byte := 0x03

/-- `MASTER_VOL`, the host's default, as bits 14:0 of a volume register (44_control.md R298,
93_implementation_defined.md I14). -/
abbrev Config.masterVol : BitVec 15 := 0x3FFF

/-- `TICK_RATE_HZ` (R7): informative, used by the default pitch law only (44_control.md R294). -/
abbrev Config.tickRateHz : Nat := 44100

/-- The prediction coefficient `POS[f]` in units of 1/64 (40_adpcm.md R133). -/
def Config.pos : Fin 5 → Int
  | 0 => 0
  | 1 => 60
  | 2 => 115
  | 3 => 98
  | 4 => 122

/-- The prediction coefficient `NEG[f]` in units of 1/64 (40_adpcm.md R133). -/
def Config.neg : Fin 5 → Int
  | 0 => 0
  | 1 => 0
  | 2 => -52
  | 3 => -55
  | 4 => -60

/-- FREE VALUE. `RAM_INIT` (R7, 10_state.md R40): what the byte of RAM at an address holds from power-on until the
host writes it. It has no body: a claim holds for every draw. Log entry 1. -/
opaque Config.ramInit : Nat → Byte

/-- FREE VALUE. The sample a voice would play if its counter stood past the block's 28 samples, as a function of the
counter. No run reaches such a counter (10_state.md R28); it keeps `interpSample` total without picking a value.
Log entry 5. -/
opaque Config.sampleBeyondBlock : BitVec 17 → Sample

end Sys2Proof
end

