-- ==== Sys2Proof/Syntax.lean ====
section
/-! DEFINITION. The instructions of the block: its host transactions (spec/00_scope.md R3), one constructor per row of
spec/opcode_table.json, in the table's order. A voice number is the 5-bit field VSEL as the word holds it
(30_encoding.md R90); that it names a voice is checked in WellFormed.lean. `d` is the 16-bit field DATA. -/

namespace Sys2Proof

/-- The 46 transaction kinds (30_encoding.md R120): REGW (`wr…`) and REGR (`rd…`) of every register, TICK, RESET. -/
inductive Instr where
  | wrVoll (v : BitVec 5) (d : Half)      -- R241
  | rdVoll (v : BitVec 5)                 -- R247
  | wrVolr (v : BitVec 5) (d : Half)      -- R242
  | rdVolr (v : BitVec 5)                 -- R248
  | wrPitch (v : BitVec 5) (d : Half)     -- R243
  | rdPitch (v : BitVec 5)                -- R249
  | wrSaddr (v : BitVec 5) (d : Half)     -- R244
  | rdSaddr (v : BitVec 5)                -- R250
  | wrAdsrlo (v : BitVec 5) (d : Half)    -- R245
  | rdAdsrlo (v : BitVec 5)               -- R259
  | wrAdsrhi (v : BitVec 5) (d : Half)    -- R246
  | rdAdsrhi (v : BitVec 5)               -- R260
  | wrEnvx (v : BitVec 5) (d : Half)      -- R252
  | rdEnvx (v : BitVec 5)                 -- R251
  | wrRaddr (v : BitVec 5) (d : Half)     -- R253
  | rdRaddr (v : BitVec 5)                -- R254
  | wrMvoll (d : Half)                    -- R273
  | rdMvoll                               -- R276
  | wrMvolr (d : Half)                    -- R274
  | rdMvolr                               -- R277
  | wrEvoll (d : Half)                    -- R278
  | rdEvoll                               -- R280
  | wrEvolr (d : Half)                    -- R279
  | rdEvolr                               -- R281
  | wrKonlo (d : Half)                    -- R255
  | rdKonlo                               -- R265
  | wrKonhi (d : Half)                    -- R256
  | rdKonhi                               -- R266
  | wrKofflo (d : Half)                   -- R257
  | rdKofflo                              -- R267
  | wrKoffhi (d : Half)                   -- R258
  | rdKoffhi                              -- R268
  | wrEndxlo (d : Half)                   -- R262
  | rdEndxlo                              -- R261
  | wrEndxhi (d : Half)                   -- R264
  | rdEndxhi                              -- R263
  | wrTaddr (d : Half)                    -- R269
  | rdTaddr                               -- R270
  | wrTdata (d : Half)                    -- R272
  | rdTdata                               -- R271
  | wrExtvoll (d : Half)                  -- R282
  | rdExtvoll                             -- R284
  | wrExtvolr (d : Half)                  -- R283
  | rdExtvolr                             -- R285
  | tick                                  -- R220
  | reset                                 -- R275
  deriving DecidableEq, Repr

end Sys2Proof
end

