-- ==== Sys2Proof/WellFormed.lean ====
section
/-! DEFINITION. Which terms of `Instr` a transaction word can spell: the voice number of a voice register must name a
voice (spec/30_encoding.md R95, R97). Every value of DATA is an operand of every REGW (R115: the volume sweep form and
the TDATA read are accepted spellings, refused when performed). -/

namespace Sys2Proof

/-- `VSEL < NUM_VOICES` (R95). -/
def Instr.voiceOk (v : BitVec 5) : Bool := decide (v.toNat < Config.numVoices)

/-- The instruction is one that some word spells. -/
def Instr.wellFormed : Instr → Bool
  | .wrVoll v _ => Instr.voiceOk v
  | .rdVoll v => Instr.voiceOk v
  | .wrVolr v _ => Instr.voiceOk v
  | .rdVolr v => Instr.voiceOk v
  | .wrPitch v _ => Instr.voiceOk v
  | .rdPitch v => Instr.voiceOk v
  | .wrSaddr v _ => Instr.voiceOk v
  | .rdSaddr v => Instr.voiceOk v
  | .wrAdsrlo v _ => Instr.voiceOk v
  | .rdAdsrlo v => Instr.voiceOk v
  | .wrAdsrhi v _ => Instr.voiceOk v
  | .rdAdsrhi v => Instr.voiceOk v
  | .wrEnvx v _ => Instr.voiceOk v
  | .rdEnvx v => Instr.voiceOk v
  | .wrRaddr v _ => Instr.voiceOk v
  | .rdRaddr v => Instr.voiceOk v
  | .wrMvoll _ | .rdMvoll | .wrMvolr _ | .rdMvolr => true
  | .wrEvoll _ | .rdEvoll | .wrEvolr _ | .rdEvolr => true
  | .wrKonlo _ | .rdKonlo | .wrKonhi _ | .rdKonhi => true
  | .wrKofflo _ | .rdKofflo | .wrKoffhi _ | .rdKoffhi => true
  | .wrEndxlo _ | .rdEndxlo | .wrEndxhi _ | .rdEndxhi => true
  | .wrTaddr _ | .rdTaddr | .wrTdata _ | .rdTdata => true
  | .wrExtvoll _ | .rdExtvoll | .wrExtvolr _ | .rdExtvolr => true
  | .tick | .reset => true

end Sys2Proof
end

