-- ==== Sys2Proof/Decode.lean ====
section
/-! DEFINITION. Decoding a transaction word (spec/30_encoding.md R90 to R99), total on every word and refusing by the
first failing check, and after it the encoder (R120) written from the same tables. -/

namespace Sys2Proof

/-- The named refusals (60_exceptions.md R312). The first four are found by the decoder, the last two when a decoded
transaction is performed. -/
inductive RefusalReason where
  /-- Bits 29:25 are not all 0 (R92). -/
  | reservedBits
  /-- A REGR with DATA not 0, or a CTL word other than TICK's and RESET's (R94). -/
  | nonzeroField
  /-- A REG word whose OFFS is odd (R93). -/
  | oddOffset
  /-- A REG word whose OFFS names no register (R97). -/
  | unmappedOffset
  /-- A REGW of VOLL, VOLR, MVOLL or MVOLR with DATA[15] = 1 (44_control.md R241, R242, R273, R274). -/
  | volumeSweep
  /-- A REGR of TDATA (44_control.md R271). -/
  | tdataRead
  deriving DecidableEq, Repr

/-- A register of the window (10_state.md R20): one of the eight registers of a voice, or one of the fourteen global
registers. -/
inductive Reg where
  | voll (v : BitVec 5) | volr (v : BitVec 5) | pitch (v : BitVec 5) | saddr (v : BitVec 5)
  | adsrlo (v : BitVec 5) | adsrhi (v : BitVec 5) | envx (v : BitVec 5) | raddr (v : BitVec 5)
  | mvoll | mvolr | evoll | evolr | konlo | konhi | kofflo | koffhi | endxlo | endxhi
  | taddr | tdata | extvoll | extvolr
  deriving DecidableEq, Repr

/-! Fields of the word (R90). -/

/-- `OP`, bits 31:30. -/
def opOf (w : Word) : BitVec 2 := w.extractLsb' 30 2
/-- `RSV`, bits 29:25. -/
def rsvOf (w : Word) : BitVec 5 := w.extractLsb' 25 5
/-- `OFFS`, bits 24:16. -/
def offsOf (w : Word) : BitVec 9 := w.extractLsb' 16 9
/-- `DATA`, bits 15:0. -/
def dataOf (w : Word) : Half := w.extractLsb' 0 16
/-- Bits 29:0, the zero field of a CTL word. -/
def ctlOf (w : Word) : BitVec 30 := w.extractLsb' 0 30
/-- `VSEL` = OFFS[8:4]. -/
def vselOf (offs : BitVec 9) : BitVec 5 := offs.extractLsb' 4 5
/-- `RSEL` = OFFS[3:1]. -/
def rselOf (offs : BitVec 9) : BitVec 3 := offs.extractLsb' 1 3

/-- The register of voice `v` that RSEL names (R95). -/
def voiceReg (v : BitVec 5) (rsel : BitVec 3) : Reg :=
  match rsel.toNat with
  | 0 => .voll v
  | 1 => .volr v
  | 2 => .pitch v
  | 3 => .saddr v
  | 4 => .adsrlo v
  | 5 => .adsrhi v
  | 6 => .envx v
  | _ => .raddr v

/-- The table of the global registers (R96). -/
def globalTable : List (BitVec 9 × Reg) :=
  [ (0x180, .mvoll), (0x182, .mvolr), (0x184, .evoll), (0x186, .evolr),
    (0x188, .konlo), (0x18A, .konhi), (0x18C, .kofflo), (0x18E, .koffhi),
    (0x19C, .endxlo), (0x19E, .endxhi), (0x1A6, .taddr), (0x1A8, .tdata),
    (0x1B4, .extvoll), (0x1B6, .extvolr) ]

/-- The register at an offset, or none (R95, R96, R97). -/
def regAt (offs : BitVec 9) : Option Reg :=
  if (vselOf offs).toNat < Config.numVoices then some (voiceReg (vselOf offs) (rselOf offs))
  else globalTable.lookup offs

/-- The transaction REGW(reg, d). -/
def regWrite (d : Half) : Reg → Instr
  | .voll v => .wrVoll v d
  | .volr v => .wrVolr v d
  | .pitch v => .wrPitch v d
  | .saddr v => .wrSaddr v d
  | .adsrlo v => .wrAdsrlo v d
  | .adsrhi v => .wrAdsrhi v d
  | .envx v => .wrEnvx v d
  | .raddr v => .wrRaddr v d
  | .mvoll => .wrMvoll d
  | .mvolr => .wrMvolr d
  | .evoll => .wrEvoll d
  | .evolr => .wrEvolr d
  | .konlo => .wrKonlo d
  | .konhi => .wrKonhi d
  | .kofflo => .wrKofflo d
  | .koffhi => .wrKoffhi d
  | .endxlo => .wrEndxlo d
  | .endxhi => .wrEndxhi d
  | .taddr => .wrTaddr d
  | .tdata => .wrTdata d
  | .extvoll => .wrExtvoll d
  | .extvolr => .wrExtvolr d

/-- The transaction REGR(reg). -/
def regRead : Reg → Instr
  | .voll v => .rdVoll v
  | .volr v => .rdVolr v
  | .pitch v => .rdPitch v
  | .saddr v => .rdSaddr v
  | .adsrlo v => .rdAdsrlo v
  | .adsrhi v => .rdAdsrhi v
  | .envx v => .rdEnvx v
  | .raddr v => .rdRaddr v
  | .mvoll => .rdMvoll
  | .mvolr => .rdMvolr
  | .evoll => .rdEvoll
  | .evolr => .rdEvolr
  | .konlo => .rdKonlo
  | .konhi => .rdKonhi
  | .kofflo => .rdKofflo
  | .koffhi => .rdKoffhi
  | .endxlo => .rdEndxlo
  | .endxhi => .rdEndxhi
  | .taddr => .rdTaddr
  | .tdata => .rdTdata
  | .extvoll => .rdExtvoll
  | .extvolr => .rdExtvolr

/-- `Decode(w)` of R99: the checks in the spec's order, the first that fails names the refusal. -/
def decode (w : Word) : Except RefusalReason Instr :=
  if rsvOf w ≠ 0 then .error .reservedBits
  else if opOf w = 0b10 then
    if ctlOf w ≠ 0 then .error .nonzeroField else .ok .tick
  else if opOf w = 0b11 then
    if ctlOf w ≠ 0 then .error .nonzeroField else .ok .reset
  else if (offsOf w).getLsbD 0 then .error .oddOffset
  else if opOf w = 0b01 ∧ dataOf w ≠ 0 then .error .nonzeroField
  else
    match regAt (offsOf w) with
    | none => .error .unmappedOffset
    | some reg => .ok (if opOf w = 0b00 then regWrite (dataOf w) reg else regRead reg)

/-- What the decoder reads from an instruction given as the opcode table numbers its bits: `nbits` of them, those
above them 0. A transaction has 32 bits (R90), so no longer one is read. -/
def decodeTableWord (nbits w : Nat) : Option Instr :=
  if nbits ≤ 32 then
    match decode (BitVec.ofNat 32 (w % 2 ^ nbits)) with
    | .ok i => some i
    | .error _ => none
  else none

/-! The encoder (R120). -/

/-- The REG-format word of an operation, an offset and a data field (R90). -/
def packReg (op : BitVec 2) (offs : BitVec 9) (d : Half) : Word := op ++ (0 : BitVec 5) ++ offs ++ d

/-- `OFFS = 0x10*v + 2*RSEL` as its fields (R90, R95). -/
def voiceOffs (v : BitVec 5) (rsel : BitVec 3) : BitVec 9 := v ++ rsel ++ (0 : BitVec 1)

/-- `OFFS(reg)` (10_state.md R20, 30_encoding.md R95, R96). -/
def Reg.offs : Reg → BitVec 9
  | .voll v => voiceOffs v 0
  | .volr v => voiceOffs v 1
  | .pitch v => voiceOffs v 2
  | .saddr v => voiceOffs v 3
  | .adsrlo v => voiceOffs v 4
  | .adsrhi v => voiceOffs v 5
  | .envx v => voiceOffs v 6
  | .raddr v => voiceOffs v 7
  | .mvoll => 0x180
  | .mvolr => 0x182
  | .evoll => 0x184
  | .evolr => 0x186
  | .konlo => 0x188
  | .konhi => 0x18A
  | .kofflo => 0x18C
  | .koffhi => 0x18E
  | .endxlo => 0x19C
  | .endxhi => 0x19E
  | .taddr => 0x1A6
  | .tdata => 0x1A8
  | .extvoll => 0x1B4
  | .extvolr => 0x1B6

/-- The word of REGW(reg, d): `(OFFS(reg) << 16) | d` (R120). -/
def encodeWrite (reg : Reg) (d : Half) : Word := packReg 0b00 reg.offs d

/-- The word of REGR(reg): `0x40000000 | (OFFS(reg) << 16)` (R120). -/
def encodeRead (reg : Reg) : Word := packReg 0b01 reg.offs 0

/-- The word that spells an instruction (R98, R120). -/
def encode : Instr → Word
  | .wrVoll v d => encodeWrite (.voll v) d
  | .rdVoll v => encodeRead (.voll v)
  | .wrVolr v d => encodeWrite (.volr v) d
  | .rdVolr v => encodeRead (.volr v)
  | .wrPitch v d => encodeWrite (.pitch v) d
  | .rdPitch v => encodeRead (.pitch v)
  | .wrSaddr v d => encodeWrite (.saddr v) d
  | .rdSaddr v => encodeRead (.saddr v)
  | .wrAdsrlo v d => encodeWrite (.adsrlo v) d
  | .rdAdsrlo v => encodeRead (.adsrlo v)
  | .wrAdsrhi v d => encodeWrite (.adsrhi v) d
  | .rdAdsrhi v => encodeRead (.adsrhi v)
  | .wrEnvx v d => encodeWrite (.envx v) d
  | .rdEnvx v => encodeRead (.envx v)
  | .wrRaddr v d => encodeWrite (.raddr v) d
  | .rdRaddr v => encodeRead (.raddr v)
  | .wrMvoll d => encodeWrite .mvoll d
  | .rdMvoll => encodeRead .mvoll
  | .wrMvolr d => encodeWrite .mvolr d
  | .rdMvolr => encodeRead .mvolr
  | .wrEvoll d => encodeWrite .evoll d
  | .rdEvoll => encodeRead .evoll
  | .wrEvolr d => encodeWrite .evolr d
  | .rdEvolr => encodeRead .evolr
  | .wrKonlo d => encodeWrite .konlo d
  | .rdKonlo => encodeRead .konlo
  | .wrKonhi d => encodeWrite .konhi d
  | .rdKonhi => encodeRead .konhi
  | .wrKofflo d => encodeWrite .kofflo d
  | .rdKofflo => encodeRead .kofflo
  | .wrKoffhi d => encodeWrite .koffhi d
  | .rdKoffhi => encodeRead .koffhi
  | .wrEndxlo d => encodeWrite .endxlo d
  | .rdEndxlo => encodeRead .endxlo
  | .wrEndxhi d => encodeWrite .endxhi d
  | .rdEndxhi => encodeRead .endxhi
  | .wrTaddr d => encodeWrite .taddr d
  | .rdTaddr => encodeRead .taddr
  | .wrTdata d => encodeWrite .tdata d
  | .rdTdata => encodeRead .tdata
  | .wrExtvoll d => encodeWrite .extvoll d
  | .rdExtvoll => encodeRead .extvoll
  | .wrExtvolr d => encodeWrite .extvolr d
  | .rdExtvolr => encodeRead .extvolr
  | .tick => 0x80000000
  | .reset => 0xC0000000

end Sys2Proof
end

