-- ==== Sys2Proof/Machine/State.lean ====
section
/-! DEFINITION. The state of the voice block (spec/10_state.md R20 to R45) as plain data, its value at power-on, and
the reasons a step can stop. -/

namespace Sys2Proof.Machine

/-- The envelope phase of a voice (R31). -/
inductive Phase where
  | attack | decay | sustain | release | off
  deriving DecidableEq, Repr

/-- A voice: its registers (R21 to R26; ENVX is a view of `level`, R25) and its internal state (R27 to R33). -/
structure Voice where
  /-- VOLL, the left volume (R21). -/
  voll : Half
  /-- VOLR, the right volume (R21). -/
  volr : Half
  /-- PITCH, the sample step per tick in 1/4096 sample (R22). -/
  pitch : Half
  /-- SADDR, the start address in 8-byte units (R23). -/
  saddr : Half
  /-- ADSR_LO (R24). -/
  adsrLo : Half
  /-- ADSR_HI (R24). -/
  adsrHi : Half
  /-- RADDR, the repeat address in 8-byte units (R26). -/
  raddr : Half
  /-- The byte address of the block the voice is playing (R27). -/
  cur : RamAddr
  /-- The pitch counter: sample index in bits 16:12, fraction in bits 11:0 (R28). -/
  ctr : BitVec 17
  /-- The 28 decoded samples of the block at `cur` (R29). -/
  buf : Vector Sample 28
  /-- That block's flags: bit 0 END, bit 1 REP, bit 2 STA (R29, 30_encoding.md R111). -/
  flags : BitVec 3
  /-- The latest decoded sample (R30). -/
  old : Sample
  /-- The decoded sample before it (R30). -/
  older : Sample
  /-- The envelope phase (R31). -/
  phase : Phase
  /-- The envelope level, read and written as ENVX (R32, R25). -/
  level : BitVec 15
  /-- The ticks waited since the last level change (R33). -/
  envcnt : BitVec 23
  deriving DecidableEq, Repr

/-- A voice after power-on and after RESET (R45). -/
def Voice.reset : Voice where
  voll := 0
  volr := 0
  pitch := 0
  saddr := 0
  adsrLo := 0
  adsrHi := 0
  raddr := 0
  cur := 0
  ctr := 0
  buf := Vector.replicate 28 0
  flags := 0
  old := 0
  older := 0
  phase := .off
  level := 0
  envcnt := 0

/-- SPU RAM (R40): the bytes the host has written, by rising address. An unlisted address holds no written byte; what
a voice fetches there is the draw RAM_INIT (`State.ramByte` in Ops.lean, log entry 1). -/
abbrev Memory := List Host.Cell

/-- A stereo frame (R41). -/
structure Frame where
  left : Sample
  right : Sample
  deriving DecidableEq, Repr

/-- An entry of FAULTS (R42): a fault or a refusal with what 60_exceptions.md R311 and R312 say is recorded. -/
inductive Entry where
  /-- The fault MisalignedBlock (R311): voice `v` was about to fetch at `addr`, in the transaction `word` at position
  `pos` of the stream. -/
  | misalignedBlock (v : VoiceIx) (addr : RamAddr) (word : Word) (pos : Nat)
  /-- A refusal (R312) of `word` at position `pos` of the stream. -/
  | refusal (reason : RefusalReason) (word : Word) (pos : Nat)
  deriving DecidableEq, Repr

/-- The whole state. The last three fields are the model's own (log entries 2, 3, 4), not the block's. -/
structure State where
  /-- The 24 voices (43_voice_mixer.md R200). -/
  voices : Vector Voice 24
  /-- ENDX, one bit per voice (R34). -/
  endx : BitVec 24
  /-- KON_LO (R35). -/
  konLo : Half
  /-- KON_HI (R35). -/
  konHi : Half
  /-- KOFF_LO (R35). -/
  koffLo : Half
  /-- KOFF_HI (R35). -/
  koffHi : Half
  /-- MVOLL, the left master volume (R36). -/
  mvolL : Half
  /-- MVOLR, the right master volume (R36). -/
  mvolR : Half
  /-- EVOLL, stored and read back only (R37). -/
  evolL : Half
  /-- EVOLR, stored and read back only (R37). -/
  evolR : Half
  /-- EXTVOLL, stored and read back only (R38). -/
  extvolL : Half
  /-- EXTVOLR, stored and read back only (R38). -/
  extvolR : Half
  /-- TADDR, the last value written to it (R39). -/
  taddr : Half
  /-- T.ptr, the byte address the next TDATA write stores to (R39). -/
  tptr : RamAddr
  /-- RAM (R40). -/
  ram : Memory
  /-- OUT, the frames emitted, oldest first (R41). -/
  out : List Frame
  /-- FAULTS, oldest first (R42). -/
  faults : List Entry
  /-- The host's transaction words not yet performed, in order (70_reset_and_hazards.md R350). -/
  stream : List Word
  /-- How many words have been taken from the stream. -/
  pos : Nat
  /-- The values that REGR transactions have returned to the host, oldest first (44_control.md R240). -/
  reads : List Half
  deriving DecidableEq, Repr

/-- Power-on (R45, 70_reset_and_hazards.md R340): every register 0, every voice Off, RAM the draw (nothing written),
OUT and FAULTS empty. The host has issued nothing yet. -/
def State.reset : State where
  voices := Vector.replicate 24 Voice.reset
  endx := 0
  konLo := 0
  konHi := 0
  koffLo := 0
  koffHi := 0
  mvolL := 0
  mvolR := 0
  evolL := 0
  evolR := 0
  extvolL := 0
  extvolR := 0
  taddr := 0
  tptr := 0
  ram := []
  out := []
  faults := []
  stream := []
  pos := 0
  reads := []

/-- Why a step does not happen. -/
inductive Fault where
  /-- The block is halted: a transaction has faulted or been refused, and no later one has a step (60_exceptions.md
  R313 item 3). Raised by `step` alone. Safe: the spec gives no step here either. -/
  | halted
  deriving DecidableEq, Repr

/-- Why `exec` has no meaning for a term of `Instr`. -/
inductive Refusal where
  /-- No meaning yet. Raised by an arm of `exec`. Safe. No arm of this model raises it. -/
  | notModelled (mnemonic : String)
  /-- The term names a voice 24 to 31, which no word spells (30_encoding.md R95, R97), so no step raises it. Raised by
  the meanings of voice registers. Safe: the term is not well-formed. -/
  | noSuchVoice
  deriving DecidableEq, Repr

end Sys2Proof.Machine
end

