-- ==== Sys2Proof/Machine/Flags.lean ====
section
/-! DEFINITION. The block's only flags (spec/10_state.md R43): the three loop flags of a voice's current block
(30_encoding.md R111) and ENDX (R34, R104). -/

namespace Sys2Proof.Machine

/-- `END`, bit 0: loop end. -/
def loopEnd (flags : BitVec 3) : Bool := flags.getLsbD 0

/-- `REP`, bit 1: loop repeat. -/
def loopRepeat (flags : BitVec 3) : Bool := flags.getLsbD 1

/-- `STA`, bit 2: loop start. -/
def loopStart (flags : BitVec 3) : Bool := flags.getLsbD 2

/-- The mask of voice `v`'s ENDX bit. -/
def endxBit (v : VoiceIx) : BitVec 24 := 1#24 <<< v.val

/-- `ENDX[v] <- 1` (43_voice_mixer.md R214). -/
def endxSet (endx : BitVec 24) (v : VoiceIx) : BitVec 24 := endx ||| endxBit v

/-- `ENDX[v] <- 0` (44_control.md R255). -/
def endxClear (endx : BitVec 24) (v : VoiceIx) : BitVec 24 := endx &&& ~~~ endxBit v

/-- What a read of ENDX_LO gives: ENDX[15:0] (R104). -/
def endxLo (endx : BitVec 24) : Half := endx.extractLsb' 0 16

/-- What a read of ENDX_HI gives: 0x00 in bits 15:8 and ENDX[23:16] in bits 7:0 (R104). -/
def endxHi (endx : BitVec 24) : Half := (endx.extractLsb' 16 8).setWidth 16

end Sys2Proof.Machine
end

