-- ==== Sys2Proof/Machine/Operands.lean ====
section
/-! DEFINITION. The arithmetic primitives (spec/00_scope.md R10) and every operand form (30_encoding.md R100 to R105,
R110 to R113, 10_state.md R24). -/

namespace Sys2Proof.Machine

/-! Primitives (R10). -/

/-- `a >>s n` = floor(a / 2^n). -/
def asr (a : Int) (n : Nat) : Int := a / 2 ^ n

/-- `clamp(a, lo, hi)`. -/
def clamp (a lo hi : Int) : Int := if a < lo then lo else if a > hi then hi else a

/-- `clamp16(a)`. -/
def clamp16 (a : Int) : Int := clamp a (-32768) 32767

/-- An integer narrowed to i16; callers clamp it first, so nothing is lost. -/
def toSample (a : Int) : Sample := BitVec.ofInt 16 a

/-! Addresses (R100). -/

/-- The byte address of SADDR, RADDR or TADDR: `zext_16(reg) * 8`. -/
def byteAddr (reg : Half) : RamAddr := BitVec.ofNat 19 (reg.toNat * 8)

/-- A byte address in the 8-byte units of RADDR: `addr / 8`. -/
def addrUnits (addr : RamAddr) : Half := BitVec.ofNat 16 (addr.toNat / 8)

/-! Volumes (R101). -/

/-- Bit 15: the sweep form, whose write is refused. -/
def isSweep (d : Half) : Bool := d.getLsbD 15

/-- `VolEff(reg) = sext_15(reg[14:0]) * 2`. -/
def volEff (reg : Half) : Int := (reg.extractLsb' 0 15).toInt * 2

/-! Envelope parameters (R24, R102). -/

/-- `AM`, ADSR_LO[15]. -/
def attackIsExp (lo : Half) : Bool := lo.getLsbD 15
/-- `AS`, ADSR_LO[14:10]. -/
def attackShift (lo : Half) : Nat := (lo.extractLsb' 10 5).toNat
/-- `AT`, ADSR_LO[9:8]. -/
def attackStep (lo : Half) : Nat := (lo.extractLsb' 8 2).toNat
/-- `DS`, ADSR_LO[7:4]. -/
def decayShift (lo : Half) : Nat := (lo.extractLsb' 4 4).toNat
/-- `SL`, ADSR_LO[3:0]. -/
def sustainLevel (lo : Half) : Nat := (lo.extractLsb' 0 4).toNat
/-- `SM`, ADSR_HI[15]. -/
def sustainIsExp (hi : Half) : Bool := hi.getLsbD 15
/-- `SD`, ADSR_HI[14]. -/
def sustainDec (hi : Half) : Bool := hi.getLsbD 14
/-- `SS`, ADSR_HI[12:8]. -/
def sustainShift (hi : Half) : Nat := (hi.extractLsb' 8 5).toNat
/-- `ST`, ADSR_HI[7:6]. -/
def sustainStep (hi : Half) : Nat := (hi.extractLsb' 6 2).toNat
/-- `RM`, ADSR_HI[5]. -/
def releaseIsExp (hi : Half) : Bool := hi.getLsbD 5
/-- `RS`, ADSR_HI[4:0]. -/
def releaseShift (hi : Half) : Nat := (hi.extractLsb' 0 5).toNat

/-! ENVX (R105). -/

/-- What a read of ENVX gives: `zext_16(level)`. -/
def envxRead (level : BitVec 15) : Half := level.setWidth 16

/-- The level a write of ENVX sets: `DATA[14:0]`. -/
def envxLevel (d : Half) : BitVec 15 := d.extractLsb' 0 15

/-! Voice masks (R103). -/

/-- The voices in ascending order. -/
def allVoices : List VoiceIx := List.finRange 24

/-- Whether a `_LO` mask names voice `v`: bit `v`, voices 0..15. -/
def inMaskLo (d : Half) (v : VoiceIx) : Bool := decide (v.val < 16) && d.getLsbD v.val

/-- Whether a `_HI` mask names voice `v`: bit `v - 16`, voices 16..23. Bits 15:8 name no voice. -/
def inMaskHi (d : Half) (v : VoiceIx) : Bool := decide (16 ≤ v.val) && d.getLsbD (v.val - 16)

/-- The voices a `_LO` mask names, ascending. -/
def maskLo (d : Half) : List VoiceIx := allVoices.filter (inMaskLo d)

/-- The voices a `_HI` mask names, ascending. -/
def maskHi (d : Half) : List VoiceIx := allVoices.filter (inMaskHi d)

/-! The ADPCM block (R110 to R113). -/

/-- The 16 bytes of a block: header, flags, 14 data bytes (R110). -/
abbrev Block := Vector Byte 16

/-- The raw shift field of the header, bits 3:0 (R112). -/
def headerShift (b : Block) : Nat := (b[0].extractLsb' 0 4).toNat

/-- The raw filter field of the header, bits 6:4; bit 7 is ignored (R112). -/
def headerFilter (b : Block) : Nat := (b[0].extractLsb' 4 3).toNat

/-- The flag bits of the flag byte, bits 2:0; bits 7:3 are ignored (R111). -/
def blockFlags (b : Block) : BitVec 3 := b[1].extractLsb' 0 3

/-- Residual `i`: of data byte `i / 2`, the low nibble where `i` is even and the high one where it is odd (R113). -/
def residualOf (b : Block) (i : Fin 28) : Nibble :=
  let byte := b[2 + i.val / 2]
  if i.val % 2 = 0 then byte.extractLsb' 0 4 else byte.extractLsb' 4 4

/-- The 28 residuals in order. -/
def residuals (b : Block) : List Nibble := List.ofFn (residualOf b)

end Sys2Proof.Machine
end

