-- ==== Sys2Proof/Machine/Ops.lean ====
section
/-! DEFINITION. The named operations over the state: RAM (spec/20_memory.md), voices, the record of faults and
refusals (60_exceptions.md R311 to R314), the host's stream and what goes back to the host.

The block takes no exception (R310, R316): there is no trap entry and no trap return. What stands in their place is
`State.record`, the one operation by which a transaction that faults or is refused leaves its entry; the block is
halted from then on (`State.halted`). -/

namespace Sys2Proof.Machine

/-! RAM. -/

/-- The canonical form: addresses strictly rising, all below RAM_BYTES. -/
def Memory.wf (m : Memory) : Bool :=
  decide (m.Pairwise fun a b => a.1 < b.1) && m.all fun c => decide (c.1 < Config.ramBytes)

/-- The byte the host last wrote at an address, or none where it wrote none. -/
def Memory.read : Memory → Nat → Option Byte
  | [], _ => none
  | (b, y) :: m, a => if a = b then some y else Memory.read m a

/-- Write one byte, keeping the canonical form. -/
def Memory.write : Memory → Nat → Byte → Memory
  | [], a, x => [(a, x)]
  | (b, y) :: m, a, x =>
    if a < b then (a, x) :: (b, y) :: m
    else if a = b then (a, x) :: m
    else (b, y) :: Memory.write m a x

/-- `MemWrite(ptr, 2, d)` (R63, R64): the low byte at `ptr`, the high byte at `(ptr + 1) mod RAM_BYTES`. -/
def Memory.write16 (m : Memory) (ptr : RamAddr) (d : Half) : Memory :=
  (m.write ptr.toNat (d.extractLsb' 0 8)).write ((ptr.toNat + 1) % Config.ramBytes) (d.extractLsb' 8 8)

/-- The RAM byte at an address: the written one, or the draw where the host wrote none (10_state.md R40). -/
def State.ramByte (s : State) (a : Nat) : Byte := (s.ram.read a).getD (Config.ramInit a)

/-- The silent block (40_adpcm.md R137). -/
def silentBlock : Block := Vector.replicate 16 0

/-- The block at a fetch address: `MemRead(addr, 16)`, or the silent block at or above RAM_BYTES (R62, R67 d). -/
def State.blockAt (s : State) (addr : Nat) : Block :=
  if addr < Config.ramBytes then Vector.ofFn fun i : Fin 16 => s.ramByte (addr + i.val) else silentBlock

/-! Voices and ENDX. -/

/-- `V[v]`. -/
def State.voice (s : State) (v : VoiceIx) : Voice := s.voices[v]

/-- Replace voice `v`. -/
def State.setVoice (s : State) (v : VoiceIx) (x : Voice) : State := { s with voices := s.voices.set v x }

/-- `ENDX[v] <- 1`. -/
def State.markEndx (s : State) (v : VoiceIx) : State := { s with endx := endxSet s.endx v }

/-- `ENDX[v] <- 0`. -/
def State.clearEndx (s : State) (v : VoiceIx) : State := { s with endx := endxClear s.endx v }

/-! What goes back to the host. -/

/-- `emit(L, R)` (00_scope.md R10): append a frame to OUT. -/
def State.emit (s : State) (f : Frame) : State := { s with out := s.out ++ [f] }

/-- Return a value to the host as the transaction's result (44_control.md R240). -/
def State.returnValue (s : State) (x : Half) : State := { s with reads := s.reads ++ [x] }

/-! Faults and refusals. -/

/-- Append an entry to FAULTS (60_exceptions.md R313 item 1). -/
def State.record (s : State) (e : Entry) : State := { s with faults := s.faults ++ [e] }

/-- `refuse(reason)` for the transaction `word` (R312): the entry, and nothing else. -/
def State.refuse (s : State) (reason : RefusalReason) (word : Word) : State :=
  s.record (.refusal reason word s.pos)

/-- `raise Fault(MisalignedBlock, {v, addr})` in the transaction `word` (R311). -/
def State.misaligned (s : State) (v : VoiceIx) (addr : RamAddr) (word : Word) : State :=
  s.record (.misalignedBlock v addr word s.pos)

/-- The block is halted: FAULTS is not empty (R313 item 3). -/
def State.halted (s : State) : Bool := !s.faults.isEmpty

/-! The host's stream. -/

/-- Take the next transaction word, counting it; none if the host has issued no more. -/
def State.takeWord (s : State) : Option (Word × State) :=
  match s.stream with
  | [] => none
  | w :: rest => some (w, { s with stream := rest, pos := s.pos + 1 })

/-- The state in which the host issues `w` as its next transaction, before those it has issued already. -/
def State.issue (s : State) (w : Word) : State := { s with stream := w :: s.stream }

/-! A part of a transaction that a fault can stop. -/

/-- The outcome of a part of a transaction: it was done, or a fetch in it faulted and the transaction performs nothing
more, leaving the state as it was then with the fault recorded (R313 item 2). -/
inductive Progress (α : Type) where
  | done (a : α)
  | stopped (s : State)
  deriving DecidableEq, Repr

/-- The state a transaction leaves, whether it was performed whole or stopped. -/
def Progress.state : Progress State → State
  | .done s => s
  | .stopped s => s

/-- Whether it was performed whole. -/
def Progress.isDone {α : Type} : Progress α → Bool
  | .done _ => true
  | .stopped _ => false

/-- The answer of a meaning. -/
abbrev Answer := Host.Outcome State Fault Refusal

/-- Perform a transaction on a register of voice `v`; a term whose `v` names no voice has no meaning (30_encoding.md
R95, R97). -/
def withVoice (v : BitVec 5) (meaning : VoiceIx → Answer) : Answer :=
  if h : v.toNat < 24 then meaning ⟨v.toNat, h⟩ else .refused .noSuchVoice

end Sys2Proof.Machine
end

