-- ==== Sys2Proof/Machine/Adpcm.lean ====
section
/-! DEFINITION. The ADPCM decoder (spec/40_adpcm.md R130 to R140): a pure function of a block and a two-sample
history. -/

namespace Sys2Proof.Machine

/-- R131: the shift of a header; 13..15 act as SHIFT_RESERVED_AS. -/
def shiftOf (b : Block) : Nat := if headerShift b > 12 then Config.shiftReservedAs else headerShift b

/-- R132: the filter of a header; 5..7 act as FILTER_RESERVED_AS = 4. -/
def filterOf (b : Block) : Fin 5 :=
  if h : headerFilter b ≤ 4 then ⟨headerFilter b, by omega⟩ else 4

/-- `t` of R134: `sext_16(n << 12) >>s sh`. -/
def residualTerm (n : Nibble) (sh : Nat) : Int := asr (n.toInt * 4096) sh

/-- `p` of R134: the prediction, rounded to the nearest step. -/
def prediction (f : Fin 5) (old older : Int) : Int := asr (old * Config.pos f + older * Config.neg f + 32) 6

/-- `DecodeSample` (R134): saturated to i16. -/
def decodeSample (n : Nibble) (sh : Nat) (f : Fin 5) (old older : Sample) : Sample :=
  toSample (clamp16 (residualTerm n sh + prediction f old.toInt older.toInt))

/-- The loop of R135 over the residuals: each sample becomes the history of the next. -/
def decodeRun (sh : Nat) (f : Fin 5) : List Nibble → Sample → Sample → List Sample
  | [], _, _ => []
  | n :: ns, old, older =>
    decodeSample n sh f old older :: decodeRun sh f ns (decodeSample n sh f old older) old

/-- One sample a residual. -/
theorem decodeRun_length (sh : Nat) (f : Fin 5) (ns : List Nibble) (old older : Sample) :
    (decodeRun sh f ns old older).length = ns.length := by
  induction ns generalizing old older with
  | nil => rfl
  | cons n ns ih => simp [decodeRun, ih]

/-- The 28 samples of a block (R135). -/
def decodeSamples (b : Block) (old older : Sample) : Vector Sample 28 :=
  ⟨⟨decodeRun (shiftOf b) (filterOf b) (residuals b) old older⟩, by simp [decodeRun_length, residuals]⟩

/-- The decoder's result (R130). -/
structure Decoded where
  out : Vector Sample 28
  old : Sample
  older : Sample
  flags : BitVec 3
  deriving DecidableEq, Repr

/-- `DecodeBlock` (R135): the samples, the new history (the last two of them) and the flags passed through. -/
def decodeBlock (b : Block) (old older : Sample) : Decoded where
  out := decodeSamples b old older
  old := (decodeSamples b old older)[27]
  older := (decodeSamples b old older)[26]
  flags := blockFlags b

end Sys2Proof.Machine
end

