-- ==== Sys2Proof/Machine/Envelope.lean ====
section
/-! DEFINITION. The envelope generator of a voice (spec/42_envelope.md R170 to R183). -/

namespace Sys2Proof.Machine

/-- The four values a phase uses (R172). `inc` is the direction, increase or decrease. -/
structure EnvRow where
  inc : Bool
  exp : Bool
  shift : Nat
  sv : Int
  deriving DecidableEq, Repr

/-- The step value of a step code (R173). -/
def stepValue (inc : Bool) (code : Nat) : Int := if inc then 7 - code else -8 + code

/-- The table of R172, from the current ADSR registers; Off has no row. -/
def envRow (phase : Phase) (lo hi : Half) : Option EnvRow :=
  match phase with
  | .attack => some ⟨true, attackIsExp lo, attackShift lo, stepValue true (attackStep lo)⟩
  | .decay => some ⟨false, true, decayShift lo, -8⟩
  | .sustain =>
    some ⟨!sustainDec hi, sustainIsExp hi, sustainShift hi, stepValue (!sustainDec hi) (sustainStep hi)⟩
  | .release => some ⟨false, releaseIsExp hi, releaseShift hi, -8⟩
  | .off => none

/-- `SLT` (R174). -/
def sustainThreshold (lo : Half) : Nat := min ((sustainLevel lo + 1) * 0x800) 0x7FFF

/-- Ticks per level change (R175, and the slow part of a rising exponential curve, R176). -/
def EnvRow.cycles (r : EnvRow) (level : Nat) : Nat :=
  if r.exp && r.inc && decide (level > Config.expIncThreshold) then 2 ^ (r.shift - 11) * 4 else 2 ^ (r.shift - 11)

/-- The level change (R175), scaled by the level on a falling exponential curve (R176). -/
def EnvRow.step (r : EnvRow) (level : Nat) : Int :=
  if r.exp && !r.inc then asr (r.sv * 2 ^ (11 - r.shift) * level) 15 else r.sv * 2 ^ (11 - r.shift)

/-- The level update of `EnvTick` (R177). -/
def Voice.envStep (x : Voice) (r : EnvRow) : Voice :=
  if x.envcnt.toNat + 1 ≥ r.cycles x.level.toNat then
    { x with
      envcnt := 0
      level := BitVec.ofInt 15 (clamp (x.level.toNat + r.step x.level.toNat) 0 0x7FFF) }
  else { x with envcnt := BitVec.ofNat 23 (x.envcnt.toNat + 1) }

/-- `PhaseCheck` (R178). -/
def Voice.phaseCheck (x : Voice) : Voice :=
  match x.phase with
  | .attack => if x.level.toNat = 0x7FFF then { x with phase := .decay, envcnt := 0 } else x
  | .decay => if x.level.toNat ≤ sustainThreshold x.adsrLo then { x with phase := .sustain, envcnt := 0 } else x
  | .release => if x.level.toNat = 0 then { x with phase := .off, envcnt := 0 } else x
  | .sustain => x
  | .off => x

/-- `EnvTick` (R177): one tick of a voice's envelope; an Off voice does nothing. -/
def Voice.envTick (x : Voice) : Voice :=
  match envRow x.phase x.adsrLo x.adsrHi with
  | none => x
  | some r => (x.envStep r).phaseCheck

end Sys2Proof.Machine
end

