-- ==== Sys2Proof/Machine/Voice.lean ====
section
/-! DEFINITION. A voice's walk through RAM (spec/43_voice_mixer.md R210 to R216, R222), key-on and key-off
(44_control.md R255, R257), and what a voice contributes to a frame (R223 to R225). Each part that fetches is given
the word of the transaction it belongs to, which a fault records. -/

namespace Sys2Proof.Machine

/-! Block fetch (R212). -/

/-- What fetching block `b` at `cur` leaves in the voice: RADDR if the block carries STA, and the decoded block. -/
def Voice.load (x : Voice) (b : Block) : Voice :=
  { x with
    raddr := if loopStart (blockFlags b) then addrUnits x.cur else x.raddr
    buf := (decodeBlock b x.old x.older).out
    old := (decodeBlock b x.old x.older).old
    older := (decodeBlock b x.old x.older).older
    flags := (decodeBlock b x.old x.older).flags }

/-- `FetchBlock(v)` (R212): a misaligned address faults and nothing is fetched (20_memory.md R66). -/
def fetchBlock (word : Word) (v : VoiceIx) (s : State) : Progress State :=
  if (s.voice v).cur.toNat % Config.blockBytes ≠ 0 then .stopped (s.misaligned v (s.voice v).cur word)
  else .done (s.setVoice v ((s.voice v).load (s.blockAt (s.voice v).cur.toNat)))

/-! Block end (R211). -/

/-- R213: on to the next block, wrapping at the end of RAM. -/
def Voice.nextBlock (x : Voice) : Voice :=
  { x with cur := BitVec.ofNat 19 ((x.cur.toNat + Config.blockBytes) % Config.ramBytes) }

/-- R214: the jump to the repeat address, and the mute where REP is not set. -/
def Voice.loopBack (x : Voice) : Voice :=
  if loopRepeat x.flags then { x with cur := byteAddr x.raddr }
  else { x with cur := byteAddr x.raddr, phase := .release, level := 0, envcnt := 0 }

/-- The block end of voice `v`: R213 or R214 as the END flag of the block it leaves says (R211). -/
def blockEnd (word : Word) (v : VoiceIx) (s : State) : Progress State :=
  if loopEnd (s.voice v).flags then fetchBlock word v ((s.markEndx v).setVoice v (s.voice v).loopBack)
  else fetchBlock word v (s.setVoice v (s.voice v).nextBlock)

/-! Pitch counter (R222). -/

/-- The counter after adding `min(PITCH, PITCH_MAX)`, before a block end is taken off. -/
def Voice.ctrSum (x : Voice) : Nat := x.ctr.toNat + min x.pitch.toNat Config.pitchMax

/-- The voice with a counter value. -/
def Voice.withCtr (x : Voice) (n : Nat) : Voice := { x with ctr := BitVec.ofNat 17 n }

/-- `Advance(v)` (R222). -/
def advance (word : Word) (v : VoiceIx) (s : State) : Progress State :=
  if (s.voice v).ctrSum ≥ Config.blockEndCtr then
    blockEnd word v (s.setVoice v ((s.voice v).withCtr ((s.voice v).ctrSum - Config.blockEndCtr)))
  else .done (s.setVoice v ((s.voice v).withCtr (s.voice v).ctrSum))

/-! Key-on and key-off. -/

/-- The assignments of `KeyOn` to the voice, before its fetch (44_control.md R255). -/
def Voice.keyOn (x : Voice) : Voice :=
  { x with
    cur := byteAddr x.saddr
    ctr := 0
    old := 0
    older := 0
    phase := .attack
    level := 0
    envcnt := 0 }

/-- `KeyOn(v)` (R255). -/
def keyOn (word : Word) (v : VoiceIx) (s : State) : Progress State :=
  fetchBlock word v ((s.setVoice v (s.voice v).keyOn).clearEndx v)

/-- Key on the voices of a list in order; the first fault stops it (R255, 60_exceptions.md R313). -/
def keyOnAll (word : Word) : List VoiceIx → State → Progress State
  | [], s => .done s
  | v :: vs, s =>
    match keyOn word v s with
    | .done s' => keyOnAll word vs s'
    | .stopped s' => .stopped s'

/-- The assignments of `KeyOff` (R257): the level is kept. -/
def Voice.keyOff (x : Voice) : Voice := { x with phase := .release, envcnt := 0 }

/-- Key off the voices of a list (R257). -/
def keyOffAll : List VoiceIx → State → State
  | [], s => s
  | v :: vs, s => keyOffAll vs (s.setVoice v (s.voice v).keyOff)

/-! What a voice contributes (R223 to R225). -/

/-- The sample index `i = ctr[16:12]` (R28). -/
def Voice.sampleIx (x : Voice) : Nat := (x.ctr.extractLsb' 12 5).toNat

/-- The fraction `frac = ctr[11:0]` (R28). -/
def Voice.frac (x : Voice) : BitVec 12 := x.ctr.extractLsb' 0 12

/-- `INTERP(V[v], i, frac)` with the value of this hardware, `Interp_None` (R223): `buf[i]`, whatever the fraction. An
index past the block, which no run reaches (R28), gives a free value (log entry 5). -/
def interpSample (x : Voice) (i : Nat) (_frac : BitVec 12) : Sample :=
  if h : i < 28 then x.buf[i] else Config.sampleBeyondBlock x.ctr

/-- `se` (R224): the sample under the envelope, at the level of the start of the tick. -/
def Voice.enveloped (x : Voice) : Int := asr ((interpSample x x.sampleIx x.frac).toInt * x.level.toNat) 15

/-- The voice's left term (R225). -/
def Voice.termL (x : Voice) : Int := asr (x.enveloped * volEff x.voll) 15

/-- The voice's right term (R225). -/
def Voice.termR (x : Voice) : Int := asr (x.enveloped * volEff x.volr) 15

end Sys2Proof.Machine
end

