-- ==== Sys2Proof/Machine/Keying.lean ====
section
/-! DEFINITION. Key-on, key-off and the loop-end status (spec/44_control.md R255 to R258, R261 to R268). -/

namespace Sys2Proof.Machine

/-- `wr konlo, d` (R255). A faulting key-on keeps the register write and what was done before the fetch that failed
(60_exceptions.md R313). -/
def execWrKonlo (d : Half) (s : State) : Answer :=
  .next (keyOnAll (encode (.wrKonlo d)) (maskLo d) { s with konLo := d }).state

/-- `rd konlo` (R265): the last value written; no key-on happens. -/
def execRdKonlo (s : State) : Answer := .next (s.returnValue s.konLo)

/-- `wr konhi, d` (R256). -/
def execWrKonhi (d : Half) (s : State) : Answer :=
  .next (keyOnAll (encode (.wrKonhi d)) (maskHi d) { s with konHi := d }).state

/-- `rd konhi` (R266). -/
def execRdKonhi (s : State) : Answer := .next (s.returnValue s.konHi)

/-- `wr kofflo, d` (R257). -/
def execWrKofflo (d : Half) (s : State) : Answer := .next (keyOffAll (maskLo d) { s with koffLo := d })

/-- `rd kofflo` (R267). -/
def execRdKofflo (s : State) : Answer := .next (s.returnValue s.koffLo)

/-- `wr koffhi, d` (R258). -/
def execWrKoffhi (d : Half) (s : State) : Answer := .next (keyOffAll (maskHi d) { s with koffHi := d })

/-- `rd koffhi` (R268). -/
def execRdKoffhi (s : State) : Answer := .next (s.returnValue s.koffHi)

/-- `wr endxlo, d` (R262): accepted and ignored. -/
def execWrEndxlo (_d : Half) (s : State) : Answer := .next s

/-- `rd endxlo` (R261): reading does not clear it. -/
def execRdEndxlo (s : State) : Answer := .next (s.returnValue (endxLo s.endx))

/-- `wr endxhi, d` (R264): accepted and ignored. -/
def execWrEndxhi (_d : Half) (s : State) : Answer := .next s

/-- `rd endxhi` (R263). -/
def execRdEndxhi (s : State) : Answer := .next (s.returnValue (endxHi s.endx))

end Sys2Proof.Machine
end

