-- ==== Sys2Proof/Machine/MasterMix.lean ====
section
/-! DEFINITION. The master mix registers (spec/44_control.md R273, R274, R276 to R285). -/

namespace Sys2Proof.Machine

/-- `wr mvoll, d` (R273): the sweep form is refused. -/
def execWrMvoll (d : Half) (s : State) : Answer :=
  if isSweep d then .next (s.refuse .volumeSweep (encode (.wrMvoll d))) else .next { s with mvolL := d }

/-- `rd mvoll` (R276). -/
def execRdMvoll (s : State) : Answer := .next (s.returnValue s.mvolL)

/-- `wr mvolr, d` (R274): the sweep form is refused. -/
def execWrMvolr (d : Half) (s : State) : Answer :=
  if isSweep d then .next (s.refuse .volumeSweep (encode (.wrMvolr d))) else .next { s with mvolR := d }

/-- `rd mvolr` (R277). -/
def execRdMvolr (s : State) : Answer := .next (s.returnValue s.mvolR)

/-- `wr evoll, d` (R278): stored; nothing reads it but `rd evoll`. -/
def execWrEvoll (d : Half) (s : State) : Answer := .next { s with evolL := d }

/-- `rd evoll` (R280). -/
def execRdEvoll (s : State) : Answer := .next (s.returnValue s.evolL)

/-- `wr evolr, d` (R279). -/
def execWrEvolr (d : Half) (s : State) : Answer := .next { s with evolR := d }

/-- `rd evolr` (R281). -/
def execRdEvolr (s : State) : Answer := .next (s.returnValue s.evolR)

/-- `wr extvoll, d` (R282): stored; nothing reads it but `rd extvoll`. -/
def execWrExtvoll (d : Half) (s : State) : Answer := .next { s with extvolL := d }

/-- `rd extvoll` (R284). -/
def execRdExtvoll (s : State) : Answer := .next (s.returnValue s.extvolL)

/-- `wr extvolr, d` (R283). -/
def execWrExtvolr (d : Half) (s : State) : Answer := .next { s with extvolR := d }

/-- `rd extvolr` (R285). -/
def execRdExtvolr (s : State) : Answer := .next (s.returnValue s.extvolR)

end Sys2Proof.Machine
end

