-- ==== Sys2Proof/Machine/Reset.lean ====
section
/-! DEFINITION. RESET (spec/44_control.md R275, 10_state.md R45). -/

namespace Sys2Proof.Machine

/-- `reset`, RESET (R275): every item at its reset value, except RAM, OUT and FAULTS. What is the host's (its stream,
the count of its words, the values it was given) is no item of the block and stays. -/
def execReset (s : State) : Answer :=
  .next
    { State.reset with
      ram := s.ram
      out := s.out
      faults := s.faults
      stream := s.stream
      pos := s.pos
      reads := s.reads }

end Sys2Proof.Machine
end

