-- ==== Sys2Proof/Machine/Tick.lean ====
section
/-! DEFINITION. TICK (spec/43_voice_mixer.md R220 to R228): one stereo frame, and every active voice advanced. -/

namespace Sys2Proof.Machine

/-- The sums of a tick under way, and the state. -/
structure Mix where
  accL : Int
  accR : Int
  s : State
  deriving DecidableEq, Repr

/-- One voice of the loop of R220: an Off voice is passed over (R221). -/
def tickVoice (word : Word) (v : VoiceIx) (m : Mix) : Progress Mix :=
  if (m.s.voice v).phase = .off then .done m
  else
    match advance word v (m.s.setVoice v (m.s.voice v).envTick) with
    | .done s' => .done ⟨m.accL + (m.s.voice v).termL, m.accR + (m.s.voice v).termR, s'⟩
    | .stopped s' => .stopped s'

/-- The loop of R220 over the voices of a list in order; the first fault stops it. -/
def tickVoices (word : Word) : List VoiceIx → Mix → Progress Mix
  | [], m => .done m
  | v :: vs, m =>
    match tickVoice word v m with
    | .done m' => tickVoices word vs m'
    | .stopped s' => .stopped s'

/-- One side of the frame (R226): the sum saturated, the master volume applied, saturated again. -/
def masterOut (acc : Int) (mvol : Half) : Sample := toSample (clamp16 (asr (clamp16 acc * volEff mvol) 15))

/-- `tick`, TICK (R220). A faulting tick emits no frame (60_exceptions.md R313). -/
def execTick (s : State) : Answer :=
  .next
    (match tickVoices (encode .tick) allVoices ⟨0, 0, s⟩ with
      | .done m => m.s.emit ⟨masterOut m.accL m.s.mvolL, masterOut m.accR m.s.mvolR⟩
      | .stopped s' => s')

end Sys2Proof.Machine
end

