-- ==== Sys2Proof/Machine/Transfer.lean ====
section
/-! DEFINITION. The RAM transfer port TADDR and TDATA (spec/44_control.md R269 to R272, 20_memory.md R63). -/

namespace Sys2Proof.Machine

/-- `wr taddr, d` (R269): also sets T.ptr to the byte address. -/
def execWrTaddr (d : Half) (s : State) : Answer := .next { s with taddr := d, tptr := byteAddr d }

/-- `rd taddr` (R270): the last value written, not the moving T.ptr. -/
def execRdTaddr (s : State) : Answer := .next (s.returnValue s.taddr)

/-- T.ptr after a TDATA write: two bytes on, modulo RAM_BYTES (R63). -/
def tptrNext (p : RamAddr) : RamAddr := BitVec.ofNat 19 ((p.toNat + 2) % Config.ramBytes)

/-- `wr tdata, d` (R272): store the halfword at T.ptr and advance T.ptr. -/
def execWrTdata (d : Half) (s : State) : Answer :=
  .next { s with ram := s.ram.write16 s.tptr d, tptr := tptrNext s.tptr }

/-- `rd tdata` (R271): `refuse(TdataRead)`; FAULTS is all it writes. -/
def execRdTdata (s : State) : Answer := .next (s.refuse .tdataRead (encode .rdTdata))

end Sys2Proof.Machine
end

