-- ==== Sys2Proof/Machine/VoiceRegs.lean ====
section
/-! DEFINITION. REGW and REGR of the eight registers of a voice (spec/44_control.md R241 to R254, R259, R260). A write
changes its register alone; a read returns the value and changes no state of the block (R240). -/

namespace Sys2Proof.Machine

/-- The value a REGR of a voice register returns. -/
def readVoice (v : BitVec 5) (s : State) (get : Voice → Half) : Answer :=
  withVoice v fun i => .next (s.returnValue (get (s.voice i)))

/-- Replace the voice of a REGW. -/
def writeVoice (v : BitVec 5) (s : State) (put : Voice → Voice) : Answer :=
  withVoice v fun i => .next (s.setVoice i (put (s.voice i)))

/-- REGW of a voice volume (R241, R242): the sweep form is refused and changes nothing else. -/
def writeVolume (v : BitVec 5) (d : Half) (word : Word) (s : State) (put : Voice → Voice) : Answer :=
  if isSweep d then withVoice v fun _ => .next (s.refuse .volumeSweep word) else writeVoice v s put

/-- `wr v<n>.voll, d` (R241). -/
def execWrVoll (v : BitVec 5) (d : Half) (s : State) : Answer :=
  writeVolume v d (encode (.wrVoll v d)) s fun x => { x with voll := d }

/-- `rd v<n>.voll` (R247). -/
def execRdVoll (v : BitVec 5) (s : State) : Answer := readVoice v s Voice.voll

/-- `wr v<n>.volr, d` (R242). -/
def execWrVolr (v : BitVec 5) (d : Half) (s : State) : Answer :=
  writeVolume v d (encode (.wrVolr v d)) s fun x => { x with volr := d }

/-- `rd v<n>.volr` (R248). -/
def execRdVolr (v : BitVec 5) (s : State) : Answer := readVoice v s Voice.volr

/-- `wr v<n>.pitch, d` (R243). -/
def execWrPitch (v : BitVec 5) (d : Half) (s : State) : Answer := writeVoice v s fun x => { x with pitch := d }

/-- `rd v<n>.pitch` (R249). -/
def execRdPitch (v : BitVec 5) (s : State) : Answer := readVoice v s Voice.pitch

/-- `wr v<n>.saddr, d` (R244). -/
def execWrSaddr (v : BitVec 5) (d : Half) (s : State) : Answer := writeVoice v s fun x => { x with saddr := d }

/-- `rd v<n>.saddr` (R250). -/
def execRdSaddr (v : BitVec 5) (s : State) : Answer := readVoice v s Voice.saddr

/-- `wr v<n>.adsrlo, d` (R245). -/
def execWrAdsrlo (v : BitVec 5) (d : Half) (s : State) : Answer := writeVoice v s fun x => { x with adsrLo := d }

/-- `rd v<n>.adsrlo` (R259). -/
def execRdAdsrlo (v : BitVec 5) (s : State) : Answer := readVoice v s Voice.adsrLo

/-- `wr v<n>.adsrhi, d` (R246). -/
def execWrAdsrhi (v : BitVec 5) (d : Half) (s : State) : Answer := writeVoice v s fun x => { x with adsrHi := d }

/-- `rd v<n>.adsrhi` (R260). -/
def execRdAdsrhi (v : BitVec 5) (s : State) : Answer := readVoice v s Voice.adsrHi

/-- `wr v<n>.envx, d` (R252): the level alone, not the phase or the wait counter. -/
def execWrEnvx (v : BitVec 5) (d : Half) (s : State) : Answer := writeVoice v s fun x => { x with level := envxLevel d }

/-- `rd v<n>.envx` (R251). -/
def execRdEnvx (v : BitVec 5) (s : State) : Answer := readVoice v s fun x => envxRead x.level

/-- `wr v<n>.raddr, d` (R253). The value stands until the next fetch of a block with STA (43_voice_mixer.md R212,
R215), also when it is written after the key-on that fetched a first block with STA: DEDUCED, against the last sentence
of 70_reset_and_hazards.md R347, log entry 17. -/
def execWrRaddr (v : BitVec 5) (d : Half) (s : State) : Answer := writeVoice v s fun x => { x with raddr := d }

/-- `rd v<n>.raddr` (R254). -/
def execRdRaddr (v : BitVec 5) (s : State) : Answer := readVoice v s Voice.raddr

end Sys2Proof.Machine
end

