-- ==== Sys2Proof/Machine/Dispatch.lean ====
section
/-! DEFINITION. One arm per transaction kind of spec/opcode_table.json, each one call of its meaning. -/

namespace Sys2Proof.Machine

-- Perform a decoded transaction (spec/44_control.md R240).
def exec (i : Instr) (s : State) : Host.Outcome State Fault Refusal :=
  match i with
  | .wrVoll v d => Sys2Proof.Machine.execWrVoll v d s
  | .rdVoll v => Sys2Proof.Machine.execRdVoll v s
  | .wrVolr v d => Sys2Proof.Machine.execWrVolr v d s
  | .rdVolr v => Sys2Proof.Machine.execRdVolr v s
  | .wrPitch v d => Sys2Proof.Machine.execWrPitch v d s
  | .rdPitch v => Sys2Proof.Machine.execRdPitch v s
  | .wrSaddr v d => Sys2Proof.Machine.execWrSaddr v d s
  | .rdSaddr v => Sys2Proof.Machine.execRdSaddr v s
  | .wrAdsrlo v d => Sys2Proof.Machine.execWrAdsrlo v d s
  | .rdAdsrlo v => Sys2Proof.Machine.execRdAdsrlo v s
  | .wrAdsrhi v d => Sys2Proof.Machine.execWrAdsrhi v d s
  | .rdAdsrhi v => Sys2Proof.Machine.execRdAdsrhi v s
  | .wrEnvx v d => Sys2Proof.Machine.execWrEnvx v d s
  | .rdEnvx v => Sys2Proof.Machine.execRdEnvx v s
  | .wrRaddr v d => Sys2Proof.Machine.execWrRaddr v d s
  | .rdRaddr v => Sys2Proof.Machine.execRdRaddr v s
  | .wrMvoll d => Sys2Proof.Machine.execWrMvoll d s
  | .rdMvoll => Sys2Proof.Machine.execRdMvoll s
  | .wrMvolr d => Sys2Proof.Machine.execWrMvolr d s
  | .rdMvolr => Sys2Proof.Machine.execRdMvolr s
  | .wrEvoll d => Sys2Proof.Machine.execWrEvoll d s
  | .rdEvoll => Sys2Proof.Machine.execRdEvoll s
  | .wrEvolr d => Sys2Proof.Machine.execWrEvolr d s
  | .rdEvolr => Sys2Proof.Machine.execRdEvolr s
  | .wrKonlo d => Sys2Proof.Machine.execWrKonlo d s
  | .rdKonlo => Sys2Proof.Machine.execRdKonlo s
  | .wrKonhi d => Sys2Proof.Machine.execWrKonhi d s
  | .rdKonhi => Sys2Proof.Machine.execRdKonhi s
  | .wrKofflo d => Sys2Proof.Machine.execWrKofflo d s
  | .rdKofflo => Sys2Proof.Machine.execRdKofflo s
  | .wrKoffhi d => Sys2Proof.Machine.execWrKoffhi d s
  | .rdKoffhi => Sys2Proof.Machine.execRdKoffhi s
  | .wrEndxlo d => Sys2Proof.Machine.execWrEndxlo d s
  | .rdEndxlo => Sys2Proof.Machine.execRdEndxlo s
  | .wrEndxhi d => Sys2Proof.Machine.execWrEndxhi d s
  | .rdEndxhi => Sys2Proof.Machine.execRdEndxhi s
  | .wrTaddr d => Sys2Proof.Machine.execWrTaddr d s
  | .rdTaddr => Sys2Proof.Machine.execRdTaddr s
  | .wrTdata d => Sys2Proof.Machine.execWrTdata d s
  | .rdTdata => Sys2Proof.Machine.execRdTdata s
  | .wrExtvoll d => Sys2Proof.Machine.execWrExtvoll d s
  | .rdExtvoll => Sys2Proof.Machine.execRdExtvoll s
  | .wrExtvolr d => Sys2Proof.Machine.execWrExtvolr d s
  | .rdExtvolr => Sys2Proof.Machine.execRdExtvolr s
  | .tick => Sys2Proof.Machine.execTick s
  | .reset => Sys2Proof.Machine.execReset s

end Sys2Proof.Machine
end

