-- ==== Sys2Proof/Machine/Step.lean ====
section
/-! DEFINITION. One step: the block performs the next transaction of the host's stream (spec/20_memory.md R71,
70_reset_and_hazards.md R350). -/

namespace Sys2Proof.Machine

/-- A halted block has no step (60_exceptions.md R313). With nothing issued the block does nothing (60_exceptions.md
R321). A word the decoder refuses is recorded and changes nothing else (30_encoding.md R99); any other is
performed. -/
def step (s : State) : Host.Outcome State Fault Refusal :=
  if s.halted then .fault .halted
  else
    match s.takeWord with
    | none => .next s
    | some (w, s') =>
      match decode w with
      | .ok i => exec i s'
      | .error reason => .next (s'.refuse reason w)

/-- `s` with the transaction whose `nbits` low bits are `w`, the rest 0, issued as the next one. -/
def State.withFetchWord (s : State) (nbits w : Nat) : State := s.issue (BitVec.ofNat 32 (w % 2 ^ nbits))

end Sys2Proof.Machine
end

