-- ==== Sys2Proof/Machine/Procedures.lean ====
section
/-! DEFINITION. The sequences of transactions that spec/ names: the pseudo-instructions (30_encoding.md R119) and those
of the SPU RAM manager (41_spu_ram.md R151 to R157). They are host software, not block logic (00_scope.md R6): each
gives the transactions to issue, and no rule of the block reads what stands here. The host that issues them, with the
state it keeps, is HostModel.lean. -/

namespace Sys2Proof.Machine

/-! Pseudo-instructions (R119). -/

/-- The 5-bit field VSEL of a voice. -/
def vsel (n : VoiceIx) : BitVec 5 := BitVec.ofNat 5 n.val

/-- `tick <N>`. -/
def pseudoTick (n : Nat) : List Instr := List.replicate n .tick

/-- `keyon <n>`. -/
def pseudoKeyon (n : VoiceIx) : List Instr :=
  if n.val < 16 then [.wrKonlo (1#16 <<< n.val)] else [.wrKonhi (1#16 <<< (n.val - 16))]

/-- `keyoff <n>`. -/
def pseudoKeyoff (n : VoiceIx) : List Instr :=
  if n.val < 16 then [.wrKofflo (1#16 <<< n.val)] else [.wrKoffhi (1#16 <<< (n.val - 16))]

/-- `vol <n>, <L>, <R>`. -/
def pseudoVol (n : VoiceIx) (l r : Half) : List Instr := [.wrVoll (vsel n) l, .wrVolr (vsel n) r]

/-- The eleven envelope parameters as fields (10_state.md R24). -/
structure AdsrFields where
  am : BitVec 1
  as : BitVec 5
  at' : BitVec 2
  ds : BitVec 4
  sl : BitVec 4
  sm : BitVec 1
  sd : BitVec 1
  ss : BitVec 5
  st : BitVec 2
  rm : BitVec 1
  rs : BitVec 5
  deriving DecidableEq, Repr

/-- ADSR_LO of the fields. -/
def AdsrFields.lo (f : AdsrFields) : Half := f.am ++ f.as ++ f.at' ++ f.ds ++ f.sl

/-- ADSR_HI of the fields, bit 13 zero. -/
def AdsrFields.hi (f : AdsrFields) : Half := f.sm ++ f.sd ++ (0 : BitVec 1) ++ f.ss ++ f.st ++ f.rm ++ f.rs

/-- `adsr <n>, …`. -/
def pseudoAdsr (n : VoiceIx) (f : AdsrFields) : List Instr := [.wrAdsrlo (vsel n) f.lo, .wrAdsrhi (vsel n) f.hi]

/-- `wram <A>, <h0>, …` for the address `8 * units`. -/
def pseudoWram (units : Half) (hs : List Half) : List Instr := .wrTaddr units :: hs.map .wrTdata

/-- The halfwords of a byte string, low byte first; a lone last byte gets a zero high byte. -/
def halfwords : List Byte → List Half
  | [] => []
  | [lo] => [(0 : Byte) ++ lo]
  | lo :: hi :: bs => (hi ++ lo) :: halfwords bs

/-- `wblock <K>, <hdr>, <flg>, <d0>, …, <d13>`: the sixteen bytes at block `k`. -/
def pseudoWblock (k : Nat) (b : Block) : List Instr := pseudoWram (BitVec.ofNat 16 (2 * k)) (halfwords b.toList)

/-! The SPU RAM manager. -/

/-- A number of blocks, `0 .. CAP_BLOCKS`: the range of `currentSampleBlockCount` (R150), which a u16 holds. -/
abbrev BlockCount := Fin (Config.capBlocks + 1)

/-- A run of blocks `[first, past)` (R151). -/
structure BlockRange where
  first : Nat
  past : Nat
  deriving DecidableEq, Repr

/-- `nb`, the number of blocks that `writeSample` places for a sample of `len` bytes (R151). -/
def sampleBlocks (len : Nat) : BlockCount :=
  ⟨min ((len + 15) / 16) Config.capBlocks, Nat.lt_succ_of_le (Nat.min_le_right _ _)⟩

/-- `data`: the bytes that `writeSample` places, cut to the arena, the last block padded with zero bytes (R151). -/
def sampleData (bytes : List Byte) : List Byte :=
  bytes.take (16 * (sampleBlocks bytes.length).val) ++
    List.replicate (16 * (sampleBlocks bytes.length).val - bytes.length) 0

/-- The transactions of `writeSample(bytes)` (R151, R152): TADDR 0, then the data in ascending order. -/
def sampleWords (bytes : List Byte) : List Instr := pseudoWram 0 (halfwords (sampleData bytes))

/-- `terminatorBlockIndexFor` (R153). -/
def terminatorBlockIndexFor (count : BlockCount) : Nat := min count.val (Config.capBlocks - 2)

/-- The first terminator block, flagged STA (R154). -/
def terminatorStart : List Half := 0x0400 :: List.replicate 7 0

/-- The second terminator block, flagged TERM_END_FLAGS (R154). -/
def terminatorEnd : List Half := (Config.termEndFlags ++ (0 : Byte)) :: List.replicate 7 0

/-- The transactions of `placeTerminator()` for `currentSampleBlockCount = count` (R155; 17 words, log entry 15). -/
def placeTerminator (count : BlockCount) : List Instr :=
  pseudoWram (BitVec.ofNat 16 (2 * terminatorBlockIndexFor count)) (terminatorStart ++ terminatorEnd)

/-- R157: the value written to SADDR or RADDR for a sample byte address; a malformed or out-of-range one is redirected
to the terminator. -/
def redirect (count : BlockCount) (addr : Nat) : Half :=
  if addr % 16 ≠ 0 ∨ addr ≥ 16 * count.val then BitVec.ofNat 16 (2 * terminatorBlockIndexFor count)
  else BitVec.ofNat 16 (addr / 8)

end Sys2Proof.Machine
end

