-- ==== Sys2Proof/Machine/HostModel.lean ====
section
/-! DEFINITION. The host of the block (spec/41_spu_ram.md R150, R151, 44_control.md R290 to R299): the state it keeps,
its events, its control groups, its duties and the streams it can issue. None of it is block state (00_scope.md R6), and
no rule of the block reads it. What spec/ leaves OPEN is an argument (`HostLaws`), with the spec's defaults beside it. -/

namespace Sys2Proof.Machine

/-! The block as the host meets it: it performs what the host issues, and the host reads its registers. -/

/-- The block after one transaction of the host; a halted block has no step and stays as it is (60_exceptions.md
R313). -/
def State.perform (s : State) (i : Instr) : State :=
  match step (s.issue (encode i)) with
  | .next t => t
  | .fault _ => s
  | .refused _ => s

/-- The block after a list of transactions. -/
def State.performAll (s : State) (is : List Instr) : State := is.foldl State.perform s

/-- What ENVX of a voice reads as (R251). -/
def State.envx (s : State) (v : VoiceIx) : Half := envxRead (s.voice v).level

/-! Parameters. A value outside its range never reaches the host's state: `RawParams.validate` rejects it (R299). -/

/-- A parameter of the range [0, 127]: volume or pan (R295). -/
abbrev Param7 := Fin 128

/-- The parameters in force. The envelope's are its register fields, each as wide as its range (10_state.md R24). -/
structure Params where
  sampleRate : Nat
  baseNote : Int
  pitchstepUp : Nat
  pitchstepDown : Nat
  /-- The configured range of the pitch-bend, in no unit the spec gives (N34). -/
  bendRange : Rat
  volume : Param7
  pan : Param7
  adsr : AdsrFields
  deriving DecidableEq

/-- The eleven envelope parameters as they arrive from outside. -/
structure RawAdsr where
  attackIsExp : Int
  attackShift : Int
  attackStep : Int
  decayShift : Int
  sustainLevel : Int
  sustainIsExp : Int
  sustainDec : Int
  sustainShift : Int
  sustainStep : Int
  releaseIsExp : Int
  releaseShift : Int
  deriving DecidableEq, Repr

/-- The parameters as they arrive from outside. -/
structure RawParams where
  sampleRate : Int
  baseNote : Int
  pitchstepUp : Int
  pitchstepDown : Int
  bendRange : Rat
  volume : Int
  pan : Int
  adsr : RawAdsr
  deriving DecidableEq

/-- The ranges for which spec/ states none (log entry 18), of parameters and of the pitch-bend value: OPEN. One range
for both pitch steps: DESIGN CHOICE, log entry 23. -/
structure OpenRanges where
  sampleRate : Nat → Bool
  baseNote : Int → Bool
  pitchstep : Nat → Bool
  bendRange : Rat → Bool
  bend : Rat → Bool

/-- Every parameter is in its range. Volume, pan and the envelope's fields are by their types (R295, 10_state.md
R24). -/
def Params.inRange (ranges : OpenRanges) (p : Params) : Bool :=
  ranges.sampleRate p.sampleRate && ranges.baseNote p.baseNote && ranges.pitchstep p.pitchstepUp &&
    ranges.pitchstep p.pitchstepDown && ranges.bendRange p.bendRange

/-- An integer in `0 .. n-1`, or none. -/
def inRange (n : Nat) (a : Int) : Option (Fin n) :=
  if h : 0 ≤ a ∧ a < n then some ⟨a.toNat, by omega⟩ else none

/-- An integer that `w` bits hold, or none. -/
def inField (w : Nat) (a : Int) : Option (BitVec w) := (inRange (2 ^ w) a).map BitVec.ofFin

/-- An integer that is not negative, or none. -/
def natural (a : Int) : Option Nat := if 0 ≤ a then some a.toNat else none

/-- The range check of the envelope parameters (10_state.md R24). -/
def RawAdsr.validate (r : RawAdsr) : Option AdsrFields := do
  let am ← inField 1 r.attackIsExp
  let ash ← inField 5 r.attackShift
  let ast ← inField 2 r.attackStep
  let ds ← inField 4 r.decayShift
  let sl ← inField 4 r.sustainLevel
  let sm ← inField 1 r.sustainIsExp
  let sd ← inField 1 r.sustainDec
  let ss ← inField 5 r.sustainShift
  let st ← inField 2 r.sustainStep
  let rm ← inField 1 r.releaseIsExp
  let rs ← inField 5 r.releaseShift
  return ⟨am, ash, ast, ds, sl, sm, sd, ss, st, rm, rs⟩

/-- The parameters as the host's types hold them, or none where one does not fit its type. A negative sample rate or
pitch step fits none: DESIGN CHOICE, log entry 23. -/
def RawParams.typed (r : RawParams) : Option Params := do
  let rate ← natural r.sampleRate
  let up ← natural r.pitchstepUp
  let down ← natural r.pitchstepDown
  let volume ← inRange 128 r.volume
  let pan ← inRange 128 r.pan
  let adsr ← r.adsr.validate
  return ⟨rate, r.baseNote, up, down, r.bendRange, volume, pan, adsr⟩

/-- The range check at the boundary (R299): all of the parameters, or none where one is outside its range. -/
def RawParams.validate (ranges : OpenRanges) (r : RawParams) : Option Params :=
  r.typed.filter (Params.inRange ranges)

/-! The host's state. -/

/-- What the host has recorded of a voice: the note it plays, and whether it is still held. -/
structure HostNote where
  note : Int
  held : Bool
  deriving DecidableEq, Repr

/-- How far the loading of a sample has come (70_reset_and_hazards.md R342, steps 2 and 3). -/
inductive SampleStage where
  | none | written | terminated
  deriving DecidableEq, Repr

/-- The host's own state (R150, R292 to R299): none of it is the block's. -/
structure HostState where
  params : Params
  /-- The pitch-bend value last received, in no unit the spec gives (N34). -/
  bend : Rat
  /-- `currentSampleBlockCount`: the number of blocks the last `writeSample` placed (R150); only `writeSample` sets
  it. -/
  blockCount : BlockCount
  /-- The byte address the sample starts at. -/
  sampleStart : Nat
  /-- How far the loading of the sample has come. -/
  stage : SampleStage
  /-- Whether the MasterMix initialization of R298 has been issued. -/
  initialized : Bool
  /-- What is recorded of each voice. -/
  notes : Vector (Option HostNote) 24
  deriving DecidableEq

/-- The host at power-on: no sample placed, nothing initialized, no note recorded, the bend value `bend`. -/
def HostState.start (params : Params) (bend : Rat) : HostState where
  params := params
  bend := bend
  blockCount := 0
  sampleStart := 0
  stage := .none
  initialized := false
  notes := Vector.replicate 24 none

/-- Everything of the host's state that came from outside is in its range: what the check of R299 is for. -/
def HostState.inRange (ranges : OpenRanges) (h : HostState) : Bool :=
  h.params.inRange ranges && ranges.bend h.bend

/-- The host at power-on with the parameters and the bend value given from outside; none where one of them is outside
its range (R299). -/
def HostState.boot (ranges : OpenRanges) (raw : RawParams) (bend : Rat) : Option HostState :=
  (raw.validate ranges).bind fun params =>
    if ranges.bend bend then some (HostState.start params bend) else none

/-! The OPEN laws. -/

/-- What `PitchLaw` maps (R294). -/
structure PitchInputs where
  sampleRate : Nat
  baseNote : Int
  note : Int
  bend : Rat
  bendRange : Rat
  pitchstepUp : Nat
  pitchstepDown : Nat
  deriving DecidableEq

/-- The OPEN host functions (R294, R295, R296), the parameter MASTER_VOL (R298) and the open ranges. `panLaw` and
`masterVol` give bits 14:0 of a volume register, whose bit 15 is clear. `voiceAlloc` is given what ENVX of each voice
reads as. -/
structure HostLaws where
  pitchLaw : PitchInputs → Half
  panLaw : Param7 → Param7 → BitVec 15 × BitVec 15
  voiceAlloc : HostState → (VoiceIx → Half) → Option VoiceIx
  masterVol : BitVec 15
  ranges : OpenRanges

/-- The volume register value with bits 14:0 given and bit 15 clear (30_encoding.md R101). -/
def fixedVolume (x : BitVec 15) : Half := (0 : BitVec 1) ++ x

/-- The inputs of `PitchLaw` for a note. -/
def HostState.pitchInputs (h : HostState) (note : Int) : PitchInputs :=
  ⟨h.params.sampleRate, h.params.baseNote, note, h.bend, h.params.bendRange, h.params.pitchstepUp,
    h.params.pitchstepDown⟩

/-! Events (R291 to R293, R297). -/

/-- An event of R291; control changes and velocities have no effect. A note is any integer, and no event of a note is
rejected: DESIGN CHOICE, log entry 24. -/
inductive Event where
  | noteOn (note : Int) (velocity : Nat)
  | noteOff (note : Int)
  | pitchBend (bend : Rat)
  | controlChange (controller value : Nat)
  deriving DecidableEq

/-- The host plays `note` on voice `v`. -/
def HostState.recordNote (h : HostState) (v : VoiceIx) (note : Int) : HostState :=
  { h with notes := h.notes.set v (some ⟨note, true⟩) }

/-- The group of a note-on on voice `v` (R292). -/
def noteOnGroup (laws : HostLaws) (h : HostState) (v : VoiceIx) (note : Int) : List Instr :=
  [.wrPitch (vsel v) (laws.pitchLaw (h.pitchInputs note))]
    ++ pseudoVol v (fixedVolume (laws.panLaw h.params.volume h.params.pan).1)
      (fixedVolume (laws.panLaw h.params.volume h.params.pan).2)
    ++ pseudoAdsr v h.params.adsr
    ++ [.wrSaddr (vsel v) (redirect h.blockCount h.sampleStart)]
    ++ pseudoKeyon v

/-- The voices the host has recorded as holding `note`, in ascending order: DESIGN CHOICE of the order in which a
note-off keys them off, log entry 21. -/
def HostState.holding (h : HostState) (note : Int) : List VoiceIx :=
  allVoices.filter fun v => decide (h.notes[v] = some ⟨note, true⟩)

/-- A note-off releases the record of every voice that holds the note. -/
def HostState.releaseNote (h : HostState) (note : Int) : HostState :=
  { h with notes := h.notes.map fun r => if r = some ⟨note, true⟩ then some ⟨note, false⟩ else r }

/-- The retuning of one voice (R297): nothing where no note is recorded. -/
def retune (laws : HostLaws) (h : HostState) (v : VoiceIx) : List Instr :=
  match h.notes[v] with
  | none => []
  | some n => [.wrPitch (vsel v) (laws.pitchLaw (h.pitchInputs n.note))]

/-- The group an event issues and the host's state after it. A pitch-bend retunes the voices in ascending order (DESIGN
CHOICE, log entry 21); one whose value is outside its range is rejected and has no effect (R299, log entry 18). -/
def onEvent (laws : HostLaws) (envx : VoiceIx → Half) (h : HostState) : Event → List Instr × HostState
  | .noteOn note _ =>
    match laws.voiceAlloc h envx with
    | none => ([], h)
    | some v => (noteOnGroup laws h v note, h.recordNote v note)
  | .noteOff note => ((h.holding note).flatMap pseudoKeyoff, h.releaseNote note)
  | .pitchBend b =>
    if laws.ranges.bend b then (allVoices.flatMap (retune laws { h with bend := b }), { h with bend := b }) else ([], h)
  | .controlChange _ _ => ([], h)

/-- The groups of a block's events, in arrival order (R291). -/
def onEvents (laws : HostLaws) (envx : VoiceIx → Half) : HostState → List Event → List (List Instr) × HostState
  | h, [] => ([], h)
  | h, e :: es =>
    ((onEvent laws envx h e).1 :: (onEvents laws envx (onEvent laws envx h e).2 es).1,
      (onEvents laws envx (onEvent laws envx h e).2 es).2)

/-- `processBlock` (R291) with the block in state `s`: the events, then `n` TICKs. The events see ENVX as it reads at
the start (R290, the voice-state read; log entry 12). -/
def processBlock (laws : HostLaws) (s : State) (h : HostState) (events : List Event) (n : Nat) :
    List Instr × HostState :=
  ((onEvents laws s.envx h events).1.flatten ++ pseudoTick n, (onEvents laws s.envx h events).2)

/-! Control groups. -/

/-- The MasterMix initialization (R298). -/
def initMasterMix (masterVol : BitVec 15) : List Instr :=
  [.wrMvoll (fixedVolume masterVol), .wrMvolr (fixedVolume masterVol), .wrEvoll 0, .wrEvolr 0, .wrExtvoll 0,
    .wrExtvolr 0]

/-- What `writeSample` does (R151): the transactions it issues, the host's state after it, the blocks it returns. -/
structure SampleUpload where
  words : List Instr
  host : HostState
  range : BlockRange

/-- `writeSample(bytes)` (R151): `currentSampleBlockCount` becomes the number of blocks placed, and the sample, which
starts at block 0, has no terminator yet. -/
def writeSample (h : HostState) (bytes : List Byte) : SampleUpload where
  words := sampleWords bytes
  host := { h with blockCount := sampleBlocks bytes.length, sampleStart := 0, stage := .written }
  range := ⟨0, (sampleBlocks bytes.length).val⟩

/-- Placing the terminator completes a sample that has been written. -/
def SampleStage.terminate : SampleStage → SampleStage
  | .none => .none
  | .written => .terminated
  | .terminated => .terminated

/-- A control group: a host procedure, or any other multi-field update. -/
inductive HostGroup where
  /-- The MasterMix initialization (R298). -/
  | init
  /-- `writeSample` (R151). -/
  | writeSample (bytes : List Byte)
  /-- `placeTerminator` (R155). -/
  | placeTerminator
  /-- New parameters: the range check, no transaction, and effect from the next event (DESIGN CHOICE, log entry 18);
  where one is out of range all are rejected. -/
  | params (raw : RawParams)
  /-- A multi-field update or reads: any transactions that `hostMay` permits, ENVX, RADDR, KON, KOFF and RESET among
  them (DESIGN CHOICE, log entry 25). -/
  | update (words : List Instr)

/-- The transactions of a control group and the host's state after it. An update leaves the record of notes as it was,
whatever KOFF, KON or RESET it holds: DESIGN CHOICE, log entry 27. -/
def HostGroup.issue (laws : HostLaws) (h : HostState) : HostGroup → List Instr × HostState
  | .init => (initMasterMix laws.masterVol, { h with initialized := true })
  | .writeSample bytes => ((Machine.writeSample h bytes).words, (Machine.writeSample h bytes).host)
  | .placeTerminator => (Machine.placeTerminator h.blockCount, { h with stage := h.stage.terminate })
  | .params raw => ([], { h with params := (raw.validate laws.ranges).getD h.params })
  | .update words => (words, h)

/-! The host's duties (R298, R299). -/

/-- Whether a transaction keys a voice on. -/
def keysOn : Instr → Bool
  | .wrKonlo d => !(maskLo d).isEmpty
  | .wrKonhi d => !(maskHi d).isEmpty
  | _ => false

/-- Whether a transaction writes a MasterMix register. -/
def writesMasterMix : Instr → Bool
  | .wrMvoll _ | .wrMvolr _ | .wrEvoll _ | .wrEvolr _ | .wrExtvoll _ | .wrExtvolr _ => true
  | _ => false

/-- Whether a transaction writes RAM. -/
def writesRam : Instr → Bool
  | .wrTdata _ => true
  | _ => false

/-- Whether the host may issue a key-on: the MasterMix state is initialized (R298; a RESET since then does not undo it,
log entry 20), and a sample with its terminator
stands in RAM (R299; every voice the host keys plays the sample, log entry 19). -/
def HostState.mayKeyOn (h : HostState) : Bool := h.initialized && decide (h.stage = .terminated)

/-- Whether the host writes `d` to SADDR or RADDR for a sample of `count` blocks: the redirection leaves it as it is
(41_spu_ram.md R157), so it is a block of the sample or the start of the terminator. -/
def insideSample (count : BlockCount) (d : Half) : Bool := decide (redirect count (d.toNat * 8) = d)

/-- Whether a transaction reads no TDATA and writes no sweep form and no address outside the sample; an address is
judged when it is written, against the sample placed then (DESIGN CHOICE, log entry 29). -/
def keepsDuty (count : BlockCount) : Instr → Bool
  | .wrVoll _ d | .wrVolr _ d => !isSweep d
  | .wrSaddr _ d | .wrRaddr _ d => insideSample count d
  | .rdTdata => false
  | _ => true

/-- Whether the host may issue a transaction in an event group or an update: one that some word spells and that keeps
the duties of R299; no write of a MasterMix register, which the initialization alone writes (R298); no write of RAM,
which `writeSample` and `placeTerminator` alone make (R150), so that an upload is never split over TICKs (DESIGN CHOICE,
log entry 26); a key-on only when the host is ready for it. Writes of ENVX, RADDR, KON and KOFF and RESET are among what
it permits (DESIGN CHOICE, log entry 25). -/
def hostMay (h : HostState) (i : Instr) : Bool :=
  i.wellFormed && keepsDuty h.blockCount i && !writesMasterMix i && !writesRam i && (!keysOn i || h.mayKeyOn)

/-- Whether the host may issue a control group: the initialization once, which is before any key-on since a key-on needs
it; an update of permitted transactions without a TICK. `writeSample` and `placeTerminator` are two groups, each whole
between two TICKs, and TICKs may fall between the two, with voices active: DESIGN CHOICE, log entry 22. No other order
of groups and TICKs is asked for: DESIGN CHOICE, log entry 30. -/
def HostGroup.permitted (h : HostState) : HostGroup → Bool
  | .init => !h.initialized
  | .writeSample _ => true
  | .placeTerminator => true
  | .params _ => true
  | .update words => words.all fun i => hostMay h i && decide (i ≠ .tick)

/-! The host's stream (R290). -/

/-- `INTERLEAVE_GRAIN`. -/
inductive Grain where
  | block | tick
  deriving DecidableEq, Repr

/-- An audio block: its events and its frame count. -/
structure AudioBlock where
  events : List Event
  ticks : Nat
  deriving DecidableEq

/-- A contiguous part of the stream: a control group, or (a part of) an audio block. -/
inductive Piece where
  | control (g : HostGroup)
  | audio (b : AudioBlock)

/-- The pieces of an audio block between which a control group may land: none inside at grain `block`; after each TICK
but the last at grain `tick` (log entry 13). Reads of registers stand in control groups only, so none falls inside a
piece of a block: DESIGN CHOICE, log entry 28. -/
def AudioBlock.pieces (grain : Grain) (b : AudioBlock) : List Piece :=
  match grain with
  | .block => [.audio b]
  | .tick =>
    .audio { b with ticks := min b.ticks 1 } :: List.replicate (b.ticks - 1) (.audio ⟨[], 1⟩)

/-- The transactions of a piece that the host issues to a block in state `s`, and the host's state after it. -/
def Piece.issue (laws : HostLaws) (s : State) (h : HostState) : Piece → List Instr × HostState
  | .control g => g.issue laws h
  | .audio b => processBlock laws s h b.events b.ticks

/-- Whether the host may issue a piece to a block in state `s`. -/
def Piece.permitted (laws : HostLaws) (s : State) (h : HostState) : Piece → Bool
  | .control g => g.permitted h
  | .audio b => (processBlock laws s h b.events b.ticks).1.all (hostMay h)

/-- The stream of a list of pieces, from a state of the block and one of the host; the block performs each piece before
the next. None where a piece breaks a duty. -/
def hostRun (laws : HostLaws) : State → HostState → List Piece → Option (List Instr)
  | _, _, [] => some []
  | s, h, p :: ps =>
    if p.permitted laws s h then
      (hostRun laws (s.performAll (p.issue laws s h).1) (p.issue laws s h).2 ps).map ((p.issue laws s h).1 ++ ·)
    else none

/-- `zs` is an interleaving of `xs` and `ys`. -/
inductive Interleaving {α : Type} : List α → List α → List α → Prop where
  | nil : Interleaving [] [] []
  | left (x : α) {xs ys zs : List α} (h : Interleaving xs ys zs) : Interleaving (x :: xs) ys (x :: zs)
  | right (y : α) {xs ys zs : List α} (h : Interleaving xs ys zs) : Interleaving xs (y :: ys) (y :: zs)

/-- The host streams of R290 from power-on of the block and the host: any interleaving of the control groups and the audio blocks, each group
contiguous, that keeps the duties of R298 and R299, from parameters and a bend value that pass the range check. -/
def HostStream (laws : HostLaws) (grain : Grain) (raw : RawParams) (bend : Rat) (control : List HostGroup)
    (audio : List AudioBlock) (stream : List Instr) : Prop :=
  ∃ h pieces, HostState.boot laws.ranges raw bend = some h ∧
    Interleaving (control.map Piece.control) (audio.flatMap (AudioBlock.pieces grain)) pieces ∧
      hostRun laws State.reset h pieces = some stream

/-! The spec's default laws. -/

/-- `PanLaw`'s default (R295); neither value exceeds 0x3FFF. -/
def defaultPanLaw (volume pan : Param7) : BitVec 15 × BitVec 15 :=
  (BitVec.ofNat 15 (0x3FFF * volume.val * (127 - pan.val) / (127 * 127)),
    BitVec.ofNat 15 (0x3FFF * volume.val * pan.val / (127 * 127)))

/-- The semitone offset of R294. How many semitones a bend value is, under the configured range, the spec does not say
(N34): `bendSemitones` is OPEN. -/
def semitones (bendSemitones : Rat → Rat → Rat) (p : PitchInputs) : Rat :=
  (clamp (p.note - p.baseNote) (-(p.pitchstepDown : Int)) p.pitchstepUp : Int) + bendSemitones p.bend p.bendRange

/-- `n <= 4096 * sampleRate / 44100 * 2^(d / 12) + 1/2`, compared exactly by raising to the power `12 * d.den`. -/
def pitchAtLeast (sampleRate : Nat) (d : Rat) (n : Nat) : Bool :=
  if n = 0 then true
  else
    decide (((2 * n - 1) * Config.tickRateHz) ^ (12 * d.den) * 2 ^ (-d.num).toNat
      ≤ (8192 * sampleRate) ^ (12 * d.den) * 2 ^ d.num.toNat)

/-- The greatest number below `acc + 2^k` that a downward closed test accepts, bit by bit from `acc`. -/
def greatestBits (test : Nat → Bool) : Nat → Nat → Nat
  | 0, acc => acc
  | k + 1, acc => greatestBits test k (if test (acc + 2 ^ k) then acc + 2 ^ k else acc)

/-- `PitchLaw`'s default (R294): the rounded rate, at most 0xFFFF. -/
def defaultPitchLaw (bendSemitones : Rat → Rat → Rat) (p : PitchInputs) : Half :=
  BitVec.ofNat 16 (greatestBits (pitchAtLeast p.sampleRate (semitones bendSemitones p)) 16 0)

/-- Whether the host has recorded a voice as playing a held note. -/
def HostState.holdsNote (h : HostState) (v : VoiceIx) : Bool :=
  match h.notes[v] with
  | some n => n.held
  | none => false

/-- `VoiceAlloc`'s default (R296): the lowest voice that holds no note and whose ENVX reads 0. -/
def defaultVoiceAlloc (h : HostState) (envx : VoiceIx → Half) : Option VoiceIx :=
  allVoices.find? fun v => !h.holdsNote v && decide (envx v = 0)

/-- The spec's defaults, for an OPEN reading of the bend and OPEN ranges. -/
def defaultLaws (bendSemitones : Rat → Rat → Rat) (ranges : OpenRanges) : HostLaws where
  pitchLaw := defaultPitchLaw bendSemitones
  panLaw := defaultPanLaw
  voiceAlloc := defaultVoiceAlloc
  masterVol := Config.masterVol
  ranges := ranges

end Sys2Proof.Machine
end

