-- ==== Sys2Proof/Safety.lean ====
section
/-! DEFINITION. What counts as a safe run, in the terms claims use: a run that ends normally
(spec/70_reset_and_hazards.md R350), the invariant of the block's state, the words frames are stated in, and pictures of
a voice written out from the rules. The host's duties are in HostModel.lean. -/

namespace Sys2Proof.Machine

/-- FAULTS is empty: what every claim about a run takes or concludes (60_exceptions.md R313). -/
def State.clean (s : State) : Prop := s.faults = []

/-- A run of `k` steps ends normally: every step has a next state, and FAULTS is empty and nothing is left to perform
at the end (R350). -/
def EndsNormally (k : Nat) (s t : State) : Prop :=
  core.run k s = .next t ∧ t.clean ∧ t.stream = []

/-! The invariant. -/

/-- What holds of a voice between two transactions: the counter stands inside the block (10_state.md R28), the wait
counter never exceeds 2^22 - 1 (R33), no volume has the sweep form (R21). -/
structure Voice.Inv (x : Voice) : Prop where
  ctr : x.ctr.toNat < Config.blockEndCtr
  envcnt : x.envcnt.toNat < 2 ^ 22
  voll : isSweep x.voll = false
  volr : isSweep x.volr = false

/-- What holds of a voice whose last fetch was made: its block address is aligned (20_memory.md R65), and its history
is the last two samples of its block (40_adpcm.md R135). -/
structure Voice.Fetched (x : Voice) : Prop where
  cur : x.cur.toNat % Config.blockBytes = 0
  old : x.old = x.buf[27]
  older : x.older = x.buf[26]

/-- The invariant of the state: its voices; no sweep form in the master volumes (R36); an even T.ptr (20_memory.md
R65 b); RAM in canonical form inside the arena (R60); at most one entry in FAULTS (60_exceptions.md R313, R314). -/
structure State.Inv (s : State) : Prop where
  voices : ∀ v, (s.voice v).Inv
  fetched : s.clean → ∀ v, (s.voice v).Fetched
  mvolL : isSweep s.mvolL = false
  mvolR : isSweep s.mvolR = false
  tptr : s.tptr.toNat % 2 = 0
  ram : s.ram.wf = true
  faults : s.faults.length ≤ 1

/-! Frames. -/

/-- Every byte of RAM reads the same. -/
def SameRam (s t : State) : Prop := ∀ a, t.ram.read a = s.ram.read a

/-- The key registers are the same. -/
def SameKeys (s t : State) : Prop :=
  t.konLo = s.konLo ∧ t.konHi = s.konHi ∧ t.koffLo = s.koffLo ∧ t.koffHi = s.koffHi

/-- The master, reverb and external volumes are the same. -/
def SameMix (s t : State) : Prop :=
  t.mvolL = s.mvolL ∧ t.mvolR = s.mvolR ∧ t.evolL = s.evolL ∧ t.evolR = s.evolR ∧
    t.extvolL = s.extvolL ∧ t.extvolR = s.extvolR

/-- The transfer port is the same. -/
def SamePort (s t : State) : Prop := t.taddr = s.taddr ∧ t.tptr = s.tptr

/-- The host's side is the same: its stream, the count of its words, the values returned to it. -/
def SameHost (s t : State) : Prop := t.stream = s.stream ∧ t.pos = s.pos ∧ t.reads = s.reads

/-- Every voice is the same. -/
def SameVoices (s t : State) : Prop := ∀ v, t.voice v = s.voice v

/-- Everything is the same but voices, ENDX and FAULTS. -/
def SameOutsideVoices (s t : State) : Prop :=
  SameKeys s t ∧ SameMix s t ∧ SamePort s t ∧ SameRam s t ∧ t.out = s.out ∧ SameHost s t

/-- Everything is the same but voice `v`. -/
def OnlyVoice (v : VoiceIx) (s t : State) : Prop :=
  (∀ w, w ≠ v → t.voice w = s.voice w) ∧ t.endx = s.endx ∧ t.faults = s.faults ∧ SameOutsideVoices s t

/-- The registers of a voice that only a host write changes are the same (RADDR, which a fetch can set, and ENVX, a
view of the level, are not among them). -/
def SameSettings (x y : Voice) : Prop :=
  y.voll = x.voll ∧ y.volr = x.volr ∧ y.pitch = x.pitch ∧ y.saddr = x.saddr ∧ y.adsrLo = x.adsrLo ∧
    y.adsrHi = x.adsrHi

/-! What the rules say of one voice, written out from them, in which the claims about key-on, TICK and RESET are
stated. None of the machine's own operations is used here but the read of one RAM byte, the decoder and the effective
volume, each of which has a statement of its own. -/

/-- `clamp16` (00_scope.md R10). -/
def sat16 (a : Int) : Int := max (-32768) (min 32767 a)

/-- A voice at the values of the table of 10_state.md R45. -/
def AtReset (x : Voice) : Prop :=
  x.voll = 0 ∧ x.volr = 0 ∧ x.pitch = 0 ∧ x.saddr = 0 ∧ x.adsrLo = 0 ∧ x.adsrHi = 0 ∧ x.raddr = 0 ∧ x.level = 0 ∧
    x.phase = .off ∧ x.cur = 0 ∧ x.ctr = 0 ∧ x.envcnt = 0 ∧ (∀ i : Fin 28, x.buf[i] = 0) ∧ x.flags = 0 ∧
    x.old = 0 ∧ x.older = 0

/-- The 16 bytes from address `a` (20_memory.md R62): each the byte the host wrote there, or the draw RAM_INIT where it
wrote none (10_state.md R40). -/
def ramBlock (s : State) (a : Nat) : Block :=
  Vector.ofFn fun i : Fin 16 => (s.ram.read (a + i.val)).getD (Config.ramInit (a + i.val))

/-- The voice after a fetch at its own `cur` (43_voice_mixer.md R212; the flag bits, 30_encoding.md R111). -/
def fetchedVoice (s : State) (x : Voice) : Voice :=
  { x with
    raddr := if (ramBlock s x.cur.toNat)[1].getLsbD 2 then BitVec.ofNat 16 (x.cur.toNat / 8) else x.raddr
    buf := (decodeBlock (ramBlock s x.cur.toNat) x.old x.older).out
    old := (decodeBlock (ramBlock s x.cur.toNat) x.old x.older).out[27]
    older := (decodeBlock (ramBlock s x.cur.toNat) x.old x.older).out[26]
    flags := (ramBlock s x.cur.toNat)[1].extractLsb' 0 3 }

/-- The assignments of KeyOn made before its fetch (44_control.md R255). -/
def startedVoice (x : Voice) : Voice :=
  { x with
    cur := BitVec.ofNat 19 (x.saddr.toNat * 8)
    ctr := 0
    old := 0
    older := 0
    phase := .attack
    level := 0
    envcnt := 0 }

/-- The outcome of a key-on of the voices `named` when every one of them has an even SADDR (R255): each is started and
has fetched its first block, its ENDX bit is clear, and no other voice is touched. -/
def KeyedOn (named : VoiceIx → Bool) (s t : State) : Prop :=
  (∀ v, t.voice v = if named v then fetchedVoice s (startedVoice (s.voice v)) else s.voice v) ∧
    (∀ v : VoiceIx, t.endx.getLsbD v.val = (s.endx.getLsbD v.val && !named v)) ∧ t.faults = s.faults

/-- The outcome of a key-on when `v` is the first named voice with an odd SADDR (R255, 60_exceptions.md R313): the
voices before it are keyed, it is started but has fetched nothing, those after it are not touched, and the fault is
recorded. -/
def KeyOnStopped (named : VoiceIx → Bool) (v : VoiceIx) (word : Word) (s t : State) : Prop :=
  (∀ w, w < v → t.voice w = if named w then fetchedVoice s (startedVoice (s.voice w)) else s.voice w) ∧
    t.voice v = startedVoice (s.voice v) ∧ (∀ w, v < w → t.voice w = s.voice w) ∧
    (∀ w : VoiceIx, t.endx.getLsbD w.val = (s.endx.getLsbD w.val && !(named w && decide (w ≤ v)))) ∧
    t.faults = s.faults ++ [.misalignedBlock v (BitVec.ofNat 19 ((s.voice v).saddr.toNat * 8)) word s.pos]

/-! The envelope (42_envelope.md R172 to R178), from the bits of ADSR_LO and ADSR_HI (10_state.md R24). -/

/-- The row of R172 for the phase of a voice: whether it increases, whether it is exponential, shift and step value.
Off has none; what stands there is not used. -/
def envelopeRow (x : Voice) : Bool × Bool × Nat × Int :=
  let lo := x.adsrLo.toNat
  let hi := x.adsrHi.toNat
  match x.phase with
  | .attack => (true, decide (lo / 2 ^ 15 % 2 = 1), lo / 2 ^ 10 % 32, 7 - (lo / 2 ^ 8 % 4 : Nat))
  | .decay => (false, true, lo / 2 ^ 4 % 16, -8)
  | .sustain =>
    if hi / 2 ^ 14 % 2 = 0 then (true, decide (hi / 2 ^ 15 % 2 = 1), hi / 2 ^ 8 % 32, 7 - (hi / 2 ^ 6 % 4 : Nat))
    else (false, decide (hi / 2 ^ 15 % 2 = 1), hi / 2 ^ 8 % 32, -8 + (hi / 2 ^ 6 % 4 : Nat))
  | .release => (false, decide (hi / 2 ^ 5 % 2 = 1), hi % 32, -8)
  | .off => (false, false, 0, 0)

/-- Ticks per level change (R175), four times as many on a rising exponential curve above 0x6000 (R176). -/
def envelopeCycles (inc exp : Bool) (shift level : Nat) : Nat :=
  if exp = true ∧ inc = true ∧ 0x6000 < level then 2 ^ (shift - 11) * 4 else 2 ^ (shift - 11)

/-- The level change (R175), scaled by the level on a falling exponential curve (R176). -/
def envelopeChange (inc exp : Bool) (shift : Nat) (sv : Int) (level : Nat) : Int :=
  if exp = true ∧ inc = false then sv * 2 ^ (11 - shift) * level / 2 ^ 15 else sv * 2 ^ (11 - shift)

/-- The voice after the level update of R177. -/
def envelopeUpdated (x : Voice) : Voice :=
  let (inc, exp, shift, sv) := envelopeRow x
  if x.envcnt.toNat + 1 ≥ envelopeCycles inc exp shift x.level.toNat then
    { x with
      envcnt := 0
      level := BitVec.ofInt 15 (max 0 (min 0x7FFF (x.level.toNat + envelopeChange inc exp shift sv x.level.toNat))) }
  else { x with envcnt := BitVec.ofNat 23 (x.envcnt.toNat + 1) }

/-- The voice after the phase check of R178; the sustain threshold is that of R174. -/
def phaseChecked (x : Voice) : Voice :=
  if x.phase = .attack ∧ x.level.toNat = 0x7FFF then { x with phase := .decay, envcnt := 0 }
  else if x.phase = .decay ∧ x.level.toNat ≤ min ((x.adsrLo.toNat % 16 + 1) * 0x800) 0x7FFF then
    { x with phase := .sustain, envcnt := 0 }
  else if x.phase = .release ∧ x.level.toNat = 0 then { x with phase := .off, envcnt := 0 }
  else x

/-- The voice after the envelope's part of a tick (R177); an Off voice is as it was. -/
def envelopeTicked (x : Voice) : Voice := if x.phase = .off then x else phaseChecked (envelopeUpdated x)

/-! A voice in a tick. -/

/-- Whether a voice passes sample 27 of its block in this tick (43_voice_mixer.md R211, R222). -/
def passesBlockEnd (x : Voice) : Bool :=
  decide (x.phase ≠ .off ∧ x.ctr.toNat + min x.pitch.toNat 0x3FFF ≥ 28 * 4096)

/-- Where a voice that passes its block end goes (R213, R214). -/
def blockEndTarget (x : Voice) : Nat :=
  if x.flags.getLsbD 0 then x.raddr.toNat * 8 else (x.cur.toNat + 16) % 524288

/-- The voice after its envelope step, its counter and, at a block end, the jump and the mute (R220 to R222, R213,
R214), before any fetch; an Off voice does not move. -/
def movedVoice (x : Voice) : Voice :=
  if x.phase = .off then x
  else if passesBlockEnd x = false then
    { envelopeTicked x with ctr := BitVec.ofNat 17 (x.ctr.toNat + min x.pitch.toNat 0x3FFF) }
  else if x.flags.getLsbD 0 && !x.flags.getLsbD 1 then
    { envelopeTicked x with
      ctr := BitVec.ofNat 17 (x.ctr.toNat + min x.pitch.toNat 0x3FFF - 28 * 4096)
      cur := BitVec.ofNat 19 (blockEndTarget x)
      phase := .release
      level := 0
      envcnt := 0 }
  else
    { envelopeTicked x with
      ctr := BitVec.ofNat 17 (x.ctr.toNat + min x.pitch.toNat 0x3FFF - 28 * 4096)
      cur := BitVec.ofNat 19 (blockEndTarget x) }

/-- Voice `v` after a tick that no fault stopped (R220). -/
def tickedVoice (s : State) (v : VoiceIx) : Voice :=
  if passesBlockEnd (s.voice v) then fetchedVoice s (movedVoice (s.voice v)) else movedVoice (s.voice v)

/-- Whether the tick sets ENDX of a voice (R214). -/
def passesLoopEnd (x : Voice) : Bool := passesBlockEnd x && x.flags.getLsbD 0

/-- Voice `v` would fetch at a misaligned address in this tick (20_memory.md R66). -/
def tickMisaligned (x : Voice) : Bool := passesBlockEnd x && decide (blockEndTarget x % 16 ≠ 0)

/-- A voice's left and right term in the sums of a tick: an Off voice contributes 0 (R221, R224, R225). -/
def mixTerms (x : Voice) : Int × Int :=
  if x.phase = .off then (0, 0)
  else
    ((x.buf[x.ctr.toNat / 4096]?.getD (Config.sampleBeyondBlock x.ctr)).toInt * x.level.toNat / 2 ^ 15
        * volEff x.voll / 2 ^ 15,
      (x.buf[x.ctr.toNat / 4096]?.getD (Config.sampleBeyondBlock x.ctr)).toInt * x.level.toNat / 2 ^ 15
        * volEff x.volr / 2 ^ 15)

/-- The frame of a tick (R220, R226): the sums over the voices saturated, the master volume, saturated again. -/
def tickFrame (s : State) : Frame where
  left := BitVec.ofInt 16
    (sat16 (sat16 ((allVoices.map fun v => (mixTerms (s.voice v)).1).sum) * volEff s.mvolL / 2 ^ 15))
  right := BitVec.ofInt 16
    (sat16 (sat16 ((allVoices.map fun v => (mixTerms (s.voice v)).2).sum) * volEff s.mvolR / 2 ^ 15))


/-! The terminator (41_spu_ram.md R154, R158). -/

/-- RAM holds the terminator at block `t`: 32 bytes, zero but for the two flag bytes (R154). -/
def TerminatorAt (s : State) (t : Nat) : Prop :=
  ∀ i < 32, s.ramByte (16 * t + i) = if i = 1 then 0x04 else if i = 17 then 0x03 else 0

/-- Voice `v` plays the terminator at block `t`: it is in one of its two blocks, whose samples are all 0, and its
repeat address is the first of them. -/
def InTerminator (s : State) (v : VoiceIx) (t : Nat) : Prop :=
  t ≤ 32766 ∧ TerminatorAt s t ∧ (s.voice v).raddr.toNat = 2 * t ∧
    (((s.voice v).cur.toNat = 16 * t ∧ (s.voice v).flags = 4) ∨
      ((s.voice v).cur.toNat = 16 * t + 16 ∧ (s.voice v).flags = 3)) ∧
    (∀ i : Fin 28, (s.voice v).buf[i] = 0) ∧ (s.voice v).ctr.toNat < 28 * 4096

end Sys2Proof.Machine
end

