-- ==== Sys2Proof/Certificates/Slice0/Obligations.lean ====
section
/-! DEFINITION. The statements for the provers, from the numbered rules of spec/. `vsel v` is the VSEL field of voice
`v`, so a statement over every `v : VoiceIx` covers every well-formed voice register transaction. -/

open Sys2Proof Sys2Proof.Machine

/-! Encoding. -/

/-- Words of 30_encoding.md R120 and 95_test_vectors.md section 2.1, written out there. -/
def Obligations.WordsOfTheSpecDecode : Prop :=
  decode 0x00141000 = .ok (.wrPitch 1 0x1000) ∧ decode 0x01880001 = .ok (.wrKonlo 1) ∧
    decode 0x419C0000 = .ok .rdEndxlo ∧ decode 0x400C0000 = .ok (.rdEnvx 0) ∧
    decode 0x01A80400 = .ok (.wrTdata 0x0400) ∧ decode 0x017E1234 = .ok (.wrRaddr 23 0x1234) ∧
    decode 0x01803FFF = .ok (.wrMvoll 0x3FFF) ∧ decode 0x80000000 = .ok .tick ∧ decode 0xC0000000 = .ok .reset ∧
    decode 0x02010000 = .error .reservedBits ∧ decode 0x40010001 = .error .oddOffset ∧
    decode 0x41A80001 = .error .nonzeroField ∧ decode 0x41A00000 = .error .unmappedOffset

/-- R98. -/
def Obligations.TickAndResetAreSingleWords : Prop :=
  ∀ w, (decode w = .ok .tick ↔ w = 0x80000000) ∧ (decode w = .ok .reset ↔ w = 0xC0000000)

/-- R92, R93, R94, R97, each in the order of the checks of R99. -/
def Obligations.ReservedWordsAreRefusedByName : Prop :=
  ∀ w : Word,
    (decode w = .error .reservedBits ↔ w.extractLsb' 25 5 ≠ 0) ∧
    (decode w = .error .oddOffset ↔
      w.extractLsb' 25 5 = 0 ∧ w.getLsbD 31 = false ∧ w.getLsbD 16 = true) ∧
    (decode w = .error .nonzeroField ↔
      w.extractLsb' 25 5 = 0 ∧
        ((w.getLsbD 31 = true ∧ w.extractLsb' 0 30 ≠ 0) ∨
          (w.getLsbD 31 = false ∧ w.getLsbD 30 = true ∧ w.getLsbD 16 = false ∧ w.extractLsb' 0 16 ≠ 0))) ∧
    (decode w = .error .unmappedOffset ↔
      w.extractLsb' 25 5 = 0 ∧ w.getLsbD 31 = false ∧ w.getLsbD 16 = false ∧
        (w.getLsbD 30 = true → w.extractLsb' 0 16 = 0) ∧
        ((0x190 ≤ (w.extractLsb' 16 9).toNat ∧ (w.extractLsb' 16 9).toNat ≤ 0x19A) ∨
          (0x1A0 ≤ (w.extractLsb' 16 9).toNat ∧ (w.extractLsb' 16 9).toNat ≤ 0x1A4) ∨
          (0x1AA ≤ (w.extractLsb' 16 9).toNat ∧ (w.extractLsb' 16 9).toNat ≤ 0x1B2) ∨
          (0x1B8 ≤ (w.extractLsb' 16 9).toNat ∧ (w.extractLsb' 16 9).toNat ≤ 0x1FE)))

/-- Decoding the encoding of a well-formed instruction gives it back. -/
def Obligations.DecodeInvertsEncode : Prop :=
  ∀ i : Instr, i.wellFormed = true → decode (encode i) = .ok i

/-- A decoded word is well-formed and is the encoding of what it decodes to: each word has one meaning. -/
def Obligations.EncodeInvertsDecode : Prop :=
  ∀ (w : Word) (i : Instr), decode w = .ok i → i.wellFormed = true ∧ encode i = w

/-! Steps. -/

/-- A step performs the next word of the stream when it decodes: `exec` of the instruction, on the state with the word
taken and counted (stream and count are the model's own fields, log entries 2 and 3). -/
def Obligations.StepPerformsTheDecodedWord : Prop :=
  ∀ (s : State) (w : Word) (rest : List Word) (i : Instr),
    s.clean → s.stream = w :: rest → decode w = .ok i →
      step s = exec i { s with stream := rest, pos := s.pos + 1 }

/-- R313 items 1 and 2 for a word refused at decode: the entry is all that changes (the stream and the count of words
are the model's own fields, log entries 2 and 3). -/
def Obligations.StepRecordsARefusedWord : Prop :=
  ∀ (s : State) (w : Word) (rest : List Word) (r : RefusalReason),
    s.clean → s.stream = w :: rest → decode w = .error r →
      step s =
        .next { s with stream := rest, pos := s.pos + 1, faults := [.refusal r w (s.pos + 1)] }

/-- R313 item 3 and R321: a halted block has no step, and with nothing issued the block does nothing. How the model
says the two (a fault of its own, a step that changes nothing) is its choice, log entries 2 and 6. -/
def Obligations.HaltedBlockHasNoStep : Prop :=
  ∀ s : State, (¬ s.clean → step s = .fault .halted) ∧ (s.clean → s.stream = [] → step s = .next s)

/-- R310, R313: every transaction a word spells has a next state (one that faults or is refused the state that records
it, log entry 6). -/
def Obligations.EveryTransactionHasANextState : Prop :=
  ∀ (i : Instr) (s : State), i.wellFormed = true → ∃ t, exec i s = .next t

/-! Register writes. -/

/-- R243 to R246, R252, R253: the register alone is written. That the RADDR clause holds also just after a key-on that
fetched a block with STA is the model's reading, log entry 17: the last sentence of R347 calls that write lost. -/
def Obligations.VoiceRegisterWrites : Prop :=
  ∀ (s : State) (v : VoiceIx) (d : Half),
    (∃ t, exec (.wrPitch (vsel v) d) s = .next t ∧ OnlyVoice v s t ∧ t.voice v = { s.voice v with pitch := d }) ∧
    (∃ t, exec (.wrSaddr (vsel v) d) s = .next t ∧ OnlyVoice v s t ∧ t.voice v = { s.voice v with saddr := d }) ∧
    (∃ t, exec (.wrAdsrlo (vsel v) d) s = .next t ∧ OnlyVoice v s t ∧ t.voice v = { s.voice v with adsrLo := d }) ∧
    (∃ t, exec (.wrAdsrhi (vsel v) d) s = .next t ∧ OnlyVoice v s t ∧ t.voice v = { s.voice v with adsrHi := d }) ∧
    (∃ t, exec (.wrEnvx (vsel v) d) s = .next t ∧ OnlyVoice v s t ∧
      t.voice v = { s.voice v with level := BitVec.ofNat 15 (d.toNat % 2 ^ 15) }) ∧
    (∃ t, exec (.wrRaddr (vsel v) d) s = .next t ∧ OnlyVoice v s t ∧ t.voice v = { s.voice v with raddr := d })

/-- R241, R242: a volume without bit 15 is stored alone; one with bit 15 is refused, and only FAULTS changes
(the position in its entry is counted as the model chooses, log entry 3, here and in every statement of a refusal or a
fault). -/
def Obligations.VoiceVolumeWrites : Prop :=
  ∀ (s : State) (v : VoiceIx) (d : Half),
    (d.getLsbD 15 = false →
      (∃ t, exec (.wrVoll (vsel v) d) s = .next t ∧ OnlyVoice v s t ∧ t.voice v = { s.voice v with voll := d }) ∧
      (∃ t, exec (.wrVolr (vsel v) d) s = .next t ∧ OnlyVoice v s t ∧ t.voice v = { s.voice v with volr := d })) ∧
    (d.getLsbD 15 = true →
      exec (.wrVoll (vsel v) d) s =
          .next { s with faults := s.faults ++ [.refusal .volumeSweep (encode (.wrVoll (vsel v) d)) s.pos] } ∧
      exec (.wrVolr (vsel v) d) s =
          .next { s with faults := s.faults ++ [.refusal .volumeSweep (encode (.wrVolr (vsel v) d)) s.pos] })

/-- R273, R274: the same of the master volumes (position: log entry 3). -/
def Obligations.MasterVolumeWrites : Prop :=
  ∀ (s : State) (d : Half),
    (d.getLsbD 15 = false →
      exec (.wrMvoll d) s = .next { s with mvolL := d } ∧ exec (.wrMvolr d) s = .next { s with mvolR := d }) ∧
    (d.getLsbD 15 = true →
      exec (.wrMvoll d) s =
          .next { s with faults := s.faults ++ [.refusal .volumeSweep (encode (.wrMvoll d)) s.pos] } ∧
      exec (.wrMvolr d) s =
          .next { s with faults := s.faults ++ [.refusal .volumeSweep (encode (.wrMvolr d)) s.pos] })

/-- R278, R279, R282, R283: the reverb and external volumes are stored whatever the value. -/
def Obligations.UnusedVolumeWrites : Prop :=
  ∀ (s : State) (d : Half),
    exec (.wrEvoll d) s = .next { s with evolL := d } ∧ exec (.wrEvolr d) s = .next { s with evolR := d } ∧
    exec (.wrExtvoll d) s = .next { s with extvolL := d } ∧ exec (.wrExtvolr d) s = .next { s with extvolR := d }

/-- R37, R38: no transaction but their own reads depends on the reverb and external volumes: with other values in them
it leaves the same state, those four registers apart. -/
def Obligations.UnusedVolumesHaveNoEffect : Prop :=
  ∀ (i : Instr) (s t : State) (a b c e : Half),
    i ≠ .rdEvoll → i ≠ .rdEvolr → i ≠ .rdExtvoll → i ≠ .rdExtvolr →
      exec i s = .next t →
        ∃ u, exec i { s with evolL := a, evolR := b, extvolL := c, extvolR := e } = .next u ∧
          { u with evolL := t.evolL, evolR := t.evolR, extvolL := t.extvolL, extvolR := t.extvolR } = t

/-- R262, R264: a write of ENDX is accepted and changes nothing. -/
def Obligations.EndxWritesAreIgnored : Prop :=
  ∀ (s : State) (d : Half), exec (.wrEndxlo d) s = .next s ∧ exec (.wrEndxhi d) s = .next s

/-- R269: TADDR is stored and T.ptr becomes its byte address. -/
def Obligations.TaddrWriteSetsThePointer : Prop :=
  ∀ (s : State) (d : Half),
    ∃ t, exec (.wrTaddr d) s = .next t ∧ t.taddr = d ∧ t.tptr.toNat = d.toNat * 8 ∧
      SameVoices s t ∧ t.endx = s.endx ∧ t.faults = s.faults ∧ SameKeys s t ∧ SameMix s t ∧ SameRam s t ∧
      t.out = s.out ∧ SameHost s t

/-- R63, R64, R272: TDATA stores the low byte at T.ptr and the high byte after it, advances T.ptr by 2 modulo RAM_BYTES,
and changes nothing else. -/
def Obligations.TdataWriteStoresAHalfword : Prop :=
  ∀ (s : State) (d : Half),
    ∃ t, exec (.wrTdata d) s = .next t ∧
      t.ram.read s.tptr.toNat = some (d.extractLsb' 0 8) ∧
      t.ram.read ((s.tptr.toNat + 1) % 524288) = some (d.extractLsb' 8 8) ∧
      (∀ a, a ≠ s.tptr.toNat → a ≠ (s.tptr.toNat + 1) % 524288 → t.ram.read a = s.ram.read a) ∧
      t.tptr.toNat = (s.tptr.toNat + 2) % 524288 ∧ t.taddr = s.taddr ∧
      SameVoices s t ∧ t.endx = s.endx ∧ t.faults = s.faults ∧ SameKeys s t ∧ SameMix s t ∧ t.out = s.out ∧
      SameHost s t

/-! Register reads. -/

/-- R247 to R251, R254, R259, R260: a read returns the register and changes no state of the block. What is returned is
appended to `reads`, a field of the model's own (log entry 4), here and in the other statements about reads. -/
def Obligations.VoiceRegisterReads : Prop :=
  ∀ (s : State) (v : VoiceIx),
    exec (.rdVoll (vsel v)) s = .next { s with reads := s.reads ++ [(s.voice v).voll] } ∧
    exec (.rdVolr (vsel v)) s = .next { s with reads := s.reads ++ [(s.voice v).volr] } ∧
    exec (.rdPitch (vsel v)) s = .next { s with reads := s.reads ++ [(s.voice v).pitch] } ∧
    exec (.rdSaddr (vsel v)) s = .next { s with reads := s.reads ++ [(s.voice v).saddr] } ∧
    exec (.rdAdsrlo (vsel v)) s = .next { s with reads := s.reads ++ [(s.voice v).adsrLo] } ∧
    exec (.rdAdsrhi (vsel v)) s = .next { s with reads := s.reads ++ [(s.voice v).adsrHi] } ∧
    exec (.rdEnvx (vsel v)) s = .next { s with reads := s.reads ++ [BitVec.ofNat 16 (s.voice v).level.toNat] } ∧
    exec (.rdRaddr (vsel v)) s = .next { s with reads := s.reads ++ [(s.voice v).raddr] }

/-- R265 to R268, R270, R276, R277, R280, R281, R284, R285 (values returned: log entry 4). -/
def Obligations.GlobalRegisterReads : Prop :=
  ∀ s : State,
    exec .rdMvoll s = .next { s with reads := s.reads ++ [s.mvolL] } ∧
    exec .rdMvolr s = .next { s with reads := s.reads ++ [s.mvolR] } ∧
    exec .rdEvoll s = .next { s with reads := s.reads ++ [s.evolL] } ∧
    exec .rdEvolr s = .next { s with reads := s.reads ++ [s.evolR] } ∧
    exec .rdKonlo s = .next { s with reads := s.reads ++ [s.konLo] } ∧
    exec .rdKonhi s = .next { s with reads := s.reads ++ [s.konHi] } ∧
    exec .rdKofflo s = .next { s with reads := s.reads ++ [s.koffLo] } ∧
    exec .rdKoffhi s = .next { s with reads := s.reads ++ [s.koffHi] } ∧
    exec .rdTaddr s = .next { s with reads := s.reads ++ [s.taddr] } ∧
    exec .rdExtvoll s = .next { s with reads := s.reads ++ [s.extvolL] } ∧
    exec .rdExtvolr s = .next { s with reads := s.reads ++ [s.extvolR] }

/-- R104, R261, R263: ENDX is read in two halves, the high one with zeros above bit 7, and not cleared
(values returned: log entry 4). -/
def Obligations.EndxReads : Prop :=
  ∀ s : State,
    (∃ x : Half, exec .rdEndxlo s = .next { s with reads := s.reads ++ [x] } ∧
      ∀ i < 16, x.getLsbD i = s.endx.getLsbD i) ∧
    (∃ x : Half, exec .rdEndxhi s = .next { s with reads := s.reads ++ [x] } ∧
      (∀ i < 8, x.getLsbD i = s.endx.getLsbD (16 + i)) ∧ ∀ i, 8 ≤ i → x.getLsbD i = false)

/-- R271: a read of TDATA is refused; FAULTS is all that changes (position: log entry 3). -/
def Obligations.TdataReadIsRefused : Prop :=
  ∀ s : State,
    exec .rdTdata s = .next { s with faults := s.faults ++ [.refusal .tdataRead 0x41A80000 s.pos] }

/-- R22 to R26: what is written to PITCH, SADDR, ADSR_LO, ADSR_HI, ENVX (its low 15 bits) and RADDR of a voice is what
the next transaction reads back (values returned: log entry 4). That RADDR does so also just after a key-on that
fetched a block with STA is the model's reading, log entry 17: the last sentence of R347 calls that write lost. -/
def Obligations.VoiceRegistersReadBackWhatWasWritten : Prop :=
  ∀ (s : State) (v : VoiceIx) (d : Half),
    (∃ t u, exec (.wrPitch (vsel v) d) s = .next t ∧ exec (.rdPitch (vsel v)) t = .next u ∧ u.reads = s.reads ++ [d]) ∧
    (∃ t u, exec (.wrSaddr (vsel v) d) s = .next t ∧ exec (.rdSaddr (vsel v)) t = .next u ∧ u.reads = s.reads ++ [d]) ∧
    (∃ t u, exec (.wrAdsrlo (vsel v) d) s = .next t ∧ exec (.rdAdsrlo (vsel v)) t = .next u ∧
      u.reads = s.reads ++ [d]) ∧
    (∃ t u, exec (.wrAdsrhi (vsel v) d) s = .next t ∧ exec (.rdAdsrhi (vsel v)) t = .next u ∧
      u.reads = s.reads ++ [d]) ∧
    (∃ t u, exec (.wrRaddr (vsel v) d) s = .next t ∧ exec (.rdRaddr (vsel v)) t = .next u ∧ u.reads = s.reads ++ [d]) ∧
    (∃ t u, exec (.wrEnvx (vsel v) d) s = .next t ∧ exec (.rdEnvx (vsel v)) t = .next u ∧
      u.reads = s.reads ++ [d &&& 0x7FFF])

/-! Key-on and key-off. -/

/-- R257: the named voices enter Release with the wait counter cleared, their level kept; nothing else changes. -/
def Obligations.KeyOffLowVoices : Prop :=
  ∀ (s : State) (d : Half),
    ∃ t, exec (.wrKofflo d) s = .next t ∧ t.koffLo = d ∧
      (∀ v, t.voice v =
        if v.val < 16 ∧ d.getLsbD v.val = true then { s.voice v with phase := .release, envcnt := 0 }
        else s.voice v) ∧
      t.konLo = s.konLo ∧ t.konHi = s.konHi ∧ t.koffHi = s.koffHi ∧ t.endx = s.endx ∧ t.faults = s.faults ∧
      SameMix s t ∧ SamePort s t ∧ SameRam s t ∧ t.out = s.out ∧ SameHost s t

/-- R258: voices 16 to 23 by bits 0 to 7; bits 15:8 are stored and key nothing. -/
def Obligations.KeyOffHighVoices : Prop :=
  ∀ (s : State) (d : Half),
    ∃ t, exec (.wrKoffhi d) s = .next t ∧ t.koffHi = d ∧
      (∀ v, t.voice v =
        if 16 ≤ v.val ∧ d.getLsbD (v.val - 16) = true then { s.voice v with phase := .release, envcnt := 0 }
        else s.voice v) ∧
      t.konLo = s.konLo ∧ t.konHi = s.konHi ∧ t.koffLo = s.koffLo ∧ t.endx = s.endx ∧ t.faults = s.faults ∧
      SameMix s t ∧ SamePort s t ∧ SameRam s t ∧ t.out = s.out ∧ SameHost s t

/-- R255 with R212, R62 and R313: when every named voice has an even SADDR all are keyed on; when one has an odd SADDR the
first such one stops the key-on with a fault (position: log entry 3). -/
def Obligations.KeyOnLowVoices : Prop :=
  ∀ (s : State) (d : Half),
    ((∀ v, inMaskLo d v = true → (s.voice v).saddr.toNat % 2 = 0) →
      ∃ t, exec (.wrKonlo d) s = .next t ∧ t.konLo = d ∧ KeyedOn (inMaskLo d) s t ∧
        t.konHi = s.konHi ∧ t.koffLo = s.koffLo ∧ t.koffHi = s.koffHi ∧
        SameMix s t ∧ SamePort s t ∧ SameRam s t ∧ t.out = s.out ∧ SameHost s t) ∧
    (∀ v, inMaskLo d v = true → (s.voice v).saddr.toNat % 2 = 1 →
      (∀ w, w < v → inMaskLo d w = true → (s.voice w).saddr.toNat % 2 = 0) →
      ∃ t, exec (.wrKonlo d) s = .next t ∧ t.konLo = d ∧
        KeyOnStopped (inMaskLo d) v (encode (.wrKonlo d)) s t ∧
        t.konHi = s.konHi ∧ t.koffLo = s.koffLo ∧ t.koffHi = s.koffHi ∧
        SameMix s t ∧ SamePort s t ∧ SameRam s t ∧ t.out = s.out ∧ SameHost s t)

/-- R256: the same of voices 16 to 23 (position: log entry 3). -/
def Obligations.KeyOnHighVoices : Prop :=
  ∀ (s : State) (d : Half),
    ((∀ v, inMaskHi d v = true → (s.voice v).saddr.toNat % 2 = 0) →
      ∃ t, exec (.wrKonhi d) s = .next t ∧ t.konHi = d ∧ KeyedOn (inMaskHi d) s t ∧
        t.konLo = s.konLo ∧ t.koffLo = s.koffLo ∧ t.koffHi = s.koffHi ∧
        SameMix s t ∧ SamePort s t ∧ SameRam s t ∧ t.out = s.out ∧ SameHost s t) ∧
    (∀ v, inMaskHi d v = true → (s.voice v).saddr.toNat % 2 = 1 →
      (∀ w, w < v → inMaskHi d w = true → (s.voice w).saddr.toNat % 2 = 0) →
      ∃ t, exec (.wrKonhi d) s = .next t ∧ t.konHi = d ∧
        KeyOnStopped (inMaskHi d) v (encode (.wrKonhi d)) s t ∧
        t.konLo = s.konLo ∧ t.koffLo = s.koffLo ∧ t.koffHi = s.koffHi ∧
        SameMix s t ∧ SamePort s t ∧ SameRam s t ∧ t.out = s.out ∧ SameHost s t)

/-- R103: the masks name voices 0 to 15 and 16 to 23, and bits 15:8 of a high mask name none. -/
def Obligations.MasksNameTheirVoices : Prop :=
  ∀ (d : Half) (v : VoiceIx),
    (v ∈ maskLo d ↔ v.val < 16 ∧ d.getLsbD v.val = true) ∧
    (v ∈ maskHi d ↔ 16 ≤ v.val ∧ d.getLsbD (v.val - 16) = true) ∧
    (maskLo d).Pairwise (· < ·) ∧ (maskHi d).Pairwise (· < ·) ∧ maskHi (d &&& 0xFF00) = []

/-! The ADPCM decoder. -/

/-- R110 to R113, R130 to R136, all from the bits of the block: of data byte i / 2 the low nibble for an even i and the
high one for an odd i, sign-extended and scaled by the shift; plus the prediction from the two samples before it (before
the first ones, from the history given) with the coefficient pair of the filter; saturated. The new history is the last
two samples, and the flags are bits 2:0 of byte 1. -/
def Obligations.DecodedSamplesFollowTheRecurrence : Prop :=
  ∀ (b : Block) (old older : Sample),
    let out := (decodeBlock b old older).out
    let shift := if b[0].toNat % 16 > 12 then 9 else b[0].toNat % 16
    let filter := min (b[0].toNat / 16 % 8) 4
    let pos : Int := [0, 60, 115, 98, 122].getD filter 0
    let neg : Int := [0, 0, -52, -55, -60].getD filter 0
    (∀ i : Fin 28,
      let byte := b[2 + i.val / 2].toNat
      let u : Nat := if i.val % 2 = 0 then byte % 16 else byte / 16
      let n : Int := if u < 8 then u else (u : Int) - 16
      let h1 : Int := if i.val = 0 then old.toInt else (out[i.val - 1]).toInt
      let h2 : Int :=
        if i.val = 0 then older.toInt else if i.val = 1 then old.toInt else (out[i.val - 2]).toInt
      (out[i]).toInt = sat16 (n * 4096 / 2 ^ shift + (h1 * pos + h2 * neg + 32) / 64)) ∧
    (decodeBlock b old older).old = out[27] ∧ (decodeBlock b old older).older = out[26] ∧
    ∀ k, (decodeBlock b old older).flags.getLsbD k = (decide (k < 3) && b[1].getLsbD k)

/-- R131, R132: a shift above 12 decodes as 9, a filter above 4 as 4, and header bit 7 is ignored. -/
def Obligations.ReservedHeadersActAsGiven : Prop :=
  ∀ (b : Block) (old older : Sample),
    ((b[0] &&& 0x0F).toNat > 12 → decodeBlock (b.set 0 (b[0] &&& 0xF0 ||| 0x09)) old older = decodeBlock b old older) ∧
    ((b[0] &&& 0x70).toNat > 0x40 →
      decodeBlock (b.set 0 (b[0] &&& 0x8F ||| 0x40)) old older = decodeBlock b old older) ∧
    decodeBlock (b.set 0 (b[0] &&& 0x7F)) old older = decodeBlock b old older

/-- R139 and R154: with filter 0 and zero data bytes a block decodes to silence whatever the history. -/
def Obligations.ZeroBlocksDecodeToSilence : Prop :=
  ∀ (b : Block) (old older : Sample), (b[0] &&& 0x70) = 0 → (∀ i : Fin 16, 2 ≤ i.val → b[i] = 0) →
    (∀ i : Fin 28, (decodeBlock b old older).out[i] = 0) ∧
      (decodeBlock b old older).old = 0 ∧ (decodeBlock b old older).older = 0

/-! Block fetch. -/

/-- R40, R60, R62, R63: byte i of the block at an aligned address is the byte of RAM at that address plus i: the one the
host wrote there, or the draw RAM_INIT where it wrote none; and after a TDATA write the two bytes at T.ptr are the two
written. -/
def Obligations.FetchedBlocksHoldTheRamBytes : Prop :=
  (∀ (s : State) (a : Nat), a % 16 = 0 → a < 524288 → ∀ i : Fin 16,
    (∀ x, s.ram.read (a + i.val) = some x → (s.blockAt a)[i] = x) ∧
      (s.ram.read (a + i.val) = none → (s.blockAt a)[i] = Config.ramInit (a + i.val))) ∧
  ∀ (s t : State) (d : Half) (a : Nat), exec (.wrTdata d) s = .next t → a % 16 = 0 → a < 524288 → ∀ i : Fin 16,
    (a + i.val = s.tptr.toNat → (t.blockAt a)[i] = d.extractLsb' 0 8) ∧
      (a + i.val = (s.tptr.toNat + 1) % 524288 → (t.blockAt a)[i] = d.extractLsb' 8 8) ∧
      (a + i.val ≠ s.tptr.toNat → a + i.val ≠ (s.tptr.toNat + 1) % 524288 → (t.blockAt a)[i] = (s.blockAt a)[i])

/-! The envelope. -/

/-- R171: exec changes the phase of a voice in these ways and no others (RESET, R275, makes every voice Off). -/
def Obligations.PhasesChangeOnlyAsTheTableSays : Prop :=
  ∀ (i : Instr) (s t : State) (v : VoiceIx), exec i s = .next t → (t.voice v).phase ≠ (s.voice v).phase →
    ((t.voice v).phase = .attack ∧
      ∃ d, (i = .wrKonlo d ∧ inMaskLo d v = true) ∨ (i = .wrKonhi d ∧ inMaskHi d v = true)) ∨
    ((t.voice v).phase = .release ∧
      ∃ d, (i = .wrKofflo d ∧ inMaskLo d v = true) ∨ (i = .wrKoffhi d ∧ inMaskHi d v = true)) ∨
    (i = .tick ∧ (s.voice v).phase = .attack ∧ (t.voice v).phase = .decay ∧ (t.voice v).level.toNat = 0x7FFF) ∨
    (i = .tick ∧ (s.voice v).phase = .decay ∧ (t.voice v).phase = .sustain ∧
      (t.voice v).level.toNat ≤ min ((((s.voice v).adsrLo &&& 0xF).toNat + 1) * 0x800) 0x7FFF) ∨
    (i = .tick ∧ (s.voice v).phase = .release ∧ (t.voice v).phase = .off ∧ (t.voice v).level.toNat = 0) ∨
    (i = .tick ∧ (s.voice v).phase ≠ .off ∧ (t.voice v).phase = .release ∧ (t.voice v).level.toNat = 0 ∧
      passesLoopEnd (s.voice v) = true ∧ (s.voice v).flags.getLsbD 1 = false) ∨
    (i = .reset ∧ (t.voice v).phase = .off)

/-- R180 (e): no tick raises the level of a voice in Decay or Release. -/
def Obligations.NoTickRaisesADecayingLevel : Prop :=
  ∀ (s t : State) (v : VoiceIx), exec .tick s = .next t →
    (s.voice v).phase = .decay ∨ (s.voice v).phase = .release →
      (t.voice v).level.toNat ≤ (s.voice v).level.toNat

/-- R180 (b): from any level, Attack ends within 2^35 envelope ticks, at the maximum level. -/
def Obligations.AttackReachesTheMaximum : Prop :=
  ∀ x : Voice, x.phase = .attack →
    ∃ n ≤ 2 ^ 35, (Voice.envTick^[n] x).phase = .decay ∧ (Voice.envTick^[n] x).level.toNat = 0x7FFF

/-- R180 (c): from any level, Release ends within 0x7FFF * 2^20 envelope ticks, at level 0, Off. -/
def Obligations.ReleaseReachesOff : Prop :=
  ∀ x : Voice, x.phase = .release →
    ∃ n ≤ 0x7FFF * 2 ^ 20, (Voice.envTick^[n] x).phase = .off ∧ (Voice.envTick^[n] x).level.toNat = 0

/-- R180 (d): Decay ends in Sustain. -/
def Obligations.DecayReachesSustain : Prop :=
  ∀ x : Voice, x.phase = .decay →
    ∃ n, (Voice.envTick^[n] x).phase = .sustain ∧ ∀ k < n, (Voice.envTick^[k] x).phase = .decay

/-! TICK. -/

/-- R220 to R226 with R211 to R214: when no active voice goes to a misaligned block, the tick emits the frame of the
sums and moves every active voice, sets ENDX of the voices that pass a loop end, and changes nothing else. A voice's
envelope step is written out in Safety.lean from the bits of ADSR_LO and ADSR_HI (R172 to R178), the bytes it fetches
from RAM or the draw (R62, R40). -/
def Obligations.TickEmitsOneFrameAndMovesEveryVoice : Prop :=
  ∀ s : State, (∀ v, tickMisaligned (s.voice v) = false) →
    ∃ t, exec .tick s = .next t ∧ t.out = s.out ++ [tickFrame s] ∧ (∀ v, t.voice v = tickedVoice s v) ∧
      (∀ v : VoiceIx, t.endx.getLsbD v.val = (s.endx.getLsbD v.val || passesLoopEnd (s.voice v))) ∧
      t.faults = s.faults ∧ SameKeys s t ∧ SameMix s t ∧ SamePort s t ∧ SameRam s t ∧ SameHost s t

/-- R220, R311, R313, R314: the first active voice, by number, that goes to a misaligned block stops the tick: the
voices before it have moved, it has moved but fetched nothing, those after it are not touched, no frame is emitted and
the fault is recorded (position: log entry 3). -/
def Obligations.TickStopsAtTheFirstMisalignedFetch : Prop :=
  ∀ (s : State) (v : VoiceIx), tickMisaligned (s.voice v) = true →
    (∀ w, w < v → tickMisaligned (s.voice w) = false) →
    ∃ t, exec .tick s = .next t ∧ t.out = s.out ∧ (∀ w, w < v → t.voice w = tickedVoice s w) ∧
      t.voice v = movedVoice (s.voice v) ∧ (∀ w, v < w → t.voice w = s.voice w) ∧
      (∀ w : VoiceIx, t.endx.getLsbD w.val =
        (s.endx.getLsbD w.val || (passesLoopEnd (s.voice w) && decide (w ≤ v)))) ∧
      t.faults =
        s.faults ++ [.misalignedBlock v (BitVec.ofNat 19 (blockEndTarget (s.voice v))) 0x80000000 s.pos] ∧
      SameKeys s t ∧ SameMix s t ∧ SamePort s t ∧ SameRam s t ∧ SameHost s t

/-- R221: an Off voice does not move in a tick, fault or no fault. -/
def Obligations.TickLeavesOffVoicesAlone : Prop :=
  ∀ (s t : State) (v : VoiceIx), exec .tick s = .next t → (s.voice v).phase = .off →
    t.voice v = s.voice v ∧ t.endx.getLsbD v.val = s.endx.getLsbD v.val ∧ mixTerms (s.voice v) = (0, 0)

/-- R223, R224: a voice whose counter stands inside its block plays sample ctr[16:12] of it, at the level of the start
of the tick. -/
def Obligations.SampleUnderTheEnvelope : Prop :=
  ∀ (x : Voice) (h : x.ctr.toNat < 28 * 4096),
    x.enveloped = (x.buf[x.ctr.toNat / 4096]'(by omega)).toInt * x.level.toNat / 2 ^ 15

/-- R224, R225: the bounds of the enveloped sample and of the terms; the sum of 24 of them fits in 32 bits. -/
def Obligations.MixerTermsStayInRange : Prop :=
  (∀ x : Voice, -32767 ≤ x.enveloped ∧ x.enveloped ≤ 32766 ∧ -32767 ≤ x.termL ∧ x.termL ≤ 32767 ∧
    -32767 ≤ x.termR ∧ x.termR ≤ 32767) ∧
  ∀ s : State,
    -2 ^ 31 ≤ (allVoices.map fun v => (mixTerms (s.voice v)).1).sum ∧
      (allVoices.map fun v => (mixTerms (s.voice v)).1).sum < 2 ^ 31 ∧
      -2 ^ 31 ≤ (allVoices.map fun v => (mixTerms (s.voice v)).2).sum ∧
      (allVoices.map fun v => (mixTerms (s.voice v)).2).sum < 2 ^ 31

/-- R101: the effective volume is twice the 15-bit two's-complement number in bits 14:0. -/
def Obligations.EffectiveVolume : Prop :=
  ∀ d : Half,
    volEff d = 2 * (if d.toNat % 2 ^ 15 < 2 ^ 14 then (d.toNat % 2 ^ 15 : Int) else (d.toNat % 2 ^ 15 : Int) - 2 ^ 15)

/-- R222: the pitch counter moves by min(PITCH, 0x3FFF) and, at a block end, back by 28 samples, so that it stands
inside the block again; an active voice that passes no block end changes nothing else but its envelope. -/
def Obligations.PitchCounterAdvances : Prop :=
  ∀ (s t : State) (v : VoiceIx), exec .tick s = .next t → t.faults = s.faults → (s.voice v).phase ≠ .off →
    (s.voice v).ctr.toNat < 28 * 4096 →
    (t.voice v).ctr.toNat =
        ((s.voice v).ctr.toNat + min (s.voice v).pitch.toNat 0x3FFF) % (28 * 4096) ∧
      ((s.voice v).ctr.toNat + min (s.voice v).pitch.toNat 0x3FFF < 28 * 4096 →
        (t.voice v).cur = (s.voice v).cur ∧ (t.voice v).buf = (s.voice v).buf ∧
          (t.voice v).flags = (s.voice v).flags ∧ (t.voice v).raddr = (s.voice v).raddr ∧
          (t.voice v).old = (s.voice v).old ∧ (t.voice v).older = (s.voice v).older)

/-- R158, its last part: a voice that plays the terminator contributes nothing to the frame and plays the terminator
after the tick too, whatever the other voices do. -/
def Obligations.TerminatorIsSilentForEver : Prop :=
  ∀ (s t : State) (v : VoiceIx) (n : Nat), InTerminator s v n → exec .tick s = .next t →
    mixTerms (s.voice v) = (0, 0) ∧ InTerminator t v n

/-! RESET. -/

/-- R45: the table of reset values, at power-on and after RESET; RESET keeps RAM, OUT and FAULTS. -/
def Obligations.ResetLeavesTheTable : Prop :=
  ((∀ v, AtReset (State.reset.voice v)) ∧ State.reset.endx = 0 ∧
      (State.reset.konLo = 0 ∧ State.reset.konHi = 0 ∧ State.reset.koffLo = 0 ∧ State.reset.koffHi = 0) ∧
      (State.reset.mvolL = 0 ∧ State.reset.mvolR = 0 ∧ State.reset.evolL = 0 ∧ State.reset.evolR = 0 ∧
        State.reset.extvolL = 0 ∧ State.reset.extvolR = 0) ∧
      State.reset.taddr = 0 ∧ State.reset.tptr = 0 ∧ (∀ a, State.reset.ramByte a = Config.ramInit a) ∧
      State.reset.out = [] ∧ State.reset.faults = []) ∧
  ∀ s : State, ∃ t, exec .reset s = .next t ∧
    (∀ v, AtReset (t.voice v)) ∧ t.endx = 0 ∧
      (t.konLo = 0 ∧ t.konHi = 0 ∧ t.koffLo = 0 ∧ t.koffHi = 0) ∧
      (t.mvolL = 0 ∧ t.mvolR = 0 ∧ t.evolL = 0 ∧ t.evolR = 0 ∧ t.extvolL = 0 ∧ t.extvolR = 0) ∧
      t.taddr = 0 ∧ t.tptr = 0 ∧ SameRam s t ∧ t.out = s.out ∧ t.faults = s.faults

/-- RESET keeps the host's side, which is no item of the block: the model's choice, log entry 9. -/
def Obligations.ResetKeepsTheHostSide : Prop :=
  ∀ s : State, ∃ t, exec .reset s = .next t ∧ SameHost s t

/-! Whole-machine rules. -/

/-- R63: TDATA is the only transaction that changes RAM. -/
def Obligations.OnlyTdataChangesRam : Prop :=
  ∀ (i : Instr) (s t : State), (∀ d, i ≠ .wrTdata d) → exec i s = .next t → SameRam s t

/-- R41: OUT is empty at power-on and is written by TICK alone (not by RESET), which appends at most one frame, and
none when it faults. -/
def Obligations.OnlyTickEmits : Prop :=
  State.reset.out = [] ∧
    ∀ (i : Instr) (s t : State), exec i s = .next t →
      t.out = s.out ∨ (i = .tick ∧ t.faults = s.faults ∧ ∃ f, t.out = s.out ++ [f])

/-- R42: FAULTS is empty at power-on, and no transaction, RESET included, removes an entry, from whatever state it is
performed; no step does either. -/
def Obligations.FaultsOnlyGrow : Prop :=
  State.reset.faults = [] ∧
    (∀ (i : Instr) (s t : State), exec i s = .next t → s.faults <+: t.faults) ∧
    ∀ s t : State, step s = .next t → s.faults <+: t.faults

/-- R313, R314: a transaction adds at most one entry, and one that adds an entry emits no frame. -/
def Obligations.AtMostOneEntryATransaction : Prop :=
  ∀ (i : Instr) (s t : State), exec i s = .next t →
    t.faults = s.faults ∨ ∃ e, t.faults = s.faults ++ [e] ∧ t.out = s.out

/-- R244, R250, R255: volumes, pitch, start address and envelope settings of a voice change only by their own writes
and by RESET. -/
def Obligations.SettingsChangeOnlyByTheirWrites : Prop :=
  ∀ (i : Instr) (s t : State) (v : VoiceIx), exec i s = .next t → i ≠ .reset →
    (∀ d, i ≠ .wrVoll (vsel v) d ∧ i ≠ .wrVolr (vsel v) d ∧ i ≠ .wrPitch (vsel v) d ∧ i ≠ .wrSaddr (vsel v) d ∧
      i ≠ .wrAdsrlo (vsel v) d ∧ i ≠ .wrAdsrhi (vsel v) d) →
    SameSettings (s.voice v) (t.voice v)

/-- R34, R214, R255: an ENDX bit is set only by a tick in which its voice passes a loop end, and cleared only by a
key-on of its voice or by RESET. -/
def Obligations.EndxBitsChangeOnlyAsGiven : Prop :=
  ∀ (i : Instr) (s t : State) (v : VoiceIx), exec i s = .next t →
    (s.endx.getLsbD v.val = false → t.endx.getLsbD v.val = true →
      i = .tick ∧ passesLoopEnd (s.voice v) = true) ∧
    (s.endx.getLsbD v.val = true → t.endx.getLsbD v.val = false →
      i = .reset ∨ ∃ d, (i = .wrKonlo d ∧ inMaskLo d v = true) ∨ (i = .wrKonhi d ∧ inMaskHi d v = true))

/-- The invariant of Safety.lean holds at power-on. -/
def Obligations.PowerOnMeetsTheInvariant : Prop := State.reset.Inv

/-- Every step keeps it. -/
def Obligations.EveryStepKeepsTheInvariant : Prop :=
  ∀ s t : State, s.Inv → step s = .next t → t.Inv

/-! Host procedures. -/

/-- R150, R151: `writeSample` issues TADDR 0 and then, for the `nb` blocks it places, the halfwords of the data in
ascending order, low byte first, with zero bytes past the end of the sample; the host's block count becomes `nb`, and
the blocks `[0, nb)` are returned. -/
def Obligations.WriteSampleWords : Prop :=
  ∀ (h : HostState) (bytes : List Byte),
    let nb := min ((bytes.length + 15) / 16) 32768
    (writeSample h bytes).words =
        .wrTaddr 0 ::
          (List.range (8 * nb)).map (fun j => Instr.wrTdata (bytes.getD (2 * j + 1) 0 ++ bytes.getD (2 * j) 0)) ∧
      (writeSample h bytes).host.blockCount.val = nb ∧
      (writeSample h bytes).range.first = 0 ∧ (writeSample h bytes).range.past = nb

/-- R153 (the block), R155 with R120 (the words) of `placeTerminator`. That they are 17 and not the 18 of S2 in
95_test_vectors.md is the model's reading, log entry 15. -/
def Obligations.TerminatorWords : Prop :=
  ∀ n : BlockCount,
    terminatorBlockIndexFor n = min n.val 32766 ∧
    (placeTerminator n).map encode =
      (0x01A60000 + BitVec.ofNat 32 (2 * min n.val 32766)) :: 0x01A80400 ::
        (List.replicate 7 0x01A80000 ++ 0x01A80300 :: List.replicate 7 0x01A80000)

/-- R157: a redirected address is a block of the sample or the terminator, and always block-aligned. -/
def Obligations.RedirectedAddressesAreBlockAligned : Prop :=
  ∀ (count : BlockCount) (addr : Nat),
    (redirect count addr).toNat % 2 = 0 ∧
    (addr % 16 = 0 → addr < 16 * count.val → (redirect count addr).toNat * 8 = addr) ∧
    (addr % 16 ≠ 0 ∨ addr ≥ 16 * count.val → (redirect count addr).toNat = 2 * min count.val 32766)

/-- R298: in every stream the host can issue from power-on the MasterMix registers are written by the six writes of the
initialization, contiguous and in order, or not at all, and no transaction before them keys a voice on. That this holds
of streams with a RESET in them too, after which the host does not restore these registers, is the model's reading, log
entry 20. -/
def Obligations.MasterMixIsWrittenOnceBeforeAnyKeyOn : Prop :=
  ∀ (laws : HostLaws) (grain : Grain) (raw : RawParams) (bend : Rat) (control : List HostGroup)
    (audio : List AudioBlock) (stream : List Instr),
    HostStream laws grain raw bend control audio stream →
      (∀ i ∈ stream, writesMasterMix i = false ∧ keysOn i = false) ∨
        ∃ before rest, stream = before ++ initMasterMix laws.masterVol ++ rest ∧
          (∀ i ∈ before, writesMasterMix i = false ∧ keysOn i = false) ∧ ∀ i ∈ rest, writesMasterMix i = false

/-- Of R299: in every stream the host can issue from power-on no voice is keyed on before a `writeSample` and its
`placeTerminator`; and every transaction is one that a word spells, no read of TDATA, no sweep form, and no odd block
address, so that the block refuses none. That a key-on needs a sample whichever voice it names, and that an
upload is never split, is the model's reading, log entries 19 and 26. -/
def Obligations.HostStreamsKeyOnlySamplesAndAreNotRefused : Prop :=
  ∀ (laws : HostLaws) (grain : Grain) (raw : RawParams) (bend : Rat) (control : List HostGroup)
    (audio : List AudioBlock) (stream : List Instr),
    HostStream laws grain raw bend control audio stream →
      ((∀ i ∈ stream, keysOn i = false) ∨
        ∃ before bytes between rest,
          stream = before ++ sampleWords bytes ++ between ++ placeTerminator (sampleBlocks bytes.length) ++ rest ∧
            (∀ i ∈ before, keysOn i = false) ∧ ∀ i ∈ between, keysOn i = false) ∧
      ∀ i ∈ stream, i.wellFormed = true ∧ i ≠ .rdTdata ∧
        (∀ v d, i = .wrVoll v d ∨ i = .wrVolr v d → d.getLsbD 15 = false) ∧
        (∀ d, i = .wrMvoll d ∨ i = .wrMvolr d → d.getLsbD 15 = false) ∧
        ∀ v d, i = .wrSaddr v d ∨ i = .wrRaddr v d → d.toNat % 2 = 0

/-- Of R299 and R157: a host starts only with its parameters and its bend value in their ranges, and every piece of its
stream keeps them so (the ranges the spec does not state are open, log entries 18 and 23); and every SADDR and RADDR that a piece
writes is a block of the sample last placed then or the start of its terminator (log entry 29). `s` is the block that
the piece is issued to. -/
def Obligations.HostPiecesKeepRangesAndAddresses : Prop :=
  (∀ (ranges : OpenRanges) (raw : RawParams) (bend : Rat) (h : HostState),
    HostState.boot ranges raw bend = some h → h.inRange ranges = true) ∧
  ∀ (laws : HostLaws) (s : State) (h : HostState) (p : Piece), h.inRange laws.ranges = true → p.permitted laws s h = true →
    (p.issue laws s h).2.inRange laws.ranges = true ∧
      ∀ v d, (Instr.wrSaddr v d ∈ (p.issue laws s h).1 ∨ Instr.wrRaddr v d ∈ (p.issue laws s h).1) →
        d.toNat % 2 = 0 ∧ (d.toNat / 2 < h.blockCount.val ∨ d.toNat = 2 * min h.blockCount.val 32766)
end

