-- ==== Sys2Proof/Laws/Operands.lean ====
section
/-! SUPPORT. Operand forms and primitives in plain arithmetic: a bit or a field of a value by division, a clamp by
maximum and minimum. -/

namespace Sys2Proof.Machine

/-- A bit of a bit vector, from its value. -/
theorem getLsbD_eq_div_mod {w : Nat} (d : BitVec w) (i : Nat) : d.getLsbD i = decide (d.toNat / 2 ^ i % 2 = 1) := by
  rw [BitVec.getLsbD, Nat.testBit_eq_decide_div_mod_eq]

/-- A field of a bit vector, from its value. -/
theorem extractLsb'_toNat_eq_div_mod {w : Nat} (d : BitVec w) (i n : Nat) :
    (d.extractLsb' i n).toNat = d.toNat / 2 ^ i % 2 ^ n := by
  rw [BitVec.extractLsb'_toNat, Nat.shiftRight_eq_div_pow]

theorem clamp_eq_max_min {a lo hi : Int} (h : lo ≤ hi) : clamp a lo hi = max lo (min hi a) := by
  unfold clamp
  split
  · omega
  split <;> omega

theorem clamp16_eq_sat16 (a : Int) : clamp16 a = sat16 a := clamp_eq_max_min (by decide)

end Sys2Proof.Machine
end

