-- ==== Sys2Proof/Laws/Adpcm.lean ====
section
/-! SUPPORT. The decoder sample by sample, and the fields of a block in plain arithmetic. -/

namespace Sys2Proof.Machine

/-! The fields of a block (spec/30_encoding.md R111 to R113). -/

theorem shiftOf_eq (b : Block) : shiftOf b = if b[0].toNat % 16 > 12 then 9 else b[0].toNat % 16 := by
  have h : headerShift b = b[0].toNat % 16 := by
    rw [headerShift, extractLsb'_toNat_eq_div_mod, pow_zero, Nat.div_one]; rfl
  rw [shiftOf, h]

theorem filterOf_eq (b : Block) : (filterOf b).val = min (b[0].toNat / 16 % 8) 4 := by
  have h : headerFilter b = b[0].toNat / 16 % 8 := by rw [headerFilter, extractLsb'_toNat_eq_div_mod]; rfl
  rw [filterOf]
  split
  · show headerFilter b = _; omega
  · show 4 = _; omega

/-- The coefficient pairs as two rows of the table of R133. -/
theorem pos_eq (f : Fin 5) : Config.pos f = [0, 60, 115, 98, 122].getD f.val 0 := by revert f; decide

theorem neg_eq (f : Fin 5) : Config.neg f = [0, 0, -52, -55, -60].getD f.val 0 := by revert f; decide

/-- A nibble as a signed number, from its value. -/
theorem nibble_toInt (n : Nibble) : n.toInt = if n.toNat < 8 then (n.toNat : Int) else (n.toNat : Int) - 16 := by
  revert n; decide

/-- The value of residual `i`: of byte `2 + i / 2` the low half where `i` is even and the high one where it is odd. -/
theorem residualOf_toNat (b : Block) (i : Fin 28) :
    (residualOf b i).toNat =
      if i.val % 2 = 0 then b[2 + i.val / 2].toNat % 16 else b[2 + i.val / 2].toNat / 16 := by
  have hb := (b[2 + i.val / 2]).isLt
  simp only [residualOf]
  split <;> rw [extractLsb'_toNat_eq_div_mod] <;> omega

/-! The run over the residuals. -/

theorem residuals_length (b : Block) : (residuals b).length = 28 := List.length_ofFn

theorem residuals_getElem (b : Block) (i : Nat) (h : i < 28) :
    (residuals b)[i]'(by rw [residuals_length]; exact h) = residualOf b ⟨i, h⟩ := by
  unfold residuals
  exact List.getElem_ofFn _

/-- Sample `i` of a run: its residual, and as history the two samples before it or what was given. -/
theorem decodeRun_getElem (sh : Nat) (f : Fin 5) (ns : List Nibble) (old older : Sample) (i : Nat)
    (hi : i < ns.length) :
    (decodeRun sh f ns old older)[i]'(by rw [decodeRun_length]; exact hi) =
      decodeSample ns[i] sh f
        (if _ : i = 0 then old else (decodeRun sh f ns old older)[i - 1]'(by rw [decodeRun_length]; omega))
        (if _ : i = 0 then older
          else if _ : i = 1 then old
          else (decodeRun sh f ns old older)[i - 2]'(by rw [decodeRun_length]; omega)) := by
  induction ns generalizing old older i with
  | nil => simp at hi
  | cons n ns ih =>
    match i with
    | 0 => simp [decodeRun]
    | 1 => simpa [decodeRun] using ih (decodeSample n sh f old older) old 0 (by simpa using hi)
    | k + 2 =>
      have h := ih (decodeSample n sh f old older) old (k + 1) (by simp only [List.length_cons] at hi; omega)
      simp only [decodeRun, List.getElem_cons_succ] at h ⊢
      rw [h]
      rcases k with _ | k <;> simp

/-- A clamped value survives the narrowing to i16. -/
theorem toInt_toSample_clamp16 (a : Int) : (toSample (clamp16 a)).toInt = clamp16 a := by
  have h : -32768 ≤ clamp16 a ∧ clamp16 a ≤ 32767 := by
    simp only [clamp16, clamp]; split
    · omega
    split <;> omega
  rw [toSample, BitVec.toInt_ofInt]
  simp only [Int.bmod_def]
  omega

/-- A decoded sample as an integer (R134). -/
theorem decodeSample_toInt (n : Nibble) (sh : Nat) (f : Fin 5) (old older : Sample) :
    (decodeSample n sh f old older).toInt =
      clamp16 (residualTerm n sh + prediction f old.toInt older.toInt) :=
  toInt_toSample_clamp16 _

/-- Sample `j` of a block is sample `j` of the run over its residuals. -/
theorem decodeBlock_out (b : Block) (old older : Sample) (j : Nat) (h : j < 28) :
    (decodeBlock b old older).out[j] =
      (decodeRun (shiftOf b) (filterOf b) (residuals b) old older)[j]'(by
        rw [decodeRun_length, residuals_length]; exact h) := rfl

end Sys2Proof.Machine
end

