-- ==== Sys2Proof/Laws/Decode.lean ====
section
/-! SUPPORT. The fields of an encoded word, the register map in both directions, and the decoder on the word of a
register access. -/

namespace Sys2Proof

/-- The bits of a REG-format word (30_encoding.md R90). -/
theorem packReg_getLsbD (op : BitVec 2) (offs : BitVec 9) (d : Half) (i : Nat) :
    (packReg op offs d).getLsbD i =
      if i < 16 then d.getLsbD i
      else if i < 25 then offs.getLsbD (i - 16)
      else if i < 30 then false
      else op.getLsbD (i - 30) := by
  have : (packReg op offs d).getLsbD i = (op ++ 0#5 ++ offs ++ d).getLsbD i := rfl
  rw [this]
  simp only [BitVec.getLsbD_append, BitVec.getLsbD_zero]
  repeat' split
  all_goals first | rfl | omega

@[simp] theorem rsvOf_packReg (op : BitVec 2) (offs : BitVec 9) (d : Half) : rsvOf (packReg op offs d) = 0 := by
  apply BitVec.eq_of_getLsbD_eq
  intro i hi
  simp only [rsvOf, BitVec.getLsbD_extractLsb', packReg_getLsbD]
  rw [if_neg (by omega), if_neg (by omega), if_pos (by omega)]
  simp

@[simp] theorem opOf_packReg (op : BitVec 2) (offs : BitVec 9) (d : Half) : opOf (packReg op offs d) = op := by
  apply BitVec.eq_of_getLsbD_eq
  intro i hi
  simp only [opOf, BitVec.getLsbD_extractLsb', packReg_getLsbD]
  rw [if_neg (by omega), if_neg (by omega), if_neg (by omega)]
  simp [hi]

@[simp] theorem offsOf_packReg (op : BitVec 2) (offs : BitVec 9) (d : Half) : offsOf (packReg op offs d) = offs := by
  apply BitVec.eq_of_getLsbD_eq
  intro i hi
  simp only [offsOf, BitVec.getLsbD_extractLsb', packReg_getLsbD]
  rw [if_neg (by omega), if_pos (by omega)]
  simp [hi]

@[simp] theorem dataOf_packReg (op : BitVec 2) (offs : BitVec 9) (d : Half) : dataOf (packReg op offs d) = d := by
  apply BitVec.eq_of_getLsbD_eq
  intro i hi
  simp only [dataOf, BitVec.getLsbD_extractLsb', packReg_getLsbD]
  rw [if_pos (by omega)]
  simp [hi]

/-- A word whose RSV field is zero is its other three fields. -/
theorem packReg_fields (w : Word) (h : rsvOf w = 0) : packReg (opOf w) (offsOf w) (dataOf w) = w := by
  apply BitVec.eq_of_getLsbD_eq
  intro i hi
  have reserved : ∀ k, k < 5 → w.getLsbD (25 + k) = false := by
    intro k hk
    have := congrArg (fun x : BitVec 5 => x.getLsbD k) h
    simpa [rsvOf, BitVec.getLsbD_extractLsb', hk] using this
  rw [packReg_getLsbD]
  simp only [opOf, offsOf, dataOf, BitVec.getLsbD_extractLsb']
  split
  · simp [*]
  · split
    · have : 16 + (i - 16) = i := by omega
      simp [this]; omega
    · split
      · have := reserved (i - 25) (by omega)
        rw [show 25 + (i - 25) = i by omega] at this
        exact this.symm
      · have : 30 + (i - 30) = i := by omega
        simp [this]; omega

@[simp] theorem vselOf_voiceOffs (v : BitVec 5) (r : BitVec 3) : vselOf (voiceOffs v r) = v := by revert v r; decide

@[simp] theorem rselOf_voiceOffs (v : BitVec 5) (r : BitVec 3) : rselOf (voiceOffs v r) = r := by revert v r; decide

/-- Every register sits at an even offset (10_state.md R20). -/
theorem Reg.offs_even (r : Reg) : r.offs.getLsbD 0 = false := by
  have (v : BitVec 5) (r : BitVec 3) : (voiceOffs v r).getLsbD 0 = false := by revert v r; decide
  cases r <;> first | exact this _ _ | decide

/-- The register map finds every register at its offset (R95, R96). -/
theorem regAt_offs (r : Reg) (h : (regRead r).wellFormed = true) : regAt r.offs = some r := by
  cases r
  case voll | volr | pitch | saddr | adsrlo | adsrhi | envx | raddr =>
    simp only [regRead, Instr.wellFormed, Instr.voiceOk, decide_eq_true_eq] at h
    simp only [regAt, Reg.offs, vselOf_voiceOffs, rselOf_voiceOffs, if_pos h]
    rfl
  all_goals decide

/-- What the register map finds at an even offset sits there (R95, R96). -/
theorem offs_regAt (offs : BitVec 9) (r : Reg) (h : regAt offs = some r) (even : offs.getLsbD 0 = false) :
    r.offs = offs ∧ (regRead r).wellFormed = true := by
  have voice : ∀ v : BitVec 5, ∀ s : BitVec 3, v.toNat < Config.numVoices →
      (voiceReg v s).offs = voiceOffs v s ∧ (regRead (voiceReg v s)).wellFormed = true := by decide
  have shape : ∀ o : BitVec 9, o.getLsbD 0 = false → voiceOffs (vselOf o) (rselOf o) = o := by decide
  simp only [regAt] at h
  split at h
  · obtain rfl : voiceReg _ _ = r := by simpa using h
    obtain ⟨h1, h2⟩ := voice (vselOf offs) (rselOf offs) ‹_›
    exact ⟨h1.trans (shape offs even), h2⟩
  · have row : ∀ p ∈ globalTable, p.2.offs = p.1 ∧ (regRead p.2).wellFormed = true := by decide
    have mem : (offs, r) ∈ globalTable := by
      obtain ⟨l₁, l₂, heq, -⟩ := List.lookup_eq_some_iff.mp h
      rw [heq]; simp
    exact row _ mem

/-- Every transaction is TICK, RESET, a REGW or a REGR (30_encoding.md R91). -/
theorem Instr.shape (i : Instr) :
    i = .tick ∨ i = .reset ∨ (∃ r d, i = regWrite d r) ∨ ∃ r, i = regRead r := by
  cases i with
  | wrVoll v d => exact .inr (.inr (.inl ⟨.voll v, d, rfl⟩))
  | rdVoll v => exact .inr (.inr (.inr ⟨.voll v, rfl⟩))
  | wrVolr v d => exact .inr (.inr (.inl ⟨.volr v, d, rfl⟩))
  | rdVolr v => exact .inr (.inr (.inr ⟨.volr v, rfl⟩))
  | wrPitch v d => exact .inr (.inr (.inl ⟨.pitch v, d, rfl⟩))
  | rdPitch v => exact .inr (.inr (.inr ⟨.pitch v, rfl⟩))
  | wrSaddr v d => exact .inr (.inr (.inl ⟨.saddr v, d, rfl⟩))
  | rdSaddr v => exact .inr (.inr (.inr ⟨.saddr v, rfl⟩))
  | wrAdsrlo v d => exact .inr (.inr (.inl ⟨.adsrlo v, d, rfl⟩))
  | rdAdsrlo v => exact .inr (.inr (.inr ⟨.adsrlo v, rfl⟩))
  | wrAdsrhi v d => exact .inr (.inr (.inl ⟨.adsrhi v, d, rfl⟩))
  | rdAdsrhi v => exact .inr (.inr (.inr ⟨.adsrhi v, rfl⟩))
  | wrEnvx v d => exact .inr (.inr (.inl ⟨.envx v, d, rfl⟩))
  | rdEnvx v => exact .inr (.inr (.inr ⟨.envx v, rfl⟩))
  | wrRaddr v d => exact .inr (.inr (.inl ⟨.raddr v, d, rfl⟩))
  | rdRaddr v => exact .inr (.inr (.inr ⟨.raddr v, rfl⟩))
  | wrMvoll d => exact .inr (.inr (.inl ⟨.mvoll, d, rfl⟩))
  | rdMvoll => exact .inr (.inr (.inr ⟨.mvoll, rfl⟩))
  | wrMvolr d => exact .inr (.inr (.inl ⟨.mvolr, d, rfl⟩))
  | rdMvolr => exact .inr (.inr (.inr ⟨.mvolr, rfl⟩))
  | wrEvoll d => exact .inr (.inr (.inl ⟨.evoll, d, rfl⟩))
  | rdEvoll => exact .inr (.inr (.inr ⟨.evoll, rfl⟩))
  | wrEvolr d => exact .inr (.inr (.inl ⟨.evolr, d, rfl⟩))
  | rdEvolr => exact .inr (.inr (.inr ⟨.evolr, rfl⟩))
  | wrKonlo d => exact .inr (.inr (.inl ⟨.konlo, d, rfl⟩))
  | rdKonlo => exact .inr (.inr (.inr ⟨.konlo, rfl⟩))
  | wrKonhi d => exact .inr (.inr (.inl ⟨.konhi, d, rfl⟩))
  | rdKonhi => exact .inr (.inr (.inr ⟨.konhi, rfl⟩))
  | wrKofflo d => exact .inr (.inr (.inl ⟨.kofflo, d, rfl⟩))
  | rdKofflo => exact .inr (.inr (.inr ⟨.kofflo, rfl⟩))
  | wrKoffhi d => exact .inr (.inr (.inl ⟨.koffhi, d, rfl⟩))
  | rdKoffhi => exact .inr (.inr (.inr ⟨.koffhi, rfl⟩))
  | wrEndxlo d => exact .inr (.inr (.inl ⟨.endxlo, d, rfl⟩))
  | rdEndxlo => exact .inr (.inr (.inr ⟨.endxlo, rfl⟩))
  | wrEndxhi d => exact .inr (.inr (.inl ⟨.endxhi, d, rfl⟩))
  | rdEndxhi => exact .inr (.inr (.inr ⟨.endxhi, rfl⟩))
  | wrTaddr d => exact .inr (.inr (.inl ⟨.taddr, d, rfl⟩))
  | rdTaddr => exact .inr (.inr (.inr ⟨.taddr, rfl⟩))
  | wrTdata d => exact .inr (.inr (.inl ⟨.tdata, d, rfl⟩))
  | rdTdata => exact .inr (.inr (.inr ⟨.tdata, rfl⟩))
  | wrExtvoll d => exact .inr (.inr (.inl ⟨.extvoll, d, rfl⟩))
  | rdExtvoll => exact .inr (.inr (.inr ⟨.extvoll, rfl⟩))
  | wrExtvolr d => exact .inr (.inr (.inl ⟨.extvolr, d, rfl⟩))
  | rdExtvolr => exact .inr (.inr (.inr ⟨.extvolr, rfl⟩))
  | tick => exact .inl rfl
  | reset => exact .inr (.inl rfl)

@[simp] theorem encode_regWrite (d : Half) (r : Reg) : encode (regWrite d r) = encodeWrite r d := by cases r <;> rfl

@[simp] theorem encode_regRead (r : Reg) : encode (regRead r) = encodeRead r := by cases r <;> rfl

@[simp] theorem wellFormed_regWrite (d : Half) (r : Reg) :
    (regWrite d r).wellFormed = (regRead r).wellFormed := by cases r <;> rfl

/-- The decoder on the word of a register write. -/
theorem decode_encodeWrite (r : Reg) (d : Half) (h : (regRead r).wellFormed = true) :
    decode (encodeWrite r d) = .ok (regWrite d r) := by
  simp only [decode, encodeWrite, rsvOf_packReg, opOf_packReg, offsOf_packReg, dataOf_packReg, regAt_offs r h,
    r.offs_even]
  rfl

/-- The decoder on the word of a register read. -/
theorem decode_encodeRead (r : Reg) (h : (regRead r).wellFormed = true) :
    decode (encodeRead r) = .ok (regRead r) := by
  simp only [decode, encodeRead, rsvOf_packReg, opOf_packReg, offsOf_packReg, dataOf_packReg, regAt_offs r h,
    r.offs_even]
  rfl

/-- What the decoder can answer, in the order of its checks (R99). -/
theorem decode_cases {w : Word} {i : Instr} (h : decode w = .ok i) :
    rsvOf w = 0 ∧
      ((opOf w = 0b10 ∧ ctlOf w = 0 ∧ i = .tick) ∨ (opOf w = 0b11 ∧ ctlOf w = 0 ∧ i = .reset) ∨
        ∃ r, regAt (offsOf w) = some r ∧ (offsOf w).getLsbD 0 = false ∧
          ((opOf w = 0b00 ∧ i = regWrite (dataOf w) r) ∨ (opOf w = 0b01 ∧ dataOf w = 0 ∧ i = regRead r))) := by
  have op : ∀ o : BitVec 2, o = 0b00 ∨ o = 0b01 ∨ o = 0b10 ∨ o = 0b11 := by decide
  simp only [decode] at h
  split at h <;> rename_i hr
  · cases h
  · refine ⟨Decidable.not_not.mp hr, ?_⟩
    split at h <;> rename_i h2
    · split at h <;> rename_i hc
      · cases h
      · exact .inl ⟨h2, Decidable.not_not.mp hc, by cases h; rfl⟩
    · split at h <;> rename_i h3
      · split at h <;> rename_i hc
        · cases h
        · exact .inr (.inl ⟨h3, Decidable.not_not.mp hc, by cases h; rfl⟩)
      · refine .inr (.inr ?_)
        split at h <;> rename_i ho
        · cases h
        · split at h <;> rename_i hd
          · cases h
          · split at h <;> rename_i hreg
            · cases h
            · refine ⟨_, hreg, by simpa using ho, ?_⟩
              rcases op (opOf w) with e | e | e | e
              · exact .inl ⟨e, by cases h; simp [e]⟩
              · exact .inr ⟨e, Decidable.not_not.mp fun hne => hd ⟨e, hne⟩, by cases h; simp [e]⟩
              · exact absurd e h2
              · exact absurd e h3

end Sys2Proof
end

