-- ==== Sys2Proof/Laws/Envelope.lean ====
section
/-! SUPPORT. What an envelope tick can do to phase, level and wait counter, and that it is the picture of Safety.lean,
which is written from the bits of the ADSR registers. -/

namespace Sys2Proof.Machine

@[simp] theorem Voice.envStep_phase (x : Voice) (r : EnvRow) : (x.envStep r).phase = x.phase := by
  unfold Voice.envStep; split <;> rfl

@[simp] theorem Voice.envStep_adsrLo (x : Voice) (r : EnvRow) : (x.envStep r).adsrLo = x.adsrLo := by
  unfold Voice.envStep; split <;> rfl

@[simp] theorem Voice.phaseCheck_level (x : Voice) : x.phaseCheck.level = x.level := by
  unfold Voice.phaseCheck; split <;> (try split) <;> rfl

/-- The phase changes of R178, and no others. -/
theorem Voice.envTick_phase {x : Voice} (h : x.envTick.phase ≠ x.phase) :
    (x.phase = .attack ∧ x.envTick.phase = .decay ∧ x.envTick.level.toNat = 0x7FFF) ∨
      (x.phase = .decay ∧ x.envTick.phase = .sustain ∧ x.envTick.level.toNat ≤ sustainThreshold x.adsrLo) ∨
      (x.phase = .release ∧ x.envTick.phase = .off ∧ x.envTick.level.toNat = 0) := by
  unfold Voice.envTick at h ⊢
  split at h
  · exact absurd rfl h
  · rename_i r _
    unfold Voice.phaseCheck at h ⊢
    rw [x.envStep_phase r] at h ⊢
    cases hp : x.phase <;> simp only [hp, Voice.envStep_phase, Voice.envStep_adsrLo] at h ⊢
    all_goals
      first
        | exact absurd rfl h
        | (split at h <;> simp_all)

/-- A level between 0 and what it was is stored unchanged. -/
theorem level_ofInt_le {l : BitVec 15} {z : Int} (h0 : 0 ≤ z) (h1 : z ≤ l.toNat) :
    (BitVec.ofInt 15 z).toNat ≤ l.toNat := by
  have := l.isLt
  rw [BitVec.toNat_ofInt]
  omega

/-- A step value that is not positive lowers the level or keeps it. -/
theorem EnvRow.step_nonpos {r : EnvRow} (hs : r.sv ≤ 0) (level : Nat) : r.step level ≤ 0 := by
  have h : r.sv * 2 ^ (11 - r.shift) ≤ 0 := by
    have : (0 : Int) ≤ 2 ^ (11 - r.shift) := by positivity
    nlinarith
  unfold EnvRow.step
  split
  · rw [asr]
    have : (0 : Int) ≤ (level : Int) := by positivity
    exact Int.ediv_le_of_le_mul (by positivity) (by nlinarith)
  · exact h

/-- A level in Decay or Release does not rise. -/
theorem Voice.envTick_level_le {x : Voice} (h : x.phase = .decay ∨ x.phase = .release) :
    x.envTick.level.toNat ≤ x.level.toNat := by
  have hs (r : EnvRow) (hv : r.sv ≤ 0) :
      (x.envStep r).phaseCheck.level.toNat ≤ x.level.toNat := by
    rw [Voice.phaseCheck_level]
    unfold Voice.envStep
    split
    · have hst := EnvRow.step_nonpos hv x.level.toNat
      have hl := x.level.isLt
      simp only [clamp]
      apply level_ofInt_le <;> split <;> (try split) <;> omega
    · exact le_refl _
  unfold Voice.envTick
  rcases h with h | h <;> rw [h] <;> exact hs _ (by show (-8 : Int) ≤ 0; decide)

/-- The wait counter stays below 2^22 (10_state.md R33). -/
theorem Voice.envTick_envcnt_lt {x : Voice} (h : x.envcnt.toNat < 2 ^ 22) : x.envTick.envcnt.toNat < 2 ^ 22 := by
  have h1 (r : EnvRow) (hr : r.shift < 32) : (x.envStep r).envcnt.toNat < 2 ^ 22 := by
    unfold Voice.envStep
    split
    · exact Nat.two_pow_pos 22
    · have hp : 2 ^ (r.shift - 11) ≤ 2 ^ 20 := Nat.pow_le_pow_right (by decide) (by omega)
      have hc : r.cycles x.level.toNat ≤ 2 ^ 22 := by unfold EnvRow.cycles; split <;> omega
      simp only [BitVec.toNat_ofNat]
      omega
  have h2 (y : Voice) (hy : y.envcnt.toNat < 2 ^ 22) : y.phaseCheck.envcnt.toNat < 2 ^ 22 := by
    unfold Voice.phaseCheck
    split <;> (try split) <;> first | exact hy | exact Nat.two_pow_pos 22
  unfold Voice.envTick
  split
  · exact h
  · rename_i r hr
    refine h2 _ (h1 r ?_)
    unfold envRow at hr
    split at hr <;> cases hr <;> exact (BitVec.isLt _).trans_le (by decide)

/-! The picture. -/

/-- The row a phase uses, as the picture has it. -/
theorem envRow_eq_envelopeRow {x : Voice} (h : x.phase ≠ .off) :
    envRow x.phase x.adsrLo x.adsrHi =
      some ⟨(envelopeRow x).1, (envelopeRow x).2.1, (envelopeRow x).2.2.1, (envelopeRow x).2.2.2⟩ := by
  unfold envelopeRow envRow
  cases hp : x.phase
  case off => exact absurd hp h
  case sustain =>
    simp only [sustainDec, sustainIsExp, sustainShift, sustainStep, getLsbD_eq_div_mod, extractLsb'_toNat_eq_div_mod]
    rcases Nat.mod_two_eq_zero_or_one (x.adsrHi.toNat / 2 ^ 14) with h2 | h2 <;> rw [h2] <;> rfl
  all_goals
    simp only [attackIsExp, attackShift, attackStep, decayShift, releaseIsExp, releaseShift, stepValue,
      getLsbD_eq_div_mod, extractLsb'_toNat_eq_div_mod, if_true, pow_zero, Nat.div_one]
    rfl

theorem cycles_eq_envelopeCycles (inc exp : Bool) (shift : Nat) (sv : Int) (level : Nat) :
    EnvRow.cycles ⟨inc, exp, shift, sv⟩ level = envelopeCycles inc exp shift level := by
  simp only [EnvRow.cycles, envelopeCycles, Bool.and_eq_true, decide_eq_true_eq, and_assoc, gt_iff_lt]

theorem step_eq_envelopeChange (inc exp : Bool) (shift : Nat) (sv : Int) (level : Nat) :
    EnvRow.step ⟨inc, exp, shift, sv⟩ level = envelopeChange inc exp shift sv level := by
  simp only [EnvRow.step, envelopeChange, asr, Bool.and_eq_true, Bool.not_eq_true']

theorem phaseCheck_eq_phaseChecked (x : Voice) : x.phaseCheck = phaseChecked x := by
  unfold Voice.phaseCheck phaseChecked
  have hs : sustainThreshold x.adsrLo = min ((x.adsrLo.toNat % 16 + 1) * 0x800) 0x7FFF := by
    rw [sustainThreshold, sustainLevel, extractLsb'_toNat_eq_div_mod, pow_zero, Nat.div_one]; rfl
  rw [hs]
  cases hp : x.phase <;> simp

/-- The picture is the envelope tick: proofs go on with the field lemmas of `envTick`. -/
@[simp] theorem envelopeTicked_eq_envTick (x : Voice) : envelopeTicked x = x.envTick := by
  unfold envelopeTicked
  split
  · rename_i h
    simp [Voice.envTick, envRow, h]
  · rename_i h
    rw [Voice.envTick, envRow_eq_envelopeRow h]
    simp only [phaseCheck_eq_phaseChecked]
    congr 1
    simp only [Voice.envStep, envelopeUpdated, cycles_eq_envelopeCycles, step_eq_envelopeChange,
      clamp_eq_max_min (show (0 : Int) ≤ 0x7FFF by decide)]

end Sys2Proof.Machine
end

