-- ==== Sys2Proof/Laws/State.lean ====
section
/-! SUPPORT. What each named update of the state does to each field, so that no later proof unfolds a record update:
one lemma per field per update, and the same for the views `voice`, `ramByte` and `blockAt`. -/

namespace Sys2Proof.Machine

/-! Voices. -/

@[simp] theorem State.voice_setVoice_same (s : State) (v : VoiceIx) (x : Voice) : (s.setVoice v x).voice v = x := by
  simp [State.voice, State.setVoice]

theorem State.voice_setVoice_other (s : State) {v w : VoiceIx} (h : w ≠ v) (x : Voice) :
    (s.setVoice v x).voice w = s.voice w := by
  simp only [State.voice, State.setVoice, Fin.getElem_fin]
  exact Vector.getElem_set_ne _ _ (fun hvw => h (Fin.ext hvw.symm))

/-- One form for both cases. -/
theorem State.voice_setVoice (s : State) (v w : VoiceIx) (x : Voice) :
    (s.setVoice v x).voice w = if w = v then x else s.voice w := by
  split
  · subst w; simp
  · exact s.voice_setVoice_other ‹_› x

/-- A later replacement of the same voice wins. -/
@[simp] theorem State.setVoice_setVoice (s : State) (v : VoiceIx) (x y : Voice) :
    (s.setVoice v x).setVoice v y = s.setVoice v y := by
  simp [State.setVoice]

/-- Putting back what is there changes nothing. -/
@[simp] theorem State.setVoice_voice (s : State) (v : VoiceIx) : s.setVoice v (s.voice v) = s := by
  simp [State.setVoice, State.voice]

/-- Two states that agree field by field, the voices one by one, are equal. -/
theorem State.ext_voices {s t : State} (hv : ∀ v, s.voice v = t.voice v) (hr : { s with voices := t.voices } = t) :
    s = t := by
  have : s.voices = t.voices := Vector.ext fun i hi => hv ⟨i, hi⟩
  rw [← hr, ← this]

/-! `State.setVoice`. -/

@[simp] theorem State.setVoice_voices (s : State) (v : VoiceIx) (x : Voice) : (s.setVoice v x).voices = s.voices.set v x := rfl
@[simp] theorem State.setVoice_endx (s : State) (v : VoiceIx) (x : Voice) : (s.setVoice v x).endx = s.endx := rfl
@[simp] theorem State.setVoice_konLo (s : State) (v : VoiceIx) (x : Voice) : (s.setVoice v x).konLo = s.konLo := rfl
@[simp] theorem State.setVoice_konHi (s : State) (v : VoiceIx) (x : Voice) : (s.setVoice v x).konHi = s.konHi := rfl
@[simp] theorem State.setVoice_koffLo (s : State) (v : VoiceIx) (x : Voice) : (s.setVoice v x).koffLo = s.koffLo := rfl
@[simp] theorem State.setVoice_koffHi (s : State) (v : VoiceIx) (x : Voice) : (s.setVoice v x).koffHi = s.koffHi := rfl
@[simp] theorem State.setVoice_mvolL (s : State) (v : VoiceIx) (x : Voice) : (s.setVoice v x).mvolL = s.mvolL := rfl
@[simp] theorem State.setVoice_mvolR (s : State) (v : VoiceIx) (x : Voice) : (s.setVoice v x).mvolR = s.mvolR := rfl
@[simp] theorem State.setVoice_evolL (s : State) (v : VoiceIx) (x : Voice) : (s.setVoice v x).evolL = s.evolL := rfl
@[simp] theorem State.setVoice_evolR (s : State) (v : VoiceIx) (x : Voice) : (s.setVoice v x).evolR = s.evolR := rfl
@[simp] theorem State.setVoice_extvolL (s : State) (v : VoiceIx) (x : Voice) : (s.setVoice v x).extvolL = s.extvolL := rfl
@[simp] theorem State.setVoice_extvolR (s : State) (v : VoiceIx) (x : Voice) : (s.setVoice v x).extvolR = s.extvolR := rfl
@[simp] theorem State.setVoice_taddr (s : State) (v : VoiceIx) (x : Voice) : (s.setVoice v x).taddr = s.taddr := rfl
@[simp] theorem State.setVoice_tptr (s : State) (v : VoiceIx) (x : Voice) : (s.setVoice v x).tptr = s.tptr := rfl
@[simp] theorem State.setVoice_ram (s : State) (v : VoiceIx) (x : Voice) : (s.setVoice v x).ram = s.ram := rfl
@[simp] theorem State.setVoice_out (s : State) (v : VoiceIx) (x : Voice) : (s.setVoice v x).out = s.out := rfl
@[simp] theorem State.setVoice_faults (s : State) (v : VoiceIx) (x : Voice) : (s.setVoice v x).faults = s.faults := rfl
@[simp] theorem State.setVoice_stream (s : State) (v : VoiceIx) (x : Voice) : (s.setVoice v x).stream = s.stream := rfl
@[simp] theorem State.setVoice_pos (s : State) (v : VoiceIx) (x : Voice) : (s.setVoice v x).pos = s.pos := rfl
@[simp] theorem State.setVoice_reads (s : State) (v : VoiceIx) (x : Voice) : (s.setVoice v x).reads = s.reads := rfl
@[simp] theorem State.setVoice_ramByte (s : State) (v : VoiceIx) (x : Voice) (i : Nat) : (s.setVoice v x).ramByte i = s.ramByte i := rfl
@[simp] theorem State.setVoice_blockAt (s : State) (v : VoiceIx) (x : Voice) (i : Nat) : (s.setVoice v x).blockAt i = s.blockAt i := rfl

/-! `State.markEndx`. -/

@[simp] theorem State.markEndx_voices (s : State) (v : VoiceIx) : (s.markEndx v).voices = s.voices := rfl
@[simp] theorem State.markEndx_endx (s : State) (v : VoiceIx) : (s.markEndx v).endx = endxSet s.endx v := rfl
@[simp] theorem State.markEndx_konLo (s : State) (v : VoiceIx) : (s.markEndx v).konLo = s.konLo := rfl
@[simp] theorem State.markEndx_konHi (s : State) (v : VoiceIx) : (s.markEndx v).konHi = s.konHi := rfl
@[simp] theorem State.markEndx_koffLo (s : State) (v : VoiceIx) : (s.markEndx v).koffLo = s.koffLo := rfl
@[simp] theorem State.markEndx_koffHi (s : State) (v : VoiceIx) : (s.markEndx v).koffHi = s.koffHi := rfl
@[simp] theorem State.markEndx_mvolL (s : State) (v : VoiceIx) : (s.markEndx v).mvolL = s.mvolL := rfl
@[simp] theorem State.markEndx_mvolR (s : State) (v : VoiceIx) : (s.markEndx v).mvolR = s.mvolR := rfl
@[simp] theorem State.markEndx_evolL (s : State) (v : VoiceIx) : (s.markEndx v).evolL = s.evolL := rfl
@[simp] theorem State.markEndx_evolR (s : State) (v : VoiceIx) : (s.markEndx v).evolR = s.evolR := rfl
@[simp] theorem State.markEndx_extvolL (s : State) (v : VoiceIx) : (s.markEndx v).extvolL = s.extvolL := rfl
@[simp] theorem State.markEndx_extvolR (s : State) (v : VoiceIx) : (s.markEndx v).extvolR = s.extvolR := rfl
@[simp] theorem State.markEndx_taddr (s : State) (v : VoiceIx) : (s.markEndx v).taddr = s.taddr := rfl
@[simp] theorem State.markEndx_tptr (s : State) (v : VoiceIx) : (s.markEndx v).tptr = s.tptr := rfl
@[simp] theorem State.markEndx_ram (s : State) (v : VoiceIx) : (s.markEndx v).ram = s.ram := rfl
@[simp] theorem State.markEndx_out (s : State) (v : VoiceIx) : (s.markEndx v).out = s.out := rfl
@[simp] theorem State.markEndx_faults (s : State) (v : VoiceIx) : (s.markEndx v).faults = s.faults := rfl
@[simp] theorem State.markEndx_stream (s : State) (v : VoiceIx) : (s.markEndx v).stream = s.stream := rfl
@[simp] theorem State.markEndx_pos (s : State) (v : VoiceIx) : (s.markEndx v).pos = s.pos := rfl
@[simp] theorem State.markEndx_reads (s : State) (v : VoiceIx) : (s.markEndx v).reads = s.reads := rfl
@[simp] theorem State.markEndx_voice (s : State) (v : VoiceIx) (i : VoiceIx) : (s.markEndx v).voice i = s.voice i := rfl
@[simp] theorem State.markEndx_ramByte (s : State) (v : VoiceIx) (i : Nat) : (s.markEndx v).ramByte i = s.ramByte i := rfl
@[simp] theorem State.markEndx_blockAt (s : State) (v : VoiceIx) (i : Nat) : (s.markEndx v).blockAt i = s.blockAt i := rfl

/-! `State.clearEndx`. -/

@[simp] theorem State.clearEndx_voices (s : State) (v : VoiceIx) : (s.clearEndx v).voices = s.voices := rfl
@[simp] theorem State.clearEndx_endx (s : State) (v : VoiceIx) : (s.clearEndx v).endx = endxClear s.endx v := rfl
@[simp] theorem State.clearEndx_konLo (s : State) (v : VoiceIx) : (s.clearEndx v).konLo = s.konLo := rfl
@[simp] theorem State.clearEndx_konHi (s : State) (v : VoiceIx) : (s.clearEndx v).konHi = s.konHi := rfl
@[simp] theorem State.clearEndx_koffLo (s : State) (v : VoiceIx) : (s.clearEndx v).koffLo = s.koffLo := rfl
@[simp] theorem State.clearEndx_koffHi (s : State) (v : VoiceIx) : (s.clearEndx v).koffHi = s.koffHi := rfl
@[simp] theorem State.clearEndx_mvolL (s : State) (v : VoiceIx) : (s.clearEndx v).mvolL = s.mvolL := rfl
@[simp] theorem State.clearEndx_mvolR (s : State) (v : VoiceIx) : (s.clearEndx v).mvolR = s.mvolR := rfl
@[simp] theorem State.clearEndx_evolL (s : State) (v : VoiceIx) : (s.clearEndx v).evolL = s.evolL := rfl
@[simp] theorem State.clearEndx_evolR (s : State) (v : VoiceIx) : (s.clearEndx v).evolR = s.evolR := rfl
@[simp] theorem State.clearEndx_extvolL (s : State) (v : VoiceIx) : (s.clearEndx v).extvolL = s.extvolL := rfl
@[simp] theorem State.clearEndx_extvolR (s : State) (v : VoiceIx) : (s.clearEndx v).extvolR = s.extvolR := rfl
@[simp] theorem State.clearEndx_taddr (s : State) (v : VoiceIx) : (s.clearEndx v).taddr = s.taddr := rfl
@[simp] theorem State.clearEndx_tptr (s : State) (v : VoiceIx) : (s.clearEndx v).tptr = s.tptr := rfl
@[simp] theorem State.clearEndx_ram (s : State) (v : VoiceIx) : (s.clearEndx v).ram = s.ram := rfl
@[simp] theorem State.clearEndx_out (s : State) (v : VoiceIx) : (s.clearEndx v).out = s.out := rfl
@[simp] theorem State.clearEndx_faults (s : State) (v : VoiceIx) : (s.clearEndx v).faults = s.faults := rfl
@[simp] theorem State.clearEndx_stream (s : State) (v : VoiceIx) : (s.clearEndx v).stream = s.stream := rfl
@[simp] theorem State.clearEndx_pos (s : State) (v : VoiceIx) : (s.clearEndx v).pos = s.pos := rfl
@[simp] theorem State.clearEndx_reads (s : State) (v : VoiceIx) : (s.clearEndx v).reads = s.reads := rfl
@[simp] theorem State.clearEndx_voice (s : State) (v : VoiceIx) (i : VoiceIx) : (s.clearEndx v).voice i = s.voice i := rfl
@[simp] theorem State.clearEndx_ramByte (s : State) (v : VoiceIx) (i : Nat) : (s.clearEndx v).ramByte i = s.ramByte i := rfl
@[simp] theorem State.clearEndx_blockAt (s : State) (v : VoiceIx) (i : Nat) : (s.clearEndx v).blockAt i = s.blockAt i := rfl

/-! `State.emit`. -/

@[simp] theorem State.emit_voices (s : State) (f : Frame) : (s.emit f).voices = s.voices := rfl
@[simp] theorem State.emit_endx (s : State) (f : Frame) : (s.emit f).endx = s.endx := rfl
@[simp] theorem State.emit_konLo (s : State) (f : Frame) : (s.emit f).konLo = s.konLo := rfl
@[simp] theorem State.emit_konHi (s : State) (f : Frame) : (s.emit f).konHi = s.konHi := rfl
@[simp] theorem State.emit_koffLo (s : State) (f : Frame) : (s.emit f).koffLo = s.koffLo := rfl
@[simp] theorem State.emit_koffHi (s : State) (f : Frame) : (s.emit f).koffHi = s.koffHi := rfl
@[simp] theorem State.emit_mvolL (s : State) (f : Frame) : (s.emit f).mvolL = s.mvolL := rfl
@[simp] theorem State.emit_mvolR (s : State) (f : Frame) : (s.emit f).mvolR = s.mvolR := rfl
@[simp] theorem State.emit_evolL (s : State) (f : Frame) : (s.emit f).evolL = s.evolL := rfl
@[simp] theorem State.emit_evolR (s : State) (f : Frame) : (s.emit f).evolR = s.evolR := rfl
@[simp] theorem State.emit_extvolL (s : State) (f : Frame) : (s.emit f).extvolL = s.extvolL := rfl
@[simp] theorem State.emit_extvolR (s : State) (f : Frame) : (s.emit f).extvolR = s.extvolR := rfl
@[simp] theorem State.emit_taddr (s : State) (f : Frame) : (s.emit f).taddr = s.taddr := rfl
@[simp] theorem State.emit_tptr (s : State) (f : Frame) : (s.emit f).tptr = s.tptr := rfl
@[simp] theorem State.emit_ram (s : State) (f : Frame) : (s.emit f).ram = s.ram := rfl
@[simp] theorem State.emit_out (s : State) (f : Frame) : (s.emit f).out = s.out ++ [f] := rfl
@[simp] theorem State.emit_faults (s : State) (f : Frame) : (s.emit f).faults = s.faults := rfl
@[simp] theorem State.emit_stream (s : State) (f : Frame) : (s.emit f).stream = s.stream := rfl
@[simp] theorem State.emit_pos (s : State) (f : Frame) : (s.emit f).pos = s.pos := rfl
@[simp] theorem State.emit_reads (s : State) (f : Frame) : (s.emit f).reads = s.reads := rfl
@[simp] theorem State.emit_voice (s : State) (f : Frame) (i : VoiceIx) : (s.emit f).voice i = s.voice i := rfl
@[simp] theorem State.emit_ramByte (s : State) (f : Frame) (i : Nat) : (s.emit f).ramByte i = s.ramByte i := rfl
@[simp] theorem State.emit_blockAt (s : State) (f : Frame) (i : Nat) : (s.emit f).blockAt i = s.blockAt i := rfl

/-! `State.returnValue`. -/

@[simp] theorem State.returnValue_voices (s : State) (x : Half) : (s.returnValue x).voices = s.voices := rfl
@[simp] theorem State.returnValue_endx (s : State) (x : Half) : (s.returnValue x).endx = s.endx := rfl
@[simp] theorem State.returnValue_konLo (s : State) (x : Half) : (s.returnValue x).konLo = s.konLo := rfl
@[simp] theorem State.returnValue_konHi (s : State) (x : Half) : (s.returnValue x).konHi = s.konHi := rfl
@[simp] theorem State.returnValue_koffLo (s : State) (x : Half) : (s.returnValue x).koffLo = s.koffLo := rfl
@[simp] theorem State.returnValue_koffHi (s : State) (x : Half) : (s.returnValue x).koffHi = s.koffHi := rfl
@[simp] theorem State.returnValue_mvolL (s : State) (x : Half) : (s.returnValue x).mvolL = s.mvolL := rfl
@[simp] theorem State.returnValue_mvolR (s : State) (x : Half) : (s.returnValue x).mvolR = s.mvolR := rfl
@[simp] theorem State.returnValue_evolL (s : State) (x : Half) : (s.returnValue x).evolL = s.evolL := rfl
@[simp] theorem State.returnValue_evolR (s : State) (x : Half) : (s.returnValue x).evolR = s.evolR := rfl
@[simp] theorem State.returnValue_extvolL (s : State) (x : Half) : (s.returnValue x).extvolL = s.extvolL := rfl
@[simp] theorem State.returnValue_extvolR (s : State) (x : Half) : (s.returnValue x).extvolR = s.extvolR := rfl
@[simp] theorem State.returnValue_taddr (s : State) (x : Half) : (s.returnValue x).taddr = s.taddr := rfl
@[simp] theorem State.returnValue_tptr (s : State) (x : Half) : (s.returnValue x).tptr = s.tptr := rfl
@[simp] theorem State.returnValue_ram (s : State) (x : Half) : (s.returnValue x).ram = s.ram := rfl
@[simp] theorem State.returnValue_out (s : State) (x : Half) : (s.returnValue x).out = s.out := rfl
@[simp] theorem State.returnValue_faults (s : State) (x : Half) : (s.returnValue x).faults = s.faults := rfl
@[simp] theorem State.returnValue_stream (s : State) (x : Half) : (s.returnValue x).stream = s.stream := rfl
@[simp] theorem State.returnValue_pos (s : State) (x : Half) : (s.returnValue x).pos = s.pos := rfl
@[simp] theorem State.returnValue_reads (s : State) (x : Half) : (s.returnValue x).reads = s.reads ++ [x] := rfl
@[simp] theorem State.returnValue_voice (s : State) (x : Half) (i : VoiceIx) : (s.returnValue x).voice i = s.voice i := rfl
@[simp] theorem State.returnValue_ramByte (s : State) (x : Half) (i : Nat) : (s.returnValue x).ramByte i = s.ramByte i := rfl
@[simp] theorem State.returnValue_blockAt (s : State) (x : Half) (i : Nat) : (s.returnValue x).blockAt i = s.blockAt i := rfl

/-! `State.record`. -/

@[simp] theorem State.record_voices (s : State) (e : Entry) : (s.record e).voices = s.voices := rfl
@[simp] theorem State.record_endx (s : State) (e : Entry) : (s.record e).endx = s.endx := rfl
@[simp] theorem State.record_konLo (s : State) (e : Entry) : (s.record e).konLo = s.konLo := rfl
@[simp] theorem State.record_konHi (s : State) (e : Entry) : (s.record e).konHi = s.konHi := rfl
@[simp] theorem State.record_koffLo (s : State) (e : Entry) : (s.record e).koffLo = s.koffLo := rfl
@[simp] theorem State.record_koffHi (s : State) (e : Entry) : (s.record e).koffHi = s.koffHi := rfl
@[simp] theorem State.record_mvolL (s : State) (e : Entry) : (s.record e).mvolL = s.mvolL := rfl
@[simp] theorem State.record_mvolR (s : State) (e : Entry) : (s.record e).mvolR = s.mvolR := rfl
@[simp] theorem State.record_evolL (s : State) (e : Entry) : (s.record e).evolL = s.evolL := rfl
@[simp] theorem State.record_evolR (s : State) (e : Entry) : (s.record e).evolR = s.evolR := rfl
@[simp] theorem State.record_extvolL (s : State) (e : Entry) : (s.record e).extvolL = s.extvolL := rfl
@[simp] theorem State.record_extvolR (s : State) (e : Entry) : (s.record e).extvolR = s.extvolR := rfl
@[simp] theorem State.record_taddr (s : State) (e : Entry) : (s.record e).taddr = s.taddr := rfl
@[simp] theorem State.record_tptr (s : State) (e : Entry) : (s.record e).tptr = s.tptr := rfl
@[simp] theorem State.record_ram (s : State) (e : Entry) : (s.record e).ram = s.ram := rfl
@[simp] theorem State.record_out (s : State) (e : Entry) : (s.record e).out = s.out := rfl
@[simp] theorem State.record_faults (s : State) (e : Entry) : (s.record e).faults = s.faults ++ [e] := rfl
@[simp] theorem State.record_stream (s : State) (e : Entry) : (s.record e).stream = s.stream := rfl
@[simp] theorem State.record_pos (s : State) (e : Entry) : (s.record e).pos = s.pos := rfl
@[simp] theorem State.record_reads (s : State) (e : Entry) : (s.record e).reads = s.reads := rfl
@[simp] theorem State.record_voice (s : State) (e : Entry) (i : VoiceIx) : (s.record e).voice i = s.voice i := rfl
@[simp] theorem State.record_ramByte (s : State) (e : Entry) (i : Nat) : (s.record e).ramByte i = s.ramByte i := rfl
@[simp] theorem State.record_blockAt (s : State) (e : Entry) (i : Nat) : (s.record e).blockAt i = s.blockAt i := rfl

/-! `State.refuse`. -/

@[simp] theorem State.refuse_voices (s : State) (r : RefusalReason) (w : Word) : (s.refuse r w).voices = s.voices := rfl
@[simp] theorem State.refuse_endx (s : State) (r : RefusalReason) (w : Word) : (s.refuse r w).endx = s.endx := rfl
@[simp] theorem State.refuse_konLo (s : State) (r : RefusalReason) (w : Word) : (s.refuse r w).konLo = s.konLo := rfl
@[simp] theorem State.refuse_konHi (s : State) (r : RefusalReason) (w : Word) : (s.refuse r w).konHi = s.konHi := rfl
@[simp] theorem State.refuse_koffLo (s : State) (r : RefusalReason) (w : Word) : (s.refuse r w).koffLo = s.koffLo := rfl
@[simp] theorem State.refuse_koffHi (s : State) (r : RefusalReason) (w : Word) : (s.refuse r w).koffHi = s.koffHi := rfl
@[simp] theorem State.refuse_mvolL (s : State) (r : RefusalReason) (w : Word) : (s.refuse r w).mvolL = s.mvolL := rfl
@[simp] theorem State.refuse_mvolR (s : State) (r : RefusalReason) (w : Word) : (s.refuse r w).mvolR = s.mvolR := rfl
@[simp] theorem State.refuse_evolL (s : State) (r : RefusalReason) (w : Word) : (s.refuse r w).evolL = s.evolL := rfl
@[simp] theorem State.refuse_evolR (s : State) (r : RefusalReason) (w : Word) : (s.refuse r w).evolR = s.evolR := rfl
@[simp] theorem State.refuse_extvolL (s : State) (r : RefusalReason) (w : Word) : (s.refuse r w).extvolL = s.extvolL := rfl
@[simp] theorem State.refuse_extvolR (s : State) (r : RefusalReason) (w : Word) : (s.refuse r w).extvolR = s.extvolR := rfl
@[simp] theorem State.refuse_taddr (s : State) (r : RefusalReason) (w : Word) : (s.refuse r w).taddr = s.taddr := rfl
@[simp] theorem State.refuse_tptr (s : State) (r : RefusalReason) (w : Word) : (s.refuse r w).tptr = s.tptr := rfl
@[simp] theorem State.refuse_ram (s : State) (r : RefusalReason) (w : Word) : (s.refuse r w).ram = s.ram := rfl
@[simp] theorem State.refuse_out (s : State) (r : RefusalReason) (w : Word) : (s.refuse r w).out = s.out := rfl
@[simp] theorem State.refuse_faults (s : State) (r : RefusalReason) (w : Word) : (s.refuse r w).faults = s.faults ++ [.refusal r w s.pos] := rfl
@[simp] theorem State.refuse_stream (s : State) (r : RefusalReason) (w : Word) : (s.refuse r w).stream = s.stream := rfl
@[simp] theorem State.refuse_pos (s : State) (r : RefusalReason) (w : Word) : (s.refuse r w).pos = s.pos := rfl
@[simp] theorem State.refuse_reads (s : State) (r : RefusalReason) (w : Word) : (s.refuse r w).reads = s.reads := rfl
@[simp] theorem State.refuse_voice (s : State) (r : RefusalReason) (w : Word) (i : VoiceIx) : (s.refuse r w).voice i = s.voice i := rfl
@[simp] theorem State.refuse_ramByte (s : State) (r : RefusalReason) (w : Word) (i : Nat) : (s.refuse r w).ramByte i = s.ramByte i := rfl
@[simp] theorem State.refuse_blockAt (s : State) (r : RefusalReason) (w : Word) (i : Nat) : (s.refuse r w).blockAt i = s.blockAt i := rfl

/-! `State.misaligned`. -/

@[simp] theorem State.misaligned_voices (s : State) (v : VoiceIx) (a : RamAddr) (w : Word) : (s.misaligned v a w).voices = s.voices := rfl
@[simp] theorem State.misaligned_endx (s : State) (v : VoiceIx) (a : RamAddr) (w : Word) : (s.misaligned v a w).endx = s.endx := rfl
@[simp] theorem State.misaligned_konLo (s : State) (v : VoiceIx) (a : RamAddr) (w : Word) : (s.misaligned v a w).konLo = s.konLo := rfl
@[simp] theorem State.misaligned_konHi (s : State) (v : VoiceIx) (a : RamAddr) (w : Word) : (s.misaligned v a w).konHi = s.konHi := rfl
@[simp] theorem State.misaligned_koffLo (s : State) (v : VoiceIx) (a : RamAddr) (w : Word) : (s.misaligned v a w).koffLo = s.koffLo := rfl
@[simp] theorem State.misaligned_koffHi (s : State) (v : VoiceIx) (a : RamAddr) (w : Word) : (s.misaligned v a w).koffHi = s.koffHi := rfl
@[simp] theorem State.misaligned_mvolL (s : State) (v : VoiceIx) (a : RamAddr) (w : Word) : (s.misaligned v a w).mvolL = s.mvolL := rfl
@[simp] theorem State.misaligned_mvolR (s : State) (v : VoiceIx) (a : RamAddr) (w : Word) : (s.misaligned v a w).mvolR = s.mvolR := rfl
@[simp] theorem State.misaligned_evolL (s : State) (v : VoiceIx) (a : RamAddr) (w : Word) : (s.misaligned v a w).evolL = s.evolL := rfl
@[simp] theorem State.misaligned_evolR (s : State) (v : VoiceIx) (a : RamAddr) (w : Word) : (s.misaligned v a w).evolR = s.evolR := rfl
@[simp] theorem State.misaligned_extvolL (s : State) (v : VoiceIx) (a : RamAddr) (w : Word) : (s.misaligned v a w).extvolL = s.extvolL := rfl
@[simp] theorem State.misaligned_extvolR (s : State) (v : VoiceIx) (a : RamAddr) (w : Word) : (s.misaligned v a w).extvolR = s.extvolR := rfl
@[simp] theorem State.misaligned_taddr (s : State) (v : VoiceIx) (a : RamAddr) (w : Word) : (s.misaligned v a w).taddr = s.taddr := rfl
@[simp] theorem State.misaligned_tptr (s : State) (v : VoiceIx) (a : RamAddr) (w : Word) : (s.misaligned v a w).tptr = s.tptr := rfl
@[simp] theorem State.misaligned_ram (s : State) (v : VoiceIx) (a : RamAddr) (w : Word) : (s.misaligned v a w).ram = s.ram := rfl
@[simp] theorem State.misaligned_out (s : State) (v : VoiceIx) (a : RamAddr) (w : Word) : (s.misaligned v a w).out = s.out := rfl
@[simp] theorem State.misaligned_faults (s : State) (v : VoiceIx) (a : RamAddr) (w : Word) : (s.misaligned v a w).faults = s.faults ++ [.misalignedBlock v a w s.pos] := rfl
@[simp] theorem State.misaligned_stream (s : State) (v : VoiceIx) (a : RamAddr) (w : Word) : (s.misaligned v a w).stream = s.stream := rfl
@[simp] theorem State.misaligned_pos (s : State) (v : VoiceIx) (a : RamAddr) (w : Word) : (s.misaligned v a w).pos = s.pos := rfl
@[simp] theorem State.misaligned_reads (s : State) (v : VoiceIx) (a : RamAddr) (w : Word) : (s.misaligned v a w).reads = s.reads := rfl
@[simp] theorem State.misaligned_voice (s : State) (v : VoiceIx) (a : RamAddr) (w : Word) (i : VoiceIx) : (s.misaligned v a w).voice i = s.voice i := rfl
@[simp] theorem State.misaligned_ramByte (s : State) (v : VoiceIx) (a : RamAddr) (w : Word) (i : Nat) : (s.misaligned v a w).ramByte i = s.ramByte i := rfl
@[simp] theorem State.misaligned_blockAt (s : State) (v : VoiceIx) (a : RamAddr) (w : Word) (i : Nat) : (s.misaligned v a w).blockAt i = s.blockAt i := rfl

/-! `State.issue`. -/

@[simp] theorem State.issue_voices (s : State) (w : Word) : (s.issue w).voices = s.voices := rfl
@[simp] theorem State.issue_endx (s : State) (w : Word) : (s.issue w).endx = s.endx := rfl
@[simp] theorem State.issue_konLo (s : State) (w : Word) : (s.issue w).konLo = s.konLo := rfl
@[simp] theorem State.issue_konHi (s : State) (w : Word) : (s.issue w).konHi = s.konHi := rfl
@[simp] theorem State.issue_koffLo (s : State) (w : Word) : (s.issue w).koffLo = s.koffLo := rfl
@[simp] theorem State.issue_koffHi (s : State) (w : Word) : (s.issue w).koffHi = s.koffHi := rfl
@[simp] theorem State.issue_mvolL (s : State) (w : Word) : (s.issue w).mvolL = s.mvolL := rfl
@[simp] theorem State.issue_mvolR (s : State) (w : Word) : (s.issue w).mvolR = s.mvolR := rfl
@[simp] theorem State.issue_evolL (s : State) (w : Word) : (s.issue w).evolL = s.evolL := rfl
@[simp] theorem State.issue_evolR (s : State) (w : Word) : (s.issue w).evolR = s.evolR := rfl
@[simp] theorem State.issue_extvolL (s : State) (w : Word) : (s.issue w).extvolL = s.extvolL := rfl
@[simp] theorem State.issue_extvolR (s : State) (w : Word) : (s.issue w).extvolR = s.extvolR := rfl
@[simp] theorem State.issue_taddr (s : State) (w : Word) : (s.issue w).taddr = s.taddr := rfl
@[simp] theorem State.issue_tptr (s : State) (w : Word) : (s.issue w).tptr = s.tptr := rfl
@[simp] theorem State.issue_ram (s : State) (w : Word) : (s.issue w).ram = s.ram := rfl
@[simp] theorem State.issue_out (s : State) (w : Word) : (s.issue w).out = s.out := rfl
@[simp] theorem State.issue_faults (s : State) (w : Word) : (s.issue w).faults = s.faults := rfl
@[simp] theorem State.issue_stream (s : State) (w : Word) : (s.issue w).stream = w :: s.stream := rfl
@[simp] theorem State.issue_pos (s : State) (w : Word) : (s.issue w).pos = s.pos := rfl
@[simp] theorem State.issue_reads (s : State) (w : Word) : (s.issue w).reads = s.reads := rfl
@[simp] theorem State.issue_voice (s : State) (w : Word) (i : VoiceIx) : (s.issue w).voice i = s.voice i := rfl
@[simp] theorem State.issue_ramByte (s : State) (w : Word) (i : Nat) : (s.issue w).ramByte i = s.ramByte i := rfl
@[simp] theorem State.issue_blockAt (s : State) (w : Word) (i : Nat) : (s.issue w).blockAt i = s.blockAt i := rfl

/-! Reset. -/

@[simp] theorem State.reset_voice (v : VoiceIx) : State.reset.voice v = Voice.reset := by
  simp [State.reset, State.voice]

end Sys2Proof.Machine
end

