-- ==== Sys2Proof/Laws/Voice.lean ====
section
/-! SUPPORT. One lemma for each shared operation on voices that says everything it can do, in the words of
Safety.lean, and the frame of all of them. -/

namespace Sys2Proof.Machine

/-! Voice numbers. -/

/-- A voice register transaction of an existing voice is performed. -/
@[simp] theorem withVoice_vsel (v : VoiceIx) (k : VoiceIx → Answer) : withVoice (vsel v) k = k v := by
  have h : (vsel v).toNat = v.val := by simp [vsel]; omega
  simp [withVoice, h]

/-- One of a voice 24 to 31 has no meaning. -/
theorem withVoice_none {n : BitVec 5} (h : ¬ n.toNat < 24) (k : VoiceIx → Answer) :
    withVoice n k = .refused .noSuchVoice := by
  simp [withVoice, h]

/-- A performed voice register transaction is one of an existing voice. -/
theorem withVoice_next {n : BitVec 5} {k : VoiceIx → Answer} {t : State} (h : withVoice n k = .next t) :
    ∃ v, n = vsel v ∧ k v = .next t := by
  by_cases hn : n.toNat < 24
  · refine ⟨⟨n.toNat, hn⟩, by simp [vsel], ?_⟩
    simpa [withVoice, hn] using h
  · rw [withVoice_none hn] at h; cases h

@[simp] theorem mem_allVoices (v : VoiceIx) : v ∈ allVoices := List.mem_finRange v

/-- The voices are listed in ascending order. -/
theorem allVoices_sorted : allVoices.Pairwise (· < ·) := by decide

theorem allVoices_nodup : allVoices.Nodup := List.nodup_finRange 24

@[simp] theorem mem_maskLo {d : Half} {v : VoiceIx} : v ∈ maskLo d ↔ inMaskLo d v = true := by simp [maskLo]

@[simp] theorem mem_maskHi {d : Half} {v : VoiceIx} : v ∈ maskHi d ↔ inMaskHi d v = true := by simp [maskHi]

/-! ENDX bits. -/

theorem endxBit_getLsbD (v w : VoiceIx) : (endxBit v).getLsbD w.val = decide (w = v) := by
  revert v w; decide

theorem endxSet_getLsbD (e : BitVec 24) (v w : VoiceIx) :
    (endxSet e v).getLsbD w.val = (e.getLsbD w.val || decide (w = v)) := by
  rw [endxSet, BitVec.getLsbD_or, endxBit_getLsbD]

theorem endxClear_getLsbD (e : BitVec 24) (v w : VoiceIx) :
    (endxClear e v).getLsbD w.val = (e.getLsbD w.val && !decide (w = v)) := by
  rw [endxClear, BitVec.getLsbD_and, BitVec.getLsbD_not, endxBit_getLsbD]
  simp

/-! The frame of the voice operations. -/

/-- From `s` to `t` nothing changes but the voices in `p`, their ENDX bits, and FAULTS. -/
structure OnlyVoices (p : VoiceIx → Prop) (s t : State) : Prop where
  voice : ∀ w, ¬ p w → t.voice w = s.voice w
  endx : ∀ w : VoiceIx, ¬ p w → t.endx.getLsbD w.val = s.endx.getLsbD w.val
  rest : { t with voices := s.voices, endx := s.endx, faults := s.faults } = s

theorem OnlyVoices.refl (p : VoiceIx → Prop) (s : State) : OnlyVoices p s s := ⟨fun _ _ => rfl, fun _ _ => rfl, rfl⟩

theorem OnlyVoices.trans {p : VoiceIx → Prop} {s t u : State} (h : OnlyVoices p s t) (k : OnlyVoices p t u) :
    OnlyVoices p s u where
  voice w hw := (k.voice w hw).trans (h.voice w hw)
  endx w hw := (k.endx w hw).trans (h.endx w hw)
  rest := by
    have h1 := h.rest
    have h2 := k.rest
    obtain ⟨⟩ := s; obtain ⟨⟩ := t; obtain ⟨⟩ := u
    simp only [State.mk.injEq, true_and] at h1 h2 ⊢
    exact ⟨h2.1.trans h1.1, by simp_all⟩

theorem OnlyVoices.mono {p q : VoiceIx → Prop} {s t : State} (h : OnlyVoices p s t) (hpq : ∀ w, p w → q w) :
    OnlyVoices q s t :=
  ⟨fun w hw => h.voice w fun hp => hw (hpq w hp), fun w hw => h.endx w fun hp => hw (hpq w hp), h.rest⟩

/-- The globals a voice operation cannot change, and what a voice fetches. -/
theorem OnlyVoices.outside {p : VoiceIx → Prop} {s t : State} (h : OnlyVoices p s t) :
    SameOutsideVoices s t ∧ t.ram = s.ram := by
  have h := h.rest
  obtain ⟨⟩ := s; obtain ⟨⟩ := t
  simp only [State.mk.injEq, true_and] at h
  simp [SameOutsideVoices, SameKeys, SameMix, SamePort, SameRam, SameHost, h]

theorem OnlyVoices.ramBlock {p : VoiceIx → Prop} {s t : State} (h : OnlyVoices p s t) (a : Nat) :
    Machine.ramBlock t a = Machine.ramBlock s a := by
  simp only [Machine.ramBlock, h.outside.2]

theorem OnlyVoices.setVoice (s : State) (v : VoiceIx) (x : Voice) : OnlyVoices (· = v) s (s.setVoice v x) :=
  ⟨fun _ hw => s.voice_setVoice_other hw x, fun _ _ => rfl, rfl⟩

theorem OnlyVoices.markEndx (s : State) (v : VoiceIx) : OnlyVoices (· = v) s (s.markEndx v) :=
  ⟨fun _ _ => rfl, fun w hw => by rw [State.markEndx_endx, endxSet_getLsbD]; simp [hw], rfl⟩

theorem OnlyVoices.clearEndx (s : State) (v : VoiceIx) : OnlyVoices (· = v) s (s.clearEndx v) :=
  ⟨fun _ _ => rfl, fun w hw => by rw [State.clearEndx_endx, endxClear_getLsbD]; simp [hw], rfl⟩

theorem OnlyVoices.misaligned (p : VoiceIx → Prop) (s : State) (v : VoiceIx) (a : RamAddr) (w : Word) :
    OnlyVoices p s (s.misaligned v a w) :=
  ⟨fun _ _ => rfl, fun _ _ => rfl, rfl⟩

/-! Fetch. -/

/-- A block address is inside RAM, and the block there is its sixteen bytes. -/
theorem blockAt_eq_ramBlock (s : State) (a : RamAddr) : s.blockAt a.toNat = ramBlock s a.toNat :=
  if_pos a.isLt

/-- The loop-start flag of a block is bit 2 of its flag byte. -/
theorem loopStart_blockFlags (b : Block) : loopStart (blockFlags b) = b[1].getLsbD 2 := by
  simp [loopStart, blockFlags]

theorem load_eq_fetchedVoice (s : State) (x : Voice) : x.load (s.blockAt x.cur.toNat) = fetchedVoice s x := by
  rw [blockAt_eq_ramBlock, Voice.load, loopStart_blockFlags]
  rfl

/-- `fetchedVoice` reads the state's RAM only. -/
theorem OnlyVoices.fetchedVoice {p : VoiceIx → Prop} {s t : State} (h : OnlyVoices p s t) (x : Voice) :
    fetchedVoice t x = Machine.fetchedVoice s x := by
  simp only [Machine.fetchedVoice, h.ramBlock]

/-- A fetch at an aligned address is made. -/
theorem fetchBlock_aligned {s : State} {v : VoiceIx} (word : Word) (h : (s.voice v).cur.toNat % 16 = 0) :
    fetchBlock word v s = .done (s.setVoice v (fetchedVoice s (s.voice v))) := by
  rw [fetchBlock, if_neg (by simpa using h), load_eq_fetchedVoice]

/-- One at a misaligned address faults. -/
theorem fetchBlock_misaligned {s : State} {v : VoiceIx} (word : Word) (h : (s.voice v).cur.toNat % 16 ≠ 0) :
    fetchBlock word v s = .stopped (s.misaligned v (s.voice v).cur word) := by
  rw [fetchBlock, if_pos h]

/-! Key-on. -/

theorem byteAddr_toNat (r : Half) : (byteAddr r).toNat = r.toNat * 8 := by
  have := r.isLt
  simp only [byteAddr, BitVec.toNat_ofNat]; omega

/-- A block address in 8-byte units is the register it came from. -/
@[simp] theorem addrUnits_byteAddr (r : Half) : addrUnits (byteAddr r) = r := by
  rw [addrUnits, byteAddr_toNat, Nat.mul_div_cancel _ (by decide)]
  simp

theorem keyOn_eq_startedVoice (x : Voice) : x.keyOn = startedVoice x := rfl

/-- A key-on with an even SADDR starts the voice and fetches its first block. -/
theorem keyOn_even {s : State} {v : VoiceIx} (word : Word) (h : (s.voice v).saddr.toNat % 2 = 0) :
    keyOn word v s = .done ((s.setVoice v (fetchedVoice s (startedVoice (s.voice v)))).clearEndx v) := by
  have hc : (startedVoice (s.voice v)).cur.toNat % 16 = 0 := by
    show (byteAddr (s.voice v).saddr).toNat % 16 = 0
    rw [byteAddr_toNat]; omega
  rw [keyOn, fetchBlock_aligned]
  · rw [State.clearEndx_voice, State.voice_setVoice_same, keyOn_eq_startedVoice]
    congr 1
    simp only [State.setVoice, State.clearEndx, Vector.set_set]
    rfl
  · simpa [keyOn_eq_startedVoice] using hc

/-- One with an odd SADDR starts the voice and faults at the fetch. -/
theorem keyOn_odd {s : State} {v : VoiceIx} (word : Word) (h : (s.voice v).saddr.toNat % 2 = 1) :
    keyOn word v s =
      .stopped (((s.setVoice v (startedVoice (s.voice v))).clearEndx v).misaligned v
        (byteAddr (s.voice v).saddr) word) := by
  have hc : (startedVoice (s.voice v)).cur.toNat % 16 ≠ 0 := by
    show (byteAddr (s.voice v).saddr).toNat % 16 ≠ 0
    rw [byteAddr_toNat]; omega
  rw [keyOn, fetchBlock_misaligned]
  · simp only [State.clearEndx_voice, State.voice_setVoice_same, keyOn_eq_startedVoice]; rfl
  · simpa [keyOn_eq_startedVoice] using hc

/-- Whatever a key-on does, it touches its voice alone. -/
theorem keyOn_onlyVoices (word : Word) (v : VoiceIx) (s : State) : OnlyVoices (· = v) s (keyOn word v s).state := by
  rcases Nat.mod_two_eq_zero_or_one (s.voice v).saddr.toNat with h | h
  · rw [keyOn_even word h]
    exact (OnlyVoices.setVoice s v _).trans (OnlyVoices.clearEndx _ v)
  · rw [keyOn_odd word h]
    exact ((OnlyVoices.setVoice s v _).trans (OnlyVoices.clearEndx _ v)).trans (OnlyVoices.misaligned _ _ _ _ _)

/-- Keying on a list touches the voices of the list alone. -/
theorem keyOnAll_onlyVoices (word : Word) (vs : List VoiceIx) (s : State) :
    OnlyVoices (· ∈ vs) s (keyOnAll word vs s).state := by
  induction vs generalizing s with
  | nil => exact OnlyVoices.refl _ s
  | cons v vs ih =>
    have h := (keyOn_onlyVoices word v s).mono (q := (· ∈ v :: vs)) (by simp +contextual)
    rw [keyOnAll]
    cases hk : keyOn word v s with
    | done s' =>
      rw [hk] at h
      exact h.trans ((ih s').mono (by simp +contextual))
    | stopped s' => rw [hk] at h; exact h

/-- What keying on a list leaves when no fetch of it faults: `KeyedOn` of the voices of the list. -/
theorem keyOnAll_even (word : Word) {vs : List VoiceIx} (hn : vs.Nodup) {s : State}
    (he : ∀ v ∈ vs, (s.voice v).saddr.toNat % 2 = 0) :
    ∃ t, keyOnAll word vs s = .done t ∧ KeyedOn (fun v => decide (v ∈ vs)) s t := by
  induction vs generalizing s with
  | nil => exact ⟨s, rfl, by simp [KeyedOn]⟩
  | cons v vs ih =>
    obtain ⟨hv, hn⟩ := List.nodup_cons.mp hn
    have hk := keyOn_even word (he v (by simp))
    have ho : OnlyVoices (· = v) s ((s.setVoice v (fetchedVoice s (startedVoice (s.voice v)))).clearEndx v) :=
      (OnlyVoices.setVoice s v _).trans (OnlyVoices.clearEndx _ v)
    have hne : ∀ w ∈ vs, ¬ w = v := fun w hw h => hv (h ▸ hw)
    obtain ⟨t, ht, h1, h2, h3⟩ := ih hn (s := (s.setVoice v (fetchedVoice s (startedVoice (s.voice v)))).clearEndx v)
      (fun w hw => by rw [ho.voice w (hne w hw)]; exact he w (by simp [hw]))
    refine ⟨t, by rw [keyOnAll, hk]; exact ht, fun w => ?_, fun w => ?_, h3⟩
    · rw [h1 w]
      by_cases hw : w = v
      · subst hw; simp [hv]
      · simp only [ho.voice w hw, ho.fetchedVoice, List.mem_cons, hw, false_or]
    · rw [h2 w, State.clearEndx_endx, endxClear_getLsbD]
      by_cases hw : w = v
      · subst hw; simp [hv]
      · simp [hw]

/-- What it leaves when the fetch of `v` is its first to fault: `KeyOnStopped` at `v`. -/
theorem keyOnAll_odd (word : Word) {vs : List VoiceIx} (hs : vs.Pairwise (· < ·)) {s : State} {v : VoiceIx}
    (hv : v ∈ vs) (ho : (s.voice v).saddr.toNat % 2 = 1)
    (he : ∀ w ∈ vs, w < v → (s.voice w).saddr.toNat % 2 = 0) :
    ∃ t, keyOnAll word vs s = .stopped t ∧ KeyOnStopped (fun v => decide (v ∈ vs)) v word s t := by
  induction vs generalizing s with
  | nil => simp at hv
  | cons u vs ih =>
    obtain ⟨hu, hs⟩ := List.pairwise_cons.mp hs
    by_cases huv : u = v
    · subst huv
      refine ⟨_, by rw [keyOnAll, keyOn_odd word ho], fun w hw => ?_, ?_, fun w hw => ?_, fun w => ?_, rfl⟩
      · have h1 : ¬ w = u := ne_of_lt hw
        have h2 : w ∉ vs := fun h => lt_asymm hw (hu w h)
        simp [h1, h2, State.voice_setVoice]
      · simp
      · simp [State.voice_setVoice, ne_of_gt hw]
      · rw [State.misaligned_endx, State.clearEndx_endx, endxClear_getLsbD, State.setVoice_endx]
        by_cases hw : w = u
        · subst hw; simp
        · have : ¬ (w ∈ vs ∧ w ≤ u) := fun ⟨h1, h2⟩ => absurd (hu w h1) (not_lt_of_ge h2)
          rcases not_and_or.mp this with h | h <;> simp [hw, h]
    · have hv : v ∈ vs := by simpa [Ne.symm huv] using hv
      have hlt := hu v hv
      have hk := keyOn_even word (he u (by simp) (hu v hv))
      have hf : OnlyVoices (· = u) s ((s.setVoice u (fetchedVoice s (startedVoice (s.voice u)))).clearEndx u) :=
        (OnlyVoices.setVoice s u _).trans (OnlyVoices.clearEndx _ u)
      have hne : ∀ w ∈ vs, ¬ w = u := fun w hw h => lt_irrefl u (h ▸ hu w hw)
      obtain ⟨t, ht, h1, h2, h3, h4, h5⟩ :=
        ih hs (s := (s.setVoice u (fetchedVoice s (startedVoice (s.voice u)))).clearEndx u) hv
          (by rw [hf.voice v (hne v hv)]; exact ho)
          (fun w hw hlt => by rw [hf.voice w (hne w hw)]; exact he w (by simp [hw]) hlt)
      refine ⟨t, by rw [keyOnAll, hk]; exact ht, fun w hw => ?_, ?_, fun w hw => ?_, fun w => ?_, ?_⟩
      · rw [h1 w hw]
        by_cases hwu : w = u
        · subst hwu; simp [show w ∉ vs from fun h => hne w h rfl]
        · simp only [hf.voice w hwu, hf.fetchedVoice, List.mem_cons, hwu, false_or]
      · rw [h2, hf.voice v (hne v hv)]
      · rw [h3 w hw, hf.voice w fun h => lt_asymm hw (h ▸ hu v hv)]
      · rw [h4 w, State.clearEndx_endx, endxClear_getLsbD, State.setVoice_endx]
        by_cases hwu : w = u
        · subst hwu; simp [le_of_lt hlt, show w ∉ vs from fun h => hne w h rfl]
        · simp [hwu]
      · rw [h5, hf.voice v (hne v hv)]; rfl

/-! Key-off. -/

/-- Keying off a list changes the voices of the list alone. -/
theorem keyOffAll_voice (vs : List VoiceIx) (s : State) (v : VoiceIx) :
    (keyOffAll vs s).voice v = if v ∈ vs then (s.voice v).keyOff else s.voice v := by
  induction vs generalizing s with
  | nil => simp [keyOffAll]
  | cons w vs ih =>
    rw [keyOffAll, ih, State.voice_setVoice]
    by_cases hv : v = w
    · subst hv
      by_cases hm : v ∈ vs <;> simp [hm, Voice.keyOff]
    · simp [hv]

/-- … and nothing else of the state. -/
theorem keyOffAll_rest (vs : List VoiceIx) (s : State) :
    { keyOffAll vs s with voices := s.voices } = s := by
  induction vs generalizing s with
  | nil => rfl
  | cons w vs ih =>
    have h := ih (s.setVoice w (s.voice w).keyOff)
    rw [keyOffAll]
    calc { keyOffAll vs (s.setVoice w (s.voice w).keyOff) with voices := s.voices }
        = { { keyOffAll vs (s.setVoice w (s.voice w).keyOff) with
              voices := (s.setVoice w (s.voice w).keyOff).voices } with voices := s.voices } := rfl
      _ = s := by rw [h]; rfl

end Sys2Proof.Machine
end

