-- ==== Sys2Proof/Laws/Exec.lean ====
section
/-! SUPPORT. What `exec` can do, said once: every transaction but key-on, key-off, TDATA, TICK and RESET either sets
one register of one voice or leaves voices, ENDX, RAM and OUT as they were. -/

namespace Sys2Proof.Machine

/-- From `s` to `t` neither a voice, ENDX, RAM, OUT, the stream nor the count of its words changes. -/
structure SameBlock (s t : State) : Prop where
  voices : t.voices = s.voices
  endx : t.endx = s.endx
  ram : t.ram = s.ram
  out : t.out = s.out
  stream : t.stream = s.stream
  pos : t.pos = s.pos

theorem SameBlock.voice {s t : State} (h : SameBlock s t) (v : VoiceIx) : t.voice v = s.voice v := by
  simp only [State.voice, h.voices]

/-- The transaction `i` sets one register of voice `v`, taking it from `x` to `y`. -/
def SetsRegister (i : Instr) (v : VoiceIx) (x y : Voice) : Prop :=
  ∃ d, (i = .wrVoll (vsel v) d ∧ isSweep d = false ∧ y = { x with voll := d }) ∨
    (i = .wrVolr (vsel v) d ∧ isSweep d = false ∧ y = { x with volr := d }) ∨
    (i = .wrPitch (vsel v) d ∧ y = { x with pitch := d }) ∨
    (i = .wrSaddr (vsel v) d ∧ y = { x with saddr := d }) ∨
    (i = .wrAdsrlo (vsel v) d ∧ y = { x with adsrLo := d }) ∨
    (i = .wrAdsrhi (vsel v) d ∧ y = { x with adsrHi := d }) ∨
    (i = .wrEnvx (vsel v) d ∧ y = { x with level := envxLevel d }) ∨
    (i = .wrRaddr (vsel v) d ∧ y = { x with raddr := d })

/-- A voice read changes `reads` alone. -/
theorem readVoice_next {n : BitVec 5} {s t : State} {get : Voice → Half} (h : readVoice n s get = .next t) :
    ∃ x, t = s.returnValue x := by
  obtain ⟨v, -, h⟩ := withVoice_next h
  exact ⟨_, (Host.Outcome.next.inj h).symm⟩

/-- A voice write sets one voice. -/
theorem writeVoice_next {n : BitVec 5} {s t : State} {put : Voice → Voice} (h : writeVoice n s put = .next t) :
    ∃ v, n = vsel v ∧ t = s.setVoice v (put (s.voice v)) := by
  obtain ⟨v, hv, h⟩ := withVoice_next h
  exact ⟨v, hv, (Host.Outcome.next.inj h).symm⟩

/-- A volume write sets one voice, or is refused. -/
theorem writeVolume_next {n : BitVec 5} {d : Half} {word : Word} {s t : State} {put : Voice → Voice}
    (h : writeVolume n d word s put = .next t) :
    (isSweep d = false ∧ ∃ v, n = vsel v ∧ t = s.setVoice v (put (s.voice v))) ∨ t = s.refuse .volumeSweep word := by
  unfold writeVolume at h
  split at h
  · obtain ⟨v, -, h⟩ := withVoice_next h
    exact .inr (Host.Outcome.next.inj h).symm
  · rename_i hs
    exact .inl ⟨by simpa using hs, writeVoice_next h⟩

theorem SameBlock.returnValue (s : State) (x : Half) : SameBlock s (s.returnValue x) := ⟨rfl, rfl, rfl, rfl, rfl, rfl⟩

theorem SameBlock.refuse (s : State) (r : RefusalReason) (w : Word) : SameBlock s (s.refuse r w) :=
  ⟨rfl, rfl, rfl, rfl, rfl, rfl⟩

/-- A transaction is one of the seven that do more, or sets one register of one voice, or changes nothing of the
block's voices, ENDX, RAM and OUT. -/
theorem exec_cases {i : Instr} {s t : State} (h : exec i s = .next t) :
    i = .tick ∨ i = .reset ∨ (∃ d, i = .wrKonlo d) ∨ (∃ d, i = .wrKonhi d) ∨ (∃ d, i = .wrKofflo d) ∨
      (∃ d, i = .wrKoffhi d) ∨ (∃ d, i = .wrTdata d) ∨
      (∃ v y, SetsRegister i v (s.voice v) y ∧ t = s.setVoice v y) ∨ SameBlock s t := by
  have sweep {d : Half} {w : Word} {u : State} (hu : SameBlock s u)
      (h : (if isSweep d then .next (s.refuse .volumeSweep w) else .next u : Answer) = .next t) : SameBlock s t := by
    split at h
    · cases h; exact .refuse _ _ _
    · cases h; exact hu
  cases i <;> simp only [reduceCtorEq, false_or, exists_false, Instr.wrKonlo.injEq, Instr.wrKonhi.injEq,
    Instr.wrKofflo.injEq, Instr.wrKoffhi.injEq, Instr.wrTdata.injEq, exists_eq', true_or, or_true]
  case wrVoll n d =>
    rcases writeVolume_next h with ⟨hs, v, rfl, rfl⟩ | rfl
    · exact .inl ⟨v, _, ⟨d, .inl ⟨rfl, hs, rfl⟩⟩, rfl⟩
    · exact .inr (.refuse _ _ _)
  case wrVolr n d =>
    rcases writeVolume_next h with ⟨hs, v, rfl, rfl⟩ | rfl
    · exact .inl ⟨v, _, ⟨d, .inr (.inl ⟨rfl, hs, rfl⟩)⟩, rfl⟩
    · exact .inr (.refuse _ _ _)
  case wrPitch n d =>
    unfold exec execWrPitch at h
    obtain ⟨v, rfl, rfl⟩ := writeVoice_next h
    exact .inl ⟨v, _, ⟨d, by simp⟩, rfl⟩
  case wrSaddr n d =>
    unfold exec execWrSaddr at h
    obtain ⟨v, rfl, rfl⟩ := writeVoice_next h
    exact .inl ⟨v, _, ⟨d, by simp⟩, rfl⟩
  case wrAdsrlo n d =>
    unfold exec execWrAdsrlo at h
    obtain ⟨v, rfl, rfl⟩ := writeVoice_next h
    exact .inl ⟨v, _, ⟨d, by simp⟩, rfl⟩
  case wrAdsrhi n d =>
    unfold exec execWrAdsrhi at h
    obtain ⟨v, rfl, rfl⟩ := writeVoice_next h
    exact .inl ⟨v, _, ⟨d, by simp⟩, rfl⟩
  case wrEnvx n d =>
    unfold exec execWrEnvx at h
    obtain ⟨v, rfl, rfl⟩ := writeVoice_next h
    exact .inl ⟨v, _, ⟨d, by simp⟩, rfl⟩
  case wrRaddr n d =>
    unfold exec execWrRaddr at h
    obtain ⟨v, rfl, rfl⟩ := writeVoice_next h
    exact .inl ⟨v, _, ⟨d, by simp⟩, rfl⟩
  case wrMvoll d =>
    unfold exec execWrMvoll at h
    exact .inr (sweep (u := { s with mvolL := d }) ⟨rfl, rfl, rfl, rfl, rfl, rfl⟩ h)
  case wrMvolr d =>
    unfold exec execWrMvolr at h
    exact .inr (sweep (u := { s with mvolR := d }) ⟨rfl, rfl, rfl, rfl, rfl, rfl⟩ h)
  all_goals
    simp only [exec, execRdVoll, execRdVolr, execRdPitch, execRdSaddr, execRdAdsrlo, execRdAdsrhi, execRdEnvx,
      execRdRaddr] at h
    first
      | (obtain ⟨x, rfl⟩ := readVoice_next h; exact .inr (.returnValue _ _))
      | (cases h; exact .inr ⟨rfl, rfl, rfl, rfl, rfl, rfl⟩)

end Sys2Proof.Machine
end

