-- ==== Sys2Proof/Laws/Host.lean ====
section
/-! SUPPORT. What the host's procedures issue and what one piece of a host stream can do, said once each. -/

namespace Sys2Proof.Machine

/-! The words of the RAM manager. -/

/-- The halfwords of an even number of bytes, each by its place. -/
theorem halfwords_eq : ∀ bytes : List Byte, bytes.length % 2 = 0 →
    halfwords bytes = (List.range (bytes.length / 2)).map fun j => bytes.getD (2 * j + 1) 0 ++ bytes.getD (2 * j) 0
  | [], _ => rfl
  | [_], h => absurd h (by simp)
  | lo :: hi :: bytes, h => by
    have ih := halfwords_eq bytes (by simp only [List.length_cons] at h; omega)
    have hl : (lo :: hi :: bytes).length / 2 = bytes.length / 2 + 1 := by simp only [List.length_cons]; omega
    rw [halfwords, ih, hl, List.range_succ_eq_map, List.map_cons, List.map_map]
    congr 1

theorem sampleData_length (bytes : List Byte) :
    (sampleData bytes).length = 16 * (sampleBlocks bytes.length).val := by
  have h : (sampleBlocks bytes.length).val = min ((bytes.length + 15) / 16) 32768 := rfl
  simp only [sampleData, List.length_append, List.length_take, List.length_replicate]
  omega

/-- Every byte placed is the sample's, or 0 past its end. -/
theorem sampleData_getD (bytes : List Byte) {k : Nat} (h : k < 16 * (sampleBlocks bytes.length).val) :
    (sampleData bytes).getD k 0 = bytes.getD k 0 := by
  simp only [sampleData, List.getD_eq_getElem?_getD, List.getElem?_append, List.length_take]
  split
  · rw [List.getElem?_take_of_lt h]
  · rw [List.getElem?_eq_none (l := bytes) (by omega), List.getElem?_replicate]
    split <;> rfl

/-- A transaction of a RAM upload writes TADDR or TDATA. -/
theorem mem_pseudoWram {units : Half} {hs : List Half} {i : Instr} (h : i ∈ pseudoWram units hs) :
    i = .wrTaddr units ∨ ∃ d, i = .wrTdata d := by
  simp only [pseudoWram, List.mem_cons, List.mem_map] at h
  rcases h with rfl | ⟨d, _, rfl⟩
  · exact .inl rfl
  · exact .inr ⟨d, rfl⟩

/-- Bit 15 of a volume that the host forms is clear (30_encoding.md R101). -/
theorem isSweep_fixedVolume (x : BitVec 15) : isSweep (fixedVolume x) = false := by
  show (0#1 ++ x).getLsbD 15 = false
  rw [BitVec.getLsbD_append]
  simp

/-! Addresses. -/

theorem redirect_even (count : BlockCount) (addr : Nat) : (redirect count addr).toNat % 2 = 0 := by
  have := count.isLt
  simp only [redirect, terminatorBlockIndexFor, Config.capBlocks] at *
  split <;> simp only [BitVec.toNat_ofNat] <;> omega

/-- The addresses the host writes: blocks of the sample, and the start of the terminator. -/
theorem insideSample_iff (count : BlockCount) (d : Half) :
    insideSample count d = true ↔
      d.toNat % 2 = 0 ∧ (d.toNat / 2 < count.val ∨ d.toNat = 2 * terminatorBlockIndexFor count) := by
  have := count.isLt
  have := d.isLt
  simp only [insideSample, redirect, terminatorBlockIndexFor, Config.capBlocks, decide_eq_true_eq,
    ← BitVec.toNat_inj] at *
  split <;> simp only [BitVec.toNat_ofNat] <;> omega

/-- What the redirection gives, it leaves as it is. -/
theorem insideSample_redirect (count : BlockCount) (addr : Nat) : insideSample count (redirect count addr) = true := by
  have := count.isLt
  rw [insideSample_iff]
  simp only [redirect, terminatorBlockIndexFor, Config.capBlocks] at *
  split <;> simp only [BitVec.toNat_ofNat] <;> omega

/-! The range check (R299). -/

/-- Checked parameters are in their ranges. -/
theorem RawParams.validate_inRange {ranges : OpenRanges} {r : RawParams} {p : Params}
    (h : r.validate ranges = some p) : p.inRange ranges = true :=
  (Option.filter_eq_some_iff.mp h).2

/-- A host that boots has everything in its range, and has issued nothing. -/
theorem HostState.boot_cases {ranges : OpenRanges} {raw : RawParams} {bend : Rat} {h : HostState}
    (hb : HostState.boot ranges raw bend = some h) :
    ∃ params, raw.validate ranges = some params ∧ ranges.bend bend = true ∧ h = HostState.start params bend := by
  obtain ⟨params, hv, hb⟩ := Option.bind_eq_some_iff.mp hb
  split at hb
  · exact ⟨params, hv, ‹_›, (Option.some.inj hb).symm⟩
  · cases hb

/-! The block as the host meets it. -/

/-- A read of ENVX returns what VoiceAlloc is given (R251). -/
theorem exec_rdEnvx_envx (s : State) (v : VoiceIx) :
    exec (.rdEnvx (vsel v)) s = .next (s.returnValue (s.envx v)) := by
  simp only [exec, execRdEnvx, readVoice, withVoice_vsel, State.envx]

/-- ENVX reads 0 exactly at level 0. -/
theorem State.envx_eq_zero (s : State) (v : VoiceIx) : s.envx v = 0 ↔ (s.voice v).level = 0 := by
  have := (s.voice v).level.isLt
  have hz : ∀ w, (0 : BitVec w).toNat = 0 := fun w => BitVec.toNat_zero
  simp only [State.envx, envxRead, ← BitVec.toNat_inj, BitVec.toNat_setWidth, hz]
  omega

/-- A block that is not halted performs a transaction as a step on its word. -/
theorem State.perform_next {s t : State} {i : Instr} (h : step (s.issue (encode i)) = .next t) : s.perform i = t := by
  simp only [State.perform, h]

/-- What the default VoiceAlloc picks (R296): the lowest voice that holds no note and whose level in the block is 0. -/
theorem defaultVoiceAlloc_cases {s : State} {h : HostState} {v : VoiceIx}
    (hv : defaultVoiceAlloc h s.envx = some v) :
    (h.holdsNote v = false ∧ (s.voice v).level = 0) ∧
      ∀ w, w < v → h.holdsNote w = true ∨ (s.voice w).level ≠ 0 := by
  have test (w : VoiceIx) :
      (!h.holdsNote w && decide (s.envx w = 0)) = true ↔ h.holdsNote w = false ∧ (s.voice w).level = 0 := by
    rw [Bool.and_eq_true, decide_eq_true_eq, State.envx_eq_zero, Bool.not_eq_true']
  obtain ⟨hp, before, rest, hl, hb⟩ := List.find?_eq_some_iff_append.mp hv
  refine ⟨(test v).mp hp, fun w hw => ?_⟩
  have hs := allVoices_sorted
  have hm := mem_allVoices w
  rw [hl, List.mem_append, List.mem_cons] at hm
  rw [hl] at hs
  have hm : w ∈ before := by
    rcases hm with hm | rfl | hm
    · exact hm
    · exact absurd hw (lt_irrefl _)
    · exact absurd (List.rel_of_pairwise_cons (List.pairwise_append.mp hs).2.1 hm) (lt_asymm hw)
  have hw : ¬ _ := mt (test w).mpr (Bool.not_eq_true _ ▸ (Bool.not_eq_true' _).mp (hb w hm))
  rw [not_and_or, Bool.not_eq_false] at hw
  exact hw

/-! The duties. -/

/-- What a permitted transaction is (R298, R299). -/
theorem hostMay_cases {h : HostState} {i : Instr} (m : hostMay h i = true) :
    i.wellFormed = true ∧ keepsDuty h.blockCount i = true ∧ writesMasterMix i = false ∧ writesRam i = false ∧
      (keysOn i = false ∨ h.mayKeyOn = true) := by
  unfold hostMay at m
  generalize i.wellFormed = a at *
  generalize keepsDuty h.blockCount i = b at *
  generalize writesMasterMix i = c at *
  generalize writesRam i = d at *
  generalize keysOn i = e at *
  generalize h.mayKeyOn = f at *
  revert a b c d e f
  decide

/-- No event touches what the duties rest on. -/
theorem onEvent_keeps (laws : HostLaws) (envx : VoiceIx → Half) (h : HostState) (e : Event) :
    (onEvent laws envx h e).2.initialized = h.initialized ∧ (onEvent laws envx h e).2.stage = h.stage ∧
      (onEvent laws envx h e).2.blockCount = h.blockCount := by
  cases e with
  | noteOn n v => simp only [onEvent]; split <;> exact ⟨rfl, rfl, rfl⟩
  | noteOff n => exact ⟨rfl, rfl, rfl⟩
  | pitchBend b => simp only [onEvent]; split <;> exact ⟨rfl, rfl, rfl⟩
  | controlChange c v => exact ⟨rfl, rfl, rfl⟩

theorem onEvents_keeps (laws : HostLaws) (envx : VoiceIx → Half) (h : HostState) (es : List Event) :
    (onEvents laws envx h es).2.initialized = h.initialized ∧ (onEvents laws envx h es).2.stage = h.stage ∧
      (onEvents laws envx h es).2.blockCount = h.blockCount := by
  induction es generalizing h with
  | nil => exact ⟨rfl, rfl, rfl⟩
  | cons e es ih =>
    obtain ⟨h1, h2, h3⟩ := ih (onEvent laws envx h e).2
    obtain ⟨k1, k2, k3⟩ := onEvent_keeps laws envx h e
    exact ⟨h1.trans k1, h2.trans k2, h3.trans k3⟩

/-- What a permitted piece is: the initialization, a sample, a terminator, new parameters, or permitted transactions
that leave what the duties rest on as it was. -/
theorem Piece.permitted_cases {laws : HostLaws} {s : State} {h : HostState} {p : Piece} (hp : p.permitted laws s h = true) :
    (p = .control .init ∧ h.initialized = false) ∨ (∃ bytes, p = .control (.writeSample bytes)) ∨
      p = .control .placeTerminator ∨ (∃ raw, p = .control (.params raw)) ∨
      ((∀ i ∈ (p.issue laws s h).1, hostMay h i = true) ∧ (p.issue laws s h).2.initialized = h.initialized ∧
        (p.issue laws s h).2.stage = h.stage ∧ (p.issue laws s h).2.blockCount = h.blockCount) := by
  cases p with
  | control g =>
    cases g with
    | init => exact .inl ⟨rfl, by simpa [Piece.permitted, HostGroup.permitted] using hp⟩
    | writeSample bytes => exact .inr (.inl ⟨bytes, rfl⟩)
    | placeTerminator => exact .inr (.inr (.inl rfl))
    | params raw => exact .inr (.inr (.inr (.inl ⟨raw, rfl⟩)))
    | update words =>
      refine .inr (.inr (.inr (.inr ⟨fun i hi => ?_, rfl, rfl, rfl⟩)))
      have := List.all_eq_true.mp hp i hi
      rw [Bool.and_eq_true] at this
      exact this.1
  | audio b =>
    exact .inr (.inr (.inr (.inr ⟨List.all_eq_true.mp hp, onEvents_keeps laws s.envx h b.events⟩)))

/-- The stream of a list of pieces, piece by piece. -/
theorem hostRun_cons {laws : HostLaws} {s : State} {h : HostState} {p : Piece} {ps : List Piece} {stream : List Instr}
    (hr : hostRun laws s h (p :: ps) = some stream) :
    p.permitted laws s h = true ∧
      ∃ rest, hostRun laws (s.performAll (p.issue laws s h).1) (p.issue laws s h).2 ps = some rest ∧ stream = (p.issue laws s h).1 ++ rest := by
  rw [hostRun] at hr
  split at hr
  · obtain ⟨rest, h1, h2⟩ := Option.map_eq_some_iff.mp hr
    exact ⟨‹_›, rest, h1, h2.symm⟩
  · cases hr

end Sys2Proof.Machine
end

