-- ==== Sys2Proof/Laws/Memory.lean ====
section
/-! SUPPORT. RAM: read after write, and the canonical form. -/

namespace Sys2Proof.Machine

@[simp] theorem Memory.read_nil (a : Nat) : Memory.read [] a = none := rfl

theorem Memory.read_cons (b : Nat) (y : Byte) (m : Memory) (a : Nat) :
    Memory.read ((b, y) :: m) a = if a = b then some y else Memory.read m a := rfl

/-- What reading gives after a one-byte write. -/
theorem Memory.read_write (m : Memory) (a : Nat) (x : Byte) (b : Nat) :
    (m.write a x).read b = if b = a then some x else m.read b := by
  induction m with
  | nil => simp [Memory.write, Memory.read_cons]
  | cons c m ih =>
    obtain ⟨c, y⟩ := c
    simp only [Memory.write]
    split
    · simp [Memory.read_cons]
    · split
      · subst a
        simp only [Memory.read_cons]
        split <;> rfl
      · simp only [Memory.read_cons, ih]
        by_cases hbc : b = c
        · subst hbc
          simp [Ne.symm ‹¬ a = b›]
        · simp [hbc]

/-- An address below every listed one reads as nothing. -/
theorem Memory.read_below {m : Memory} {a : Nat} (h : ∀ q ∈ m, a < q.1) : m.read a = none := by
  induction m with
  | nil => rfl
  | cons c m ih =>
    obtain ⟨c, y⟩ := c
    have : a < c := h _ (List.mem_cons_self ..)
    rw [Memory.read_cons, if_neg (by omega)]
    exact ih fun q hq => h q (List.mem_cons_of_mem _ hq)

/-- Writing keeps addresses above a bound above it. -/
theorem Memory.write_mem (m : Memory) (a : Nat) (x : Byte) {c : Host.Cell} (h : c ∈ m.write a x) :
    c = (a, x) ∨ c ∈ m := by
  induction m with
  | nil => simpa [Memory.write] using h
  | cons d m ih =>
    simp only [Memory.write] at h
    split at h
    · simpa using h
    · split at h
      · simp only [List.mem_cons] at h ⊢; tauto
      · simp only [List.mem_cons] at h ⊢
        rcases h with h | h
        · exact .inr (.inl h)
        · rcases ih h with h | h
          · exact .inl h
          · exact .inr (.inr h)

/-- A write inside the arena keeps the canonical form. -/
theorem Memory.write_wf {m : Memory} {a : Nat} (x : Byte) (h : m.wf = true) (ha : a < Config.ramBytes) :
    (m.write a x).wf = true := by
  induction m with
  | nil => simp_all [Memory.write, Memory.wf]
  | cons c m ih =>
    obtain ⟨b, y⟩ := c
    simp only [Memory.wf, Bool.and_eq_true, decide_eq_true_eq, List.pairwise_cons, List.all_cons] at h
    have ih := ih (by simp only [Memory.wf, Bool.and_eq_true, decide_eq_true_eq]; exact ⟨h.1.2, h.2.2⟩)
    simp only [Memory.wf, Bool.and_eq_true, decide_eq_true_eq] at ih
    simp only [Memory.write]
    split
    · simp only [Memory.wf, Bool.and_eq_true, decide_eq_true_eq, List.pairwise_cons, List.all_cons, List.mem_cons]
      refine ⟨⟨?_, h.1⟩, ha, h.2⟩
      rintro c (rfl | hc)
      · assumption
      · exact Nat.lt_trans ‹_› (h.1.1 c hc)
    · split
      · subst a
        simp only [Memory.wf, Bool.and_eq_true, decide_eq_true_eq, List.pairwise_cons, List.all_cons]
        exact ⟨h.1, h.2⟩
      · simp only [Memory.wf, Bool.and_eq_true, decide_eq_true_eq, List.pairwise_cons, List.all_cons]
        refine ⟨⟨?_, ih.1⟩, h.2.1, ih.2⟩
        intro c hc
        rcases Memory.write_mem m a x hc with rfl | hc
        · exact Nat.lt_of_le_of_ne (Nat.le_of_not_lt ‹_›) (Ne.symm ‹_›)
        · exact h.1.1 c hc

/-- A halfword write keeps the canonical form. -/
theorem Memory.write16_wf {m : Memory} (ptr : RamAddr) (d : Half) (h : m.wf = true) :
    (m.write16 ptr d).wf = true := by
  have h1 := Memory.write_wf (d.extractLsb' 0 8) h (show ptr.toNat < Config.ramBytes from ptr.isLt)
  exact Memory.write_wf _ h1 (Nat.mod_lt _ (by decide))

/-- What reading gives after a halfword write (R63, R64). -/
theorem Memory.read_write16 (m : Memory) (ptr : RamAddr) (d : Half) (a : Nat) :
    (m.write16 ptr d).read a =
      if a = (ptr.toNat + 1) % Config.ramBytes then some (d.extractLsb' 8 8)
      else if a = ptr.toNat then some (d.extractLsb' 0 8)
      else m.read a := by
  rw [Memory.write16, Memory.read_write, Memory.read_write]

/-- Two canonical memories that read the same everywhere are equal. -/
theorem Memory.ext_read : ∀ {m n : Memory}, m.wf = true → n.wf = true → (∀ a, m.read a = n.read a) → m = n
  | [], [], _, _, _ => rfl
  | [], (b, y) :: n, _, _, h => by simpa [Memory.read_cons] using h b
  | (b, y) :: m, [], _, _, h => by simpa [Memory.read_cons] using h b
  | (b, y) :: m, (c, z) :: n, hm, hn, h => by
    simp only [Memory.wf, Bool.and_eq_true, decide_eq_true_eq, List.pairwise_cons, List.all_cons] at hm hn
    have hb := h b
    have hc := h c
    simp only [Memory.read_cons, if_true] at hb hc
    have hbc : b = c := by
      rcases Nat.lt_trichotomy b c with hlt | heq | hlt
      · rw [if_neg (by omega), Memory.read_below fun q hq => Nat.lt_trans hlt (hn.1.1 q hq)] at hb
        cases hb
      · exact heq
      · rw [if_neg (by omega), Memory.read_below fun q hq => Nat.lt_trans hlt (hm.1.1 q hq)] at hc
        cases hc
    subst hbc
    have hyz : y = z := by simpa using hb
    subst hyz
    have : m = n := by
      refine Memory.ext_read ?_ ?_ fun a => ?_
      · simp only [Memory.wf, Bool.and_eq_true, decide_eq_true_eq]; exact ⟨hm.1.2, hm.2.2⟩
      · simp only [Memory.wf, Bool.and_eq_true, decide_eq_true_eq]; exact ⟨hn.1.2, hn.2.2⟩
      · by_cases ha : a = b
        · subst ha
          rw [Memory.read_below hm.1.1, Memory.read_below hn.1.1]
        · simpa [Memory.read_cons, ha] using h a
    rw [this]

/-- T.ptr stays even (20_memory.md R65 b). -/
theorem tptrNext_even {p : RamAddr} (h : p.toNat % 2 = 0) : (tptrNext p).toNat % 2 = 0 := by
  simp only [tptrNext, BitVec.toNat_ofNat, Config.ramBytes]
  omega

end Sys2Proof.Machine
end

