-- ==== Sys2Proof/Laws/PerInstr.lean ====
section
/-! SUPPORT. Statements for all instructions, one lemma a constructor. -/

namespace Sys2Proof.Laws.ReservedField

/-- The encoder leaves RSV (bits 29:25) zero (spec/30_encoding.md R92), so no encoded instruction is refused for its
reserved bits. -/
def Statement (i : Instr) : Prop := rsvOf (encode i) = 0

theorem wrVoll (v : BitVec 5) (d : Half) : Statement (.wrVoll v d) := rsvOf_packReg _ _ _

theorem rdVoll (v : BitVec 5) : Statement (.rdVoll v) := rsvOf_packReg _ _ _

theorem wrVolr (v : BitVec 5) (d : Half) : Statement (.wrVolr v d) := rsvOf_packReg _ _ _

theorem rdVolr (v : BitVec 5) : Statement (.rdVolr v) := rsvOf_packReg _ _ _

theorem wrPitch (v : BitVec 5) (d : Half) : Statement (.wrPitch v d) := rsvOf_packReg _ _ _

theorem rdPitch (v : BitVec 5) : Statement (.rdPitch v) := rsvOf_packReg _ _ _

theorem wrSaddr (v : BitVec 5) (d : Half) : Statement (.wrSaddr v d) := rsvOf_packReg _ _ _

theorem rdSaddr (v : BitVec 5) : Statement (.rdSaddr v) := rsvOf_packReg _ _ _

theorem wrAdsrlo (v : BitVec 5) (d : Half) : Statement (.wrAdsrlo v d) := rsvOf_packReg _ _ _

theorem rdAdsrlo (v : BitVec 5) : Statement (.rdAdsrlo v) := rsvOf_packReg _ _ _

theorem wrAdsrhi (v : BitVec 5) (d : Half) : Statement (.wrAdsrhi v d) := rsvOf_packReg _ _ _

theorem rdAdsrhi (v : BitVec 5) : Statement (.rdAdsrhi v) := rsvOf_packReg _ _ _

theorem wrEnvx (v : BitVec 5) (d : Half) : Statement (.wrEnvx v d) := rsvOf_packReg _ _ _

theorem rdEnvx (v : BitVec 5) : Statement (.rdEnvx v) := rsvOf_packReg _ _ _

theorem wrRaddr (v : BitVec 5) (d : Half) : Statement (.wrRaddr v d) := rsvOf_packReg _ _ _

theorem rdRaddr (v : BitVec 5) : Statement (.rdRaddr v) := rsvOf_packReg _ _ _

theorem wrMvoll (d : Half) : Statement (.wrMvoll d) := rsvOf_packReg _ _ _

theorem rdMvoll : Statement .rdMvoll := rsvOf_packReg _ _ _

theorem wrMvolr (d : Half) : Statement (.wrMvolr d) := rsvOf_packReg _ _ _

theorem rdMvolr : Statement .rdMvolr := rsvOf_packReg _ _ _

theorem wrEvoll (d : Half) : Statement (.wrEvoll d) := rsvOf_packReg _ _ _

theorem rdEvoll : Statement .rdEvoll := rsvOf_packReg _ _ _

theorem wrEvolr (d : Half) : Statement (.wrEvolr d) := rsvOf_packReg _ _ _

theorem rdEvolr : Statement .rdEvolr := rsvOf_packReg _ _ _

theorem wrKonlo (d : Half) : Statement (.wrKonlo d) := rsvOf_packReg _ _ _

theorem rdKonlo : Statement .rdKonlo := rsvOf_packReg _ _ _

theorem wrKonhi (d : Half) : Statement (.wrKonhi d) := rsvOf_packReg _ _ _

theorem rdKonhi : Statement .rdKonhi := rsvOf_packReg _ _ _

theorem wrKofflo (d : Half) : Statement (.wrKofflo d) := rsvOf_packReg _ _ _

theorem rdKofflo : Statement .rdKofflo := rsvOf_packReg _ _ _

theorem wrKoffhi (d : Half) : Statement (.wrKoffhi d) := rsvOf_packReg _ _ _

theorem rdKoffhi : Statement .rdKoffhi := rsvOf_packReg _ _ _

theorem wrEndxlo (d : Half) : Statement (.wrEndxlo d) := rsvOf_packReg _ _ _

theorem rdEndxlo : Statement .rdEndxlo := rsvOf_packReg _ _ _

theorem wrEndxhi (d : Half) : Statement (.wrEndxhi d) := rsvOf_packReg _ _ _

theorem rdEndxhi : Statement .rdEndxhi := rsvOf_packReg _ _ _

theorem wrTaddr (d : Half) : Statement (.wrTaddr d) := rsvOf_packReg _ _ _

theorem rdTaddr : Statement .rdTaddr := rsvOf_packReg _ _ _

theorem wrTdata (d : Half) : Statement (.wrTdata d) := rsvOf_packReg _ _ _

theorem rdTdata : Statement .rdTdata := rsvOf_packReg _ _ _

theorem wrExtvoll (d : Half) : Statement (.wrExtvoll d) := rsvOf_packReg _ _ _

theorem rdExtvoll : Statement .rdExtvoll := rsvOf_packReg _ _ _

theorem wrExtvolr (d : Half) : Statement (.wrExtvolr d) := rsvOf_packReg _ _ _

theorem rdExtvolr : Statement .rdExtvolr := rsvOf_packReg _ _ _

theorem tick : Statement .tick := by unfold Statement; decide

theorem reset : Statement .reset := by unfold Statement; decide

end Sys2Proof.Laws.ReservedField
end

