-- ==== Sys2Proof/Laws/Tick.lean ====
section
/-! SUPPORT. What TICK does to one voice, in the words of Safety.lean: the whole of `tickVoice` in two cases. -/

namespace Sys2Proof.Machine

/-- The phase check changes phase and wait counter only. -/
theorem Voice.phaseCheck_other (x : Voice) :
    { x.phaseCheck with phase := x.phase, envcnt := x.envcnt } = x := by
  unfold Voice.phaseCheck
  split <;> (try split) <;> rfl

/-- The envelope step changes level and wait counter only. -/
theorem Voice.envStep_other (x : Voice) (r : EnvRow) :
    { x.envStep r with level := x.level, envcnt := x.envcnt } = x := by
  unfold Voice.envStep
  split <;> rfl

/-- An envelope tick changes phase, level and wait counter only. -/
theorem Voice.envTick_other (x : Voice) :
    { x.envTick with phase := x.phase, level := x.level, envcnt := x.envcnt } = x := by
  unfold Voice.envTick
  split
  · rfl
  · rename_i r _
    have h1 := (x.envStep r).phaseCheck_other
    have h2 := x.envStep_other r
    obtain ⟨⟩ := x
    revert h1 h2
    generalize Voice.envStep _ r = y
    obtain ⟨⟩ := y
    generalize Voice.phaseCheck _ = z
    obtain ⟨⟩ := z
    simp only [Voice.mk.injEq, and_true, true_and]
    intro h1 h2
    simp_all

@[simp] theorem Voice.envTick_voll (x : Voice) : x.envTick.voll = x.voll := by
  have h := congrArg Voice.voll x.envTick_other; exact h
@[simp] theorem Voice.envTick_volr (x : Voice) : x.envTick.volr = x.volr := by
  have h := congrArg Voice.volr x.envTick_other; exact h
@[simp] theorem Voice.envTick_pitch (x : Voice) : x.envTick.pitch = x.pitch := by
  have h := congrArg Voice.pitch x.envTick_other; exact h
@[simp] theorem Voice.envTick_saddr (x : Voice) : x.envTick.saddr = x.saddr := by
  have h := congrArg Voice.saddr x.envTick_other; exact h
@[simp] theorem Voice.envTick_adsrLo (x : Voice) : x.envTick.adsrLo = x.adsrLo := by
  have h := congrArg Voice.adsrLo x.envTick_other; exact h
@[simp] theorem Voice.envTick_adsrHi (x : Voice) : x.envTick.adsrHi = x.adsrHi := by
  have h := congrArg Voice.adsrHi x.envTick_other; exact h
@[simp] theorem Voice.envTick_raddr (x : Voice) : x.envTick.raddr = x.raddr := by
  have h := congrArg Voice.raddr x.envTick_other; exact h
@[simp] theorem Voice.envTick_cur (x : Voice) : x.envTick.cur = x.cur := by
  have h := congrArg Voice.cur x.envTick_other; exact h
@[simp] theorem Voice.envTick_ctr (x : Voice) : x.envTick.ctr = x.ctr := by
  have h := congrArg Voice.ctr x.envTick_other; exact h
@[simp] theorem Voice.envTick_buf (x : Voice) : x.envTick.buf = x.buf := by
  have h := congrArg Voice.buf x.envTick_other; exact h
@[simp] theorem Voice.envTick_flags (x : Voice) : x.envTick.flags = x.flags := by
  have h := congrArg Voice.flags x.envTick_other; exact h
@[simp] theorem Voice.envTick_old (x : Voice) : x.envTick.old = x.old := by
  have h := congrArg Voice.old x.envTick_other; exact h
@[simp] theorem Voice.envTick_older (x : Voice) : x.envTick.older = x.older := by
  have h := congrArg Voice.older x.envTick_other; exact h

theorem Voice.envTick_eq (x : Voice) : ∃ p l c, x.envTick = { x with phase := p, level := l, envcnt := c } := by
  have h := x.envTick_other
  refine ⟨x.envTick.phase, x.envTick.level, x.envTick.envcnt, ?_⟩
  generalize x.envTick = y at h ⊢
  obtain ⟨⟩ := x
  obtain ⟨⟩ := y
  simp only [Voice.mk.injEq] at h ⊢
  simp only [h, and_self]

/-- An Off voice's envelope does nothing (R170). -/
theorem Voice.envTick_off {x : Voice} (h : x.phase = .off) : x.envTick = x := by
  simp [Voice.envTick, envRow, h]

/-! The terms of the sums. -/

/-- The sample index is the whole part of the counter (10_state.md R28). -/
theorem Voice.sampleIx_eq (x : Voice) : x.sampleIx = x.ctr.toNat / 4096 := by
  have := x.ctr.isLt
  simp only [Voice.sampleIx, BitVec.extractLsb'_toNat, Nat.shiftRight_eq_div_pow]
  omega

/-- An active voice's terms, as claims give them. -/
theorem mixTerms_eq {x : Voice} (h : x.phase ≠ .off) : mixTerms x = (x.termL, x.termR) := by
  have key : interpSample x x.sampleIx x.frac
      = x.buf[x.ctr.toNat / 4096]?.getD (Config.sampleBeyondBlock x.ctr) := by
    rw [interpSample, Voice.sampleIx_eq]
    split
    · rw [Vector.getElem?_eq_getElem ‹_›]; rfl
    · rw [Vector.getElem?_eq_none (by omega)]; rfl
  simp only [mixTerms, if_neg h, Voice.termL, Voice.termR, Voice.enveloped, asr, key]

/-- The frame of a tick, as claims give it, is the master volume over the two sums. -/
theorem tickFrame_eq (s : State) :
    tickFrame s =
      ⟨masterOut (allVoices.map fun v => (mixTerms (s.voice v)).1).sum s.mvolL,
        masterOut (allVoices.map fun v => (mixTerms (s.voice v)).2).sum s.mvolR⟩ := by
  simp only [tickFrame, masterOut, asr, toSample, clamp16_eq_sat16]

/-! One voice of a tick. -/

/-- The part of a tick before the fetch: ENDX where the voice passes a loop end. -/
def endxMarked (s : State) (v : VoiceIx) : State := if passesLoopEnd (s.voice v) then s.markEndx v else s

@[simp] theorem endxMarked_voice (s : State) (v w : VoiceIx) : (endxMarked s v).voice w = s.voice w := by
  rw [endxMarked]; split <;> rfl

theorem endxMarked_endx (s : State) (v w : VoiceIx) :
    (endxMarked s v).endx.getLsbD w.val =
      (s.endx.getLsbD w.val || (decide (w = v) && passesLoopEnd (s.voice v))) := by
  rw [endxMarked]; split
  · rw [State.markEndx_endx, endxSet_getLsbD]; simp [*]
  · simp_all

theorem endxMarked_onlyVoices (s : State) (v : VoiceIx) : OnlyVoices (· = v) s (endxMarked s v) := by
  rw [endxMarked]; split
  · exact OnlyVoices.markEndx s v
  · exact OnlyVoices.refl _ s

@[simp] theorem endxMarked_faults (s : State) (v : VoiceIx) : (endxMarked s v).faults = s.faults := by
  rw [endxMarked]; split <;> rfl

@[simp] theorem endxMarked_pos (s : State) (v : VoiceIx) : (endxMarked s v).pos = s.pos := by
  rw [endxMarked]; split <;> rfl

theorem passesBlockEnd_iff {x : Voice} (h : x.phase ≠ .off) :
    passesBlockEnd x = true ↔ x.envTick.ctrSum ≥ Config.blockEndCtr := by
  simp [passesBlockEnd, Voice.ctrSum, Config.blockEndCtr, Config.pitchMax, h]

/-- Setting the counter sets nothing else. -/
@[simp] theorem Voice.withCtr_flags (x : Voice) (n : Nat) : (x.withCtr n).flags = x.flags := rfl

/-- ENDX and the voices are set independently. -/
theorem State.markEndx_setVoice (s : State) (v w : VoiceIx) (x : Voice) :
    (s.setVoice w x).markEndx v = (s.markEndx v).setVoice w x := rfl

/-- An active voice that passes no block end. -/
theorem movedVoice_inBlock {x : Voice} (h : x.phase ≠ .off) (hp : passesBlockEnd x = false) :
    movedVoice x = x.envTick.withCtr x.envTick.ctrSum := by
  obtain ⟨p, l, c, he⟩ := x.envTick_eq
  rw [movedVoice, envelopeTicked_eq_envTick, if_neg h, if_pos hp]
  simp only [Voice.withCtr, Voice.ctrSum, he]

/-- Up to the fetch, an active voice that passes its block end. -/
theorem movedVoice_blockEnd {x : Voice} (h : x.phase ≠ .off) (hp : passesBlockEnd x = true) :
    movedVoice x =
      if loopEnd x.flags then (x.envTick.withCtr (x.envTick.ctrSum - Config.blockEndCtr)).loopBack
      else (x.envTick.withCtr (x.envTick.ctrSum - Config.blockEndCtr)).nextBlock := by
  obtain ⟨p, l, c, he⟩ := x.envTick_eq
  have h28 : Config.blockEndCtr = 28 * 4096 := rfl
  rw [movedVoice, envelopeTicked_eq_envTick, if_neg h, if_neg (by simp [hp]), h28]
  simp only [loopEnd, Voice.loopBack, Voice.withCtr, loopRepeat, Voice.ctrSum, Voice.nextBlock, blockEndTarget, he,
    byteAddr]
  cases x.flags.getLsbD 0 <;> cases x.flags.getLsbD 1 <;> rfl

/-- An active voice in a tick: the advance after the envelope step, up to the fetch. -/
theorem advance_envTick {s : State} {v : VoiceIx} (word : Word) (h : (s.voice v).phase ≠ .off) :
    advance word v (s.setVoice v (s.voice v).envTick) =
      if passesBlockEnd (s.voice v) then
        fetchBlock word v ((endxMarked s v).setVoice v (movedVoice (s.voice v)))
      else .done (s.setVoice v (movedVoice (s.voice v))) := by
  have hx := passesBlockEnd_iff h
  rw [advance]
  simp only [State.voice_setVoice_same, State.setVoice_setVoice]
  by_cases hp : passesBlockEnd (s.voice v) = true
  · rw [if_pos (hx.mp hp), if_pos hp, blockEnd, movedVoice_blockEnd h hp]
    generalize (s.voice v).envTick.ctrSum - Config.blockEndCtr = n
    rw [State.voice_setVoice_same, Voice.withCtr_flags, Voice.envTick_flags]
    by_cases h0 : loopEnd (s.voice v).flags = true
    · have : passesLoopEnd (s.voice v) = true := by simp only [passesLoopEnd, hp, Bool.true_and]; exact h0
      rw [if_pos h0, if_pos h0, endxMarked, if_pos this]
      rw [State.markEndx_setVoice, State.setVoice_setVoice]
    · have : ¬ passesLoopEnd (s.voice v) = true := by simp only [passesLoopEnd, hp, Bool.true_and]; exact h0
      rw [if_neg h0, if_neg h0, endxMarked, if_neg this, State.setVoice_setVoice]
  · rw [if_neg fun hc => hp (hx.mpr hc), if_neg hp, movedVoice_inBlock h (by simpa using hp)]

/-- The address a voice has before a fetch of a tick. -/
theorem movedVoice_cur {x : Voice} (hp : passesBlockEnd x = true) :
    (movedVoice x).cur = BitVec.ofNat 19 (blockEndTarget x) ∧ blockEndTarget x < 524288 := by
  have h : x.phase ≠ .off := by intro h; simp [passesBlockEnd, h] at hp
  constructor
  · rw [movedVoice, if_neg h]
    simp only [hp, Bool.true_eq_false, if_false]
    split <;> rfl
  · rw [blockEndTarget]
    have := x.raddr.isLt
    split <;> omega

/-- One voice of a tick that goes to no misaligned block. -/
theorem tickVoice_done {m : Mix} {v : VoiceIx} (word : Word) (h : tickMisaligned (m.s.voice v) = false) :
    tickVoice word v m =
      .done ⟨m.accL + (mixTerms (m.s.voice v)).1, m.accR + (mixTerms (m.s.voice v)).2,
        (endxMarked m.s v).setVoice v (tickedVoice m.s v)⟩ := by
  obtain ⟨aL, aR, s⟩ := m
  simp only at h ⊢
  rw [tickVoice]
  by_cases hoff : (s.voice v).phase = .off
  · have hp : passesBlockEnd (s.voice v) = false := by simp [passesBlockEnd, hoff]
    have : tickedVoice s v = s.voice v := by simp [tickedVoice, hp, movedVoice, hoff]
    have h2 : endxMarked s v = s := by simp [endxMarked, passesLoopEnd, hp]
    simp [hoff, mixTerms, this, h2]
  · rw [if_neg hoff, advance_envTick word hoff, mixTerms_eq hoff]
    by_cases hp : passesBlockEnd (s.voice v) = true
    · obtain ⟨hc, hlt⟩ := movedVoice_cur hp
      have ha : blockEndTarget (s.voice v) % 16 = 0 := by simpa [tickMisaligned, hp] using h
      rw [if_pos hp, fetchBlock_aligned]
      · simp only [State.voice_setVoice_same, State.setVoice_setVoice, tickedVoice, if_pos hp]
        rw [(OnlyVoices.setVoice _ v _).fetchedVoice, (endxMarked_onlyVoices s v).fetchedVoice]
      · rw [State.voice_setVoice_same, hc, BitVec.toNat_ofNat, Nat.mod_eq_of_lt (show blockEndTarget (s.voice v) < 2 ^ 19 from hlt)]
        exact ha
    · rw [if_neg hp]
      simp only [Bool.not_eq_true] at hp
      simp [tickedVoice, endxMarked, passesLoopEnd, hp]

/-- One voice of a tick that goes to a misaligned block. -/
theorem tickVoice_stopped {m : Mix} {v : VoiceIx} (word : Word) (h : tickMisaligned (m.s.voice v) = true) :
    tickVoice word v m =
      .stopped (((endxMarked m.s v).setVoice v (movedVoice (m.s.voice v))).misaligned v
        (BitVec.ofNat 19 (blockEndTarget (m.s.voice v))) word) := by
  obtain ⟨aL, aR, s⟩ := m
  simp only at h ⊢
  have hp : passesBlockEnd (s.voice v) = true := by
    simp only [tickMisaligned, Bool.and_eq_true] at h; exact h.1
  have hoff : (s.voice v).phase ≠ .off := by intro h; simp [passesBlockEnd, h] at hp
  obtain ⟨hc, hlt⟩ := movedVoice_cur hp
  have ha : blockEndTarget (s.voice v) % 16 ≠ 0 := by simpa [tickMisaligned, hp] using h
  rw [tickVoice, if_neg hoff, advance_envTick word hoff, if_pos hp, fetchBlock_misaligned]
  · simp only [State.voice_setVoice_same, hc]
  · rw [State.voice_setVoice_same, hc, BitVec.toNat_ofNat, Nat.mod_eq_of_lt (show blockEndTarget (s.voice v) < 2 ^ 19 from hlt)]
    exact ha

/-- `tickedVoice` and the other pictures of a voice read that voice and the RAM only. -/
theorem OnlyVoices.tickedVoice {p : VoiceIx → Prop} {s t : State} (h : OnlyVoices p s t) {v : VoiceIx} (hv : ¬ p v) :
    Machine.tickedVoice t v = Machine.tickedVoice s v := by
  simp only [Machine.tickedVoice, h.voice v hv, h.fetchedVoice]

/-- A tick changes voices, ENDX and FAULTS only, before it emits. -/
theorem tickVoices_onlyVoices (word : Word) (vs : List VoiceIx) (m : Mix) :
    (∃ m', tickVoices word vs m = .done m' ∧ OnlyVoices (· ∈ vs) m.s m'.s) ∨
      ∃ s', tickVoices word vs m = .stopped s' ∧ OnlyVoices (· ∈ vs) m.s s' := by
  induction vs generalizing m with
  | nil => exact .inl ⟨m, rfl, OnlyVoices.refl _ _⟩
  | cons v vs ih =>
    rw [tickVoices]
    cases h : tickMisaligned (m.s.voice v) with
    | true =>
      refine .inr ⟨_, by rw [tickVoice_stopped word h], ?_⟩
      exact (((endxMarked_onlyVoices m.s v).trans (OnlyVoices.setVoice _ v _)).trans
        (OnlyVoices.misaligned _ _ _ _ _)).mono (by simp +contextual)
    | false =>
      rw [tickVoice_done word h]
      have hs : OnlyVoices (· ∈ v :: vs) m.s ((endxMarked m.s v).setVoice v (Machine.tickedVoice m.s v)) :=
        ((endxMarked_onlyVoices m.s v).trans (OnlyVoices.setVoice _ v _)).mono (by simp +contextual)
      rcases ih ⟨m.accL + (mixTerms (m.s.voice v)).1, m.accR + (mixTerms (m.s.voice v)).2,
          (endxMarked m.s v).setVoice v (Machine.tickedVoice m.s v)⟩ with ⟨m', h1, h2⟩ | ⟨s', h1, h2⟩
      · exact .inl ⟨m', h1, hs.trans (h2.mono (by simp +contextual))⟩
      · exact .inr ⟨s', h1, hs.trans (h2.mono (by simp +contextual))⟩

/-! The whole loop. -/

/-- What the loop leaves when no voice of it goes to a misaligned block. -/
theorem tickVoices_done (word : Word) {vs : List VoiceIx} (hn : vs.Nodup) {m : Mix}
    (h : ∀ v ∈ vs, tickMisaligned (m.s.voice v) = false) :
    ∃ t, tickVoices word vs m =
        .done ⟨m.accL + (vs.map fun v => (mixTerms (m.s.voice v)).1).sum,
          m.accR + (vs.map fun v => (mixTerms (m.s.voice v)).2).sum, t⟩ ∧
      OnlyVoices (· ∈ vs) m.s t ∧ (∀ v ∈ vs, t.voice v = Machine.tickedVoice m.s v) ∧
      (∀ w : VoiceIx, t.endx.getLsbD w.val =
        (m.s.endx.getLsbD w.val || (decide (w ∈ vs) && passesLoopEnd (m.s.voice w)))) ∧
      t.faults = m.s.faults := by
  induction vs generalizing m with
  | nil => exact ⟨m.s, by simp [tickVoices], OnlyVoices.refl _ _, by simp, by simp, rfl⟩
  | cons v vs ih =>
    obtain ⟨hv, hn⟩ := List.nodup_cons.mp hn
    have hne : ∀ w ∈ vs, ¬ w = v := fun w hw h => hv (h ▸ hw)
    have ho : OnlyVoices (· = v) m.s ((endxMarked m.s v).setVoice v (Machine.tickedVoice m.s v)) :=
      (endxMarked_onlyVoices m.s v).trans (OnlyVoices.setVoice _ v _)
    obtain ⟨t, ht, h0, h1, h2, h3⟩ := ih hn
      (m := ⟨m.accL + (mixTerms (m.s.voice v)).1, m.accR + (mixTerms (m.s.voice v)).2,
        (endxMarked m.s v).setVoice v (Machine.tickedVoice m.s v)⟩)
      (fun w hw => by rw [ho.voice w (hne w hw)]; exact h w (by simp [hw]))
    simp only at ht h0 h1 h2 h3
    refine ⟨t, ?_, (ho.mono (by simp +contextual)).trans (h0.mono (by simp +contextual)), fun w hw => ?_, fun w => ?_, ?_⟩
    · rw [tickVoices, tickVoice_done word (h v (by simp))]
      simp only [ht, List.map_cons, List.sum_cons, add_assoc]
      have e (f : Voice → Int) :
          vs.map (fun w => f (((endxMarked m.s v).setVoice v (Machine.tickedVoice m.s v)).voice w)) =
            vs.map fun w => f (m.s.voice w) :=
        List.map_congr_left fun w hw => by rw [ho.voice w (hne w hw)]
      rw [e fun x => (mixTerms x).1, e fun x => (mixTerms x).2]
    · by_cases hwv : w = v
      · subst hwv; rw [h0.voice w hv]; simp
      · rw [h1 w (by simpa [hwv] using hw), ho.tickedVoice hwv]
    · rw [h2 w, State.setVoice_endx, endxMarked_endx]
      by_cases hwv : w = v
      · subst hwv; simp [hv]
      · simp [hwv, ho.voice w hwv]
    · rw [h3]; simp

/-- What it leaves when `v` is the first voice of it to go to a misaligned block. -/
theorem tickVoices_stopped (word : Word) {vs : List VoiceIx} (hs : vs.Pairwise (· < ·)) {m : Mix} {v : VoiceIx}
    (hv : v ∈ vs) (hm : tickMisaligned (m.s.voice v) = true)
    (hb : ∀ w ∈ vs, w < v → tickMisaligned (m.s.voice w) = false) :
    ∃ t, tickVoices word vs m = .stopped t ∧ OnlyVoices (· ∈ vs) m.s t ∧
      (∀ w ∈ vs, w < v → t.voice w = Machine.tickedVoice m.s w) ∧ t.voice v = movedVoice (m.s.voice v) ∧
      (∀ w, v < w → t.voice w = m.s.voice w) ∧
      (∀ w : VoiceIx, t.endx.getLsbD w.val =
        (m.s.endx.getLsbD w.val || (decide (w ∈ vs ∧ w ≤ v) && passesLoopEnd (m.s.voice w)))) ∧
      t.faults =
        m.s.faults ++ [.misalignedBlock v (BitVec.ofNat 19 (blockEndTarget (m.s.voice v))) word m.s.pos] := by
  induction vs generalizing m with
  | nil => simp at hv
  | cons u vs ih =>
    obtain ⟨hu, hs⟩ := List.pairwise_cons.mp hs
    have hne : ∀ w ∈ vs, ¬ w = u := fun w hw h => lt_irrefl u (h ▸ hu w hw)
    by_cases huv : u = v
    · subst huv
      refine ⟨_, by rw [tickVoices, tickVoice_stopped word hm], ?_, fun w hw hlt => ?_, by simp, fun w hw => ?_,
        fun w => ?_, ?_⟩
      · exact (((endxMarked_onlyVoices m.s u).trans (OnlyVoices.setVoice _ u _)).trans
          (OnlyVoices.misaligned _ _ _ _ _)).mono (by simp +contextual)
      · rcases List.mem_cons.mp hw with rfl | hw
        · exact absurd hlt (lt_irrefl _)
        · exact absurd hlt (lt_asymm (hu w hw))
      · simp [State.voice_setVoice, ne_of_gt hw]
      · rw [State.misaligned_endx, State.setVoice_endx, endxMarked_endx]
        by_cases hw : w = u
        · subst hw; simp
        · have : ¬ (w ∈ vs ∧ w ≤ u) := fun ⟨h1, h2⟩ => absurd (hu w h1) (not_lt_of_ge h2)
          simp [hw, this]
      · simp
    · have hv : v ∈ vs := by simpa [Ne.symm huv] using hv
      have hlt := hu v hv
      have ho : OnlyVoices (· = u) m.s ((endxMarked m.s u).setVoice u (Machine.tickedVoice m.s u)) :=
        (endxMarked_onlyVoices m.s u).trans (OnlyVoices.setVoice _ u _)
      obtain ⟨t, ht, h0, h1, h2, h3, h4, h5⟩ := ih hs
        (m := ⟨m.accL + (mixTerms (m.s.voice u)).1, m.accR + (mixTerms (m.s.voice u)).2,
          (endxMarked m.s u).setVoice u (Machine.tickedVoice m.s u)⟩) hv
        (by rw [ho.voice v (hne v hv)]; exact hm)
        (fun w hw hwv => by rw [ho.voice w (hne w hw)]; exact hb w (by simp [hw]) hwv)
      simp only at ht h0 h1 h2 h3 h4 h5
      refine ⟨t, ?_, (ho.mono (by simp +contextual)).trans (h0.mono (by simp +contextual)), fun w hw hwv => ?_, ?_,
        fun w hw => ?_, fun w => ?_, ?_⟩
      · rw [tickVoices, tickVoice_done word (hb u (by simp) hlt)]; exact ht
      · by_cases hwu : w = u
        · subst hwu; rw [h0.voice w fun h => hne w h rfl]; simp
        · rw [h1 w (by simpa [hwu] using hw) hwv, ho.tickedVoice hwu]
      · rw [h2, ho.voice v (hne v hv)]
      · rw [h3 w hw, ho.voice w fun h => lt_asymm hw (h ▸ hlt)]
      · rw [h4 w, State.setVoice_endx, endxMarked_endx]
        by_cases hwu : w = u
        · subst hwu; simp [le_of_lt hlt, show w ∉ vs from fun h => hne w h rfl]
        · simp [hwu, ho.voice w hwu]
      · rw [h5, ho.voice v (hne v hv)]; simp

end Sys2Proof.Machine
end

