-- ==== Sys2Proof/Tests/Slice0.lean ====
section
/-! SUPPORT. Tests of single transactions and pure functions, with results from spec/95_test_vectors.md or worked out
by hand from the rules, and a witness for every statement of Certificates/Slice0/Obligations.lean that has
hypotheses. -/

namespace Sys2Proof.Machine.Tests

/-! ## Well-formedness: the one check, refused for voices 24 and 31 by each constructor it guards. -/

theorem test_voice_23_is_well_formed : (Instr.wrVoll 23 0xFFFF).wellFormed = true := by decide

theorem test_ill_formed_voice_writes :
    [Instr.wrVoll 24 0, .wrVolr 24 0, .wrPitch 24 0, .wrSaddr 24 0, .wrAdsrlo 31 0, .wrAdsrhi 31 0, .wrEnvx 31 0,
      .wrRaddr 31 0].all (fun i => !i.wellFormed) = true := by decide

theorem test_ill_formed_voice_reads :
    [Instr.rdVoll 24, .rdVolr 24, .rdPitch 24, .rdSaddr 24, .rdAdsrlo 31, .rdAdsrhi 31, .rdEnvx 31,
      .rdRaddr 31].all (fun i => !i.wellFormed) = true := by decide

/-! ## Decoding: every constructor from a word written out from 30_encoding.md R90, R95, R96, R98 (OFFS of voice v is
0x10 v + 2 RSEL; a REGR sets bit 30). -/

/-- Each word decodes to the instruction beside it. -/
def decodesTo (l : List (Word × Instr)) : Bool := l.all fun p => decide (decode p.1 = .ok p.2)

/-- Each word is refused for the reason beside it. -/
def refusedFor (l : List (Word × RefusalReason)) : Bool := l.all fun p => decide (decode p.1 = .error p.2)

theorem test_decode_voice_writes :
    decodesTo
      [(0x00103FFF, .wrVoll 1 0x3FFF), (0x01720001, .wrVolr 23 1), (0x00141000, .wrPitch 1 0x1000),
        (0x0026ABCD, .wrSaddr 2 0xABCD), (0x00F8FFFF, .wrAdsrlo 15 0xFFFF), (0x010A8000, .wrAdsrhi 16 0x8000),
        (0x000C8000, .wrEnvx 0 0x8000), (0x017E1234, .wrRaddr 23 0x1234)] = true := by decide

theorem test_decode_voice_reads :
    decodesTo
      [(0x40000000, .rdVoll 0), (0x40120000, .rdVolr 1), (0x40F40000, .rdPitch 15), (0x41060000, .rdSaddr 16),
        (0x41780000, .rdAdsrlo 23), (0x403A0000, .rdAdsrhi 3), (0x400C0000, .rdEnvx 0),
        (0x401E0000, .rdRaddr 1)] = true := by decide

theorem test_decode_master_mix :
    decodesTo
      [(0x01803FFF, .wrMvoll 0x3FFF), (0x41800000, .rdMvoll), (0x01828000, .wrMvolr 0x8000), (0x41820000, .rdMvolr),
        (0x01848000, .wrEvoll 0x8000), (0x41840000, .rdEvoll), (0x01860001, .wrEvolr 1), (0x41860000, .rdEvolr),
        (0x01B40002, .wrExtvoll 2), (0x41B40000, .rdExtvoll), (0x01B6FFFF, .wrExtvolr 0xFFFF),
        (0x41B60000, .rdExtvolr)] = true := by decide

theorem test_decode_keying :
    decodesTo
      [(0x01880001, .wrKonlo 1), (0x41880000, .rdKonlo), (0x018A0080, .wrKonhi 0x80), (0x418A0000, .rdKonhi),
        (0x018C8000, .wrKofflo 0x8000), (0x418C0000, .rdKofflo), (0x018E00FF, .wrKoffhi 0xFF),
        (0x418E0000, .rdKoffhi)] = true := by decide

theorem test_decode_status_and_port :
    decodesTo
      [(0x019C1111, .wrEndxlo 0x1111), (0x419C0000, .rdEndxlo), (0x019E2222, .wrEndxhi 0x2222),
        (0x419E0000, .rdEndxhi), (0x01A6FFFF, .wrTaddr 0xFFFF), (0x41A60000, .rdTaddr), (0x01A8ABCD, .wrTdata 0xABCD),
        (0x41A80000, .rdTdata)] = true := by decide

theorem test_decode_control : decodesTo [(0x80000000, .tick), (0xC0000000, .reset)] = true := by decide

/-- D3 to D14 of 95_test_vectors.md: the order of the checks. -/
theorem test_decode_refusals :
    refusedFor
      [(0x80000001, .nonzeroField), (0xC0001000, .nonzeroField), (0xA0000000, .reservedBits),
        (0x82000000, .reservedBits), (0x02000000, .reservedBits), (0x3E000000, .reservedBits),
        (0x03000000, .reservedBits), (0x00010000, .oddOffset), (0x40010001, .oddOffset), (0x41800001, .nonzeroField),
        (0x41A80001, .nonzeroField), (0x01A90000, .oddOffset)] = true := by decide

/-- Both ends of every hole of the window (R97), D15 to D18 among them. -/
theorem test_decode_unmapped :
    refusedFor
      [(0x01900000, .unmappedOffset), (0x019A0000, .unmappedOffset), (0x41A00000, .unmappedOffset),
        (0x01A40000, .unmappedOffset), (0x01AA0000, .unmappedOffset), (0x01B20000, .unmappedOffset),
        (0x01B80000, .unmappedOffset), (0x01C00000, .unmappedOffset), (0x01FE0000, .unmappedOffset)] = true := by
  decide

theorem test_encode_last_voice_register : encode (.wrRaddr 23 0x1234) = 0x017E1234 := by decide

theorem test_decode_table_word : decodeTableWord 32 0x41880000 = some .rdKonlo := by decide

/-! ## One transaction. -/

/-- The state after the transaction `w` meets `p`. -/
def after (s : State) (w : Word) (p : State → Bool) : Bool :=
  match step (s.issue w) with
  | .next t => p t
  | .fault _ => false
  | .refused _ => false

/-- Power-on but for voice 1. -/
def oneVoice (x : Voice) : State := State.reset.setVoice 1 x

/-- A voice with a different value in every register. -/
def busy : Voice :=
  { Voice.reset with
    voll := 0x1001, volr := 0x1002, pitch := 0x1003, saddr := 0x1004, adsrLo := 0x1005, adsrHi := 0x1006,
    level := 0x1007, raddr := 0x1008 }

/-- A state with a different value in every register. -/
def busyState : State :=
  { oneVoice busy with
    mvolL := 1, mvolR := 2, evolL := 3, evolR := 4, konLo := 5, konHi := 6, koffLo := 7, koffHi := 8,
    endx := 0xAB1234, taddr := 9, extvolL := 10, extvolR := 11 }

/-- Each REGR word returns the value beside it and changes nothing else but the count of words. -/
def returns (l : List (Word × Half)) : Bool :=
  l.all fun p => after busyState p.1 fun t => decide (t = { busyState with reads := [p.2], pos := 1 })

theorem test_read_voice :
    returns
      [(0x40100000, 0x1001), (0x40120000, 0x1002), (0x40140000, 0x1003), (0x40160000, 0x1004), (0x40180000, 0x1005),
        (0x401A0000, 0x1006), (0x401C0000, 0x1007), (0x401E0000, 0x1008)] = true := by decide

theorem test_read_global :
    returns
      [(0x41800000, 1), (0x41820000, 2), (0x41840000, 3), (0x41860000, 4), (0x41880000, 5), (0x418A0000, 6),
        (0x418C0000, 7), (0x418E0000, 8), (0x41A60000, 9), (0x41B40000, 10), (0x41B60000, 11)] = true := by decide

/-- R104: the high half in bits 7:0 over zeros. -/
theorem test_read_endx : returns [(0x419C0000, 0x1234), (0x419E0000, 0x00AB)] = true := by decide

/-- D26. -/
theorem test_read_tdata_is_refused :
    after State.reset 0x41A80000 (fun t =>
      decide (t.faults = [.refusal .tdataRead 0x41A80000 1]) && decide (t.reads = [])) = true := by decide

theorem test_write_voice :
    [(0x00103FFF, { busy with voll := 0x3FFF }), (0x00127FFF, { busy with volr := 0x7FFF }),
      (0x0014FFFF, { busy with pitch := 0xFFFF }), (0x00160003, { busy with saddr := 3 }),
      (0x0018ABCD, { busy with adsrLo := 0xABCD }), (0x001AFFFF, { busy with adsrHi := 0xFFFF }),
      (0x001CFFFF, { busy with level := 0x7FFF }), (0x001E0001, { busy with raddr := 1 })].all
        (fun p : Word × Voice => after busyState p.1 fun t => decide (t.voice 1 = p.2)) = true := by decide

/-- D25, and the same of VOLR: the sweep form is refused and stored nowhere. -/
theorem test_sweep_of_a_voice_is_refused :
    [(0x0010FFFF : Word), 0x00128000].all (fun w => after busyState w fun t =>
      decide (t.faults = [.refusal .volumeSweep w 1]) && decide (t.voice 1 = busy)) = true := by decide

/-- D24, and the same of MVOLR. -/
theorem test_sweep_of_the_master_is_refused :
    [(0x01808000 : Word), 0x0182FFFF].all (fun w => after busyState w fun t =>
      decide (t.faults = [.refusal .volumeSweep w 1]) && decide (t.mvolL = 1) && decide (t.mvolR = 2)) = true := by
  decide

/-- D27, D28: the reverb and external volumes take the sweep form. -/
theorem test_write_mix :
    (after busyState 0x01803FFF (fun t => decide (t.mvolL = 0x3FFF)) &&
      after busyState 0x01823FFF (fun t => decide (t.mvolR = 0x3FFF)) &&
      after busyState 0x01848000 (fun t => decide (t.evolL = 0x8000)) &&
      after busyState 0x01868000 (fun t => decide (t.evolR = 0x8000)) &&
      after busyState 0x01B4FFFF (fun t => decide (t.extvolL = 0xFFFF)) &&
      after busyState 0x01B6FFFF (fun t => decide (t.extvolR = 0xFFFF))) = true := by decide

theorem test_write_endx_is_ignored :
    (after busyState 0x019C0000 (fun t => decide (t = { busyState with pos := 1 })) &&
      after busyState 0x019EFFFF (fun t => decide (t = { busyState with pos := 1 }))) = true := by decide

/-- The last line of 2.3: TADDR 0xFFFF points at the last halfwords of RAM. -/
theorem test_write_taddr :
    after State.reset 0x01A6FFFF (fun t => decide (t.taddr = 0xFFFF) && decide (t.tptr = 0x7FFF8)) = true := by decide

/-- M1: little-endian. -/
theorem test_write_tdata :
    after { State.reset with taddr := 3, tptr := 24 } 0x01A8ABCD (fun t =>
      decide (t.ram = [(24, 0xCD), (25, 0xAB)]) && decide (t.tptr = 26) && decide (t.taddr = 3)) = true := by decide

/-- M3: the pointer wraps at the end of RAM. -/
theorem test_write_tdata_wraps :
    after { State.reset with tptr := 0x7FFFE } 0x01A84444 (fun t =>
      decide (t.ram = [(0x7FFFE, 0x44), (0x7FFFF, 0x44)]) && decide (t.tptr = 0)) = true := by decide

/-- Sixteen bytes of RAM from address `a`. -/
def blockRam (a : Nat) (hdr flags data : Byte) : Memory :=
  (a, hdr) :: (a + 1, flags) :: (List.range 14).map fun i => (a + 2 + i, data)

/-- Key-on of voice 1 at block 1, whose block has STA and data 0x11 (R255, R212). -/
theorem test_key_on :
    after { oneVoice { busy with saddr := 2 } with ram := blockRam 16 0x00 0x04 0x11, endx := 0xFFFFFF } 0x01880002
      (fun t => decide ((t.voice 1).phase = .attack) && decide ((t.voice 1).level = 0) &&
        decide ((t.voice 1).cur = 16) && decide ((t.voice 1).raddr = 2) && decide ((t.voice 1).buf[0] = 4096) &&
        decide ((t.voice 1).flags = 4) && decide (t.endx = 0xFFFFFD) && decide (t.konLo = 2)) = true := by decide

/-- An odd SADDR faults, and what was done before the fetch stays (R212, R313). -/
theorem test_key_on_faults :
    after (oneVoice { busy with saddr := 3 }) 0x01880002 (fun t =>
      decide (t.faults = [.misalignedBlock 1 24 0x01880002 1]) && decide ((t.voice 1).phase = .attack) &&
        decide ((t.voice 1).raddr = 0x1008) && decide (t.konLo = 2)) = true := by decide

/-- KON_HI bits 15:8 are stored and key nothing (R256). -/
theorem test_key_on_high_ignores_upper_bits :
    after busyState 0x018AFF00 (fun t => decide (t = { busyState with konHi := 0xFF00, pos := 1 })) = true := by
  decide

theorem test_key_off :
    after (oneVoice { busy with phase := .sustain, envcnt := 7 }) 0x018C0002 (fun t =>
      decide (t.voice 1 = { busy with phase := .release }) && decide (t.voice 0 = Voice.reset)) = true := by decide

/-- KOFF_HI bit 0 is voice 16 (R258). -/
theorem test_key_off_high :
    after State.reset 0x018E0001 (fun t =>
      decide ((t.voice 16).phase = .release) && decide ((t.voice 0).phase = .off)) = true := by decide

/-- The voice of X2: sample 4096 at level 32767. -/
def loud : Voice :=
  { Voice.reset with
    voll := 0x3FFF, volr := 0x2000, buf := Vector.replicate 28 4096, level := 32767, phase := .sustain }

/-- X2 (43_voice_mixer.md R228). -/
theorem test_tick_frame :
    after { oneVoice loud with mvolL := 0x3FFF, mvolR := 0x3FFF } 0x80000000 (fun t =>
      decide (t.out = [⟨4093, 2046⟩])) = true := by decide

/-- The END row of the table of 2.6: ENDX, jump and mute; an odd RADDR faults at the jump. -/
theorem test_tick_loop_end :
    after (oneVoice { loud with flags := 1, raddr := 3, pitch := 0x1000, ctr := 0x1B000 }) 0x80000000 (fun t =>
      decide (t.faults = [.misalignedBlock 1 24 0x80000000 1]) && decide (t.endx = 2) && decide (t.out = []) &&
        decide ((t.voice 1).phase = .release) && decide ((t.voice 1).level = 0) && decide ((t.voice 1).ctr = 0) &&
        decide ((t.voice 1).cur = 24)) = true := by decide

theorem test_reset :
    after { busyState with ram := [(5, 1)], out := [⟨1, 2⟩], tptr := 8 } 0xC0000000 (fun t =>
      decide (t = { State.reset with ram := [(5, 1)], out := [⟨1, 2⟩], pos := 1 })) = true := by decide

/-- D7: a refused word is recorded with its position, and changes nothing else. -/
theorem test_refused_word :
    after busyState 0x02000000 (fun t =>
      decide (t = { busyState with faults := [.refusal .reservedBits 0x02000000 1], pos := 1 })) = true := by decide

theorem test_halted :
    step { State.reset with faults := [.refusal .tdataRead 0x41A80000 1], stream := [0x80000000] } = .fault .halted := by
  rfl

theorem test_idle : step State.reset = .next State.reset := by rfl

theorem test_fetch_word : (State.reset.withFetchWord 32 0x1880001).stream = [0x01880001] := by decide

/-! ## A host. -/

/-- Parameters of a host: a bend of two semitones at most, full volume in the middle. -/
def someParams : RawParams := ⟨44100, 60, 12, 12, 2, 127, 64, ⟨0, 0, 0, 0, 15, 0, 0, 0, 0, 0, 0⟩⟩

/-- What they are once checked. -/
def someChecked : Params := ⟨44100, 60, 12, 12, 2, 127, 64, ⟨0, 0, 0, 0, 15, 0, 0, 0, 0, 0, 0⟩⟩

def someHost : HostState := HostState.start someChecked 0

/-- The default laws where a bend value is a number of semitones, and the one parameter value and bend value out of
their open ranges are a sample rate of 0 and a bend of 9. -/
def oneSemitone : HostLaws :=
  defaultLaws (fun bend _ => bend)
    ⟨fun n => decide (n ≠ 0), fun _ => true, fun _ => true, fun _ => true, fun b => decide (b ≠ 9)⟩

/-- The boot order of 70_reset_and_hazards.md R342 with a sample of one block, then a key-on of voice 1. -/
def bootGroups : List HostGroup :=
  [.init, .writeSample [0x0C, 0x00, 0x77], .placeTerminator, .update [.wrSaddr 1 0, .wrKonlo 2]]

/-- Its words. -/
def bootStream : List Instr :=
  [.wrMvoll 0x3FFF, .wrMvolr 0x3FFF, .wrEvoll 0, .wrEvolr 0, .wrExtvoll 0, .wrExtvolr 0]
    ++ [.wrTaddr 0, .wrTdata 0x000C, .wrTdata 0x0077, .wrTdata 0, .wrTdata 0, .wrTdata 0, .wrTdata 0, .wrTdata 0,
      .wrTdata 0]
    ++ .wrTaddr 2 :: .wrTdata 0x0400 :: (List.replicate 7 (.wrTdata 0) ++ .wrTdata 0x0300 ::
      List.replicate 7 (.wrTdata 0))
    ++ [.wrSaddr 1 0, .wrKonlo 2]

/-- With no audio block the only interleaving is the control groups in order. -/
theorem left_only {α : Type} : ∀ xs : List α, Interleaving xs [] xs
  | [] => .nil
  | x :: xs => .left x (left_only xs)

/-- R298, R299: no second initialization, no key-on before the terminator, no MasterMix write in an update, no odd
SADDR. -/
theorem test_host_duties :
    (hostRun oneSemitone State.reset someHost ([.control .init, .control .init]) = none) ∧
      (hostRun oneSemitone State.reset someHost ([.control .init, .control (.writeSample [0]), .control (.update [.wrKonlo 2])]) =
        none) ∧
      (hostRun oneSemitone State.reset someHost [.control (.update [.wrEvoll 0])] = none) ∧
      hostRun oneSemitone State.reset someHost [.control (.update [.wrSaddr 1 1])] = none := ⟨rfl, rfl, rfl, rfl⟩

/-- R296: with voice 0 at a level that is not 0 and voice 1 holding a note, a note-on goes to voice 2; at power-on to
voice 0, with the volumes, the envelope and SADDR written before the key-on (R292). -/
theorem test_note_on :
    ((onEvent oneSemitone (State.reset.setVoice 0 { Voice.reset with level := 1 }).envx (someHost.recordNote 1 60)
        (.noteOn 60 100)).1.getLast? = some (.wrKonlo 4)) ∧
      (onEvent oneSemitone State.reset.envx someHost (.noteOn 60 100)).1.tail =
        [.wrVoll 0 0x1FBF, .wrVolr 0 0x2040, .wrAdsrlo 0 0x000F, .wrAdsrhi 0 0, .wrSaddr 0 0,
          .wrKonlo 1] := ⟨rfl, rfl⟩

/-- R294 by hand: 4096 at the base note and 44100 Hz, twice that an octave up, and no more than 0xFFFF. -/
theorem test_pitch_law :
    (defaultPitchLaw (fun b _ => b) ⟨44100, 60, 60, 0, 2, 12, 12⟩ = 0x1000) ∧
      (defaultPitchLaw (fun b _ => b) ⟨44100, 60, 80, 0, 2, 12, 12⟩ = 0x2000) ∧
      defaultPitchLaw (fun b _ => b) ⟨44100, 60, 120, 0, 2, 60, 12⟩ = 0xFFFF := by decide +kernel

/-- A step of the block on the words the host issues: ENVX of voice 0 reads what was written to it. -/
theorem test_host_block : (State.reset.performAll [.wrEnvx 0 0x1234, .wrPitch 0 1]).envx 0 = 0x1234 := by decide

/-! ## Pure functions against 95_test_vectors.md. -/

/-- A block of one header, no flags and fourteen equal data bytes. -/
def flatBlock (hdr data : Byte) : Block := ((Vector.replicate 16 data).set 0 hdr).set 1 0

/-- A2. -/
theorem test_adpcm_filter_2 :
    ((decodeBlock (flatBlock 0x2C 0x77) 0 0).out.toList.map BitVec.toInt) =
      [7, 20, 37, 57, 79, 103, 128, 153, 178, 203, 227, 250, 272, 293, 312, 330, 346, 361, 375, 388, 400, 411, 421, 430,
        438, 445, 451, 456] := by decide

/-- A5: filter 7 acts as 4. -/
theorem test_adpcm_reserved_filter :
    ((decodeBlock (flatBlock 0x7C 0x00) 1000 500).out.toList.map BitVec.toInt) =
      [1438, 1804, 2091, 2295, 2415, 2452, 2410, 2295, 2115, 1880, 1601, 1289, 956, 614, 274, -53, -358, -633, -871,
        -1067, -1217, -1320, -1375, -1384, -1349, -1274, -1164, -1024] := by decide

/-- E1, E6, E9, E10, E12: the first level of each. -/
theorem test_envelope_levels :
    (({ Voice.reset with phase := .attack }.envTick.level = 14336) ∧
      ({ Voice.reset with phase := .release, adsrHi := 0x0020, level := 32767 }.envTick.level = 16383) ∧
      ({ Voice.reset with phase := .sustain, adsrHi := 0x4000, level := 20000 }.envTick.level = 3616) ∧
      ({ Voice.reset with phase := .sustain, adsrHi := 0xC000, level := 20000 }.envTick.level = 10000) ∧
      ({ Voice.reset with phase := .decay, adsrLo := 0x0077, level := 32767 }.envTick.level = 32639)) := by decide

/-- E1, E6: the phase changes of ticks 3, 7 and 15. -/
theorem test_envelope_phases :
    (({ Voice.reset with phase := .attack, level := 28672 }.envTick.phase = .decay) ∧
      ({ Voice.reset with phase := .decay, level := 4095 }.envTick.phase = .sustain) ∧
      ({ Voice.reset with phase := .release, adsrHi := 0x0020, level := 7 }.envTick.phase = .release) ∧
      ({ Voice.reset with phase := .release, adsrHi := 0x0020, level := 1 }.envTick.phase = .off)) := by decide

/-- The list of 2.7. -/
theorem test_effective_volume :
    ([0x0000, 0x0001, 0x2000, 0x3FFF, 0x4000, 0x7FFF].map volEff) = [0, 2, 16384, 32766, -32768, -2] := by decide

/-- H4: the words of `placeTerminator` for a sample of two blocks. -/
theorem test_place_terminator :
    (placeTerminator 2).map encode =
      0x01A60004 :: 0x01A80400 :: (List.replicate 7 0x01A80000 ++ 0x01A80300 :: List.replicate 7 0x01A80000) := by
  decide

/-- The words of an upload of `bytes`, its block count and the blocks it returns. -/
def uploads (bytes : List Byte) : List Instr × Nat × BlockRange :=
  ((writeSample someHost bytes).words, (writeSample someHost bytes).host.blockCount.val,
    (writeSample someHost bytes).range)

/-- H1, H2, H3: 32 bytes, 20 bytes (padded) and none. -/
theorem test_write_sample :
    uploads (List.replicate 32 0x5A) = (.wrTaddr 0 :: List.replicate 16 (.wrTdata 0x5A5A), 2, ⟨0, 2⟩) ∧
      uploads (List.replicate 19 0x11 ++ [0x22]) =
        (.wrTaddr 0 :: (List.replicate 9 (.wrTdata 0x1111) ++ .wrTdata 0x2211 :: List.replicate 6 (.wrTdata 0)), 2,
          ⟨0, 2⟩) ∧
      uploads [] = ([.wrTaddr 0], 0, ⟨0, 0⟩) := by decide

/-- R295 by hand: full volume to one side, and half of it at half way. -/
theorem test_pan_law :
    (defaultPanLaw 127 0, defaultPanLaw 127 127, defaultPanLaw 64 63) = ((0x3FFF, 0), (0, 0x3FFF), (0x1040, 0xFFF)) := by
  decide

/-- R157: with two blocks (T = 2) the host writes the blocks 0 and 1 and the start of the terminator, and neither its
second block nor an odd address. -/
theorem test_inside_sample :
    ([0, 2, 4, 6, 1, 3, 5].map (insideSample 2)) = [true, true, true, false, false, false, false] := by decide

/-- R299: a host does not start with a parameter or a bend value out of its range, keeps its parameters where new ones
are out of range, and takes no such bend. -/
theorem test_range_check :
    HostState.boot oneSemitone.ranges { someParams with sampleRate := 0 } 0 = none ∧
      HostState.boot oneSemitone.ranges { someParams with pan := 128 } 0 = none ∧
      HostState.boot oneSemitone.ranges someParams 9 = none ∧
      (HostGroup.issue oneSemitone someHost (.params { someParams with volume := -1 })).2 = someHost ∧
      (onEvent oneSemitone (fun _ => 0) someHost (.pitchBend 9)).2.bend = 0 := ⟨rfl, rfl, rfl, rfl, rfl⟩

/-- R299: parameters are taken at the ends of their ranges and rejected beyond them. -/
theorem test_parameter_ranges :
    (inRange 128 0, inRange 128 127, inRange 128 128, inRange 128 (-1)) = (some 0, some 127, none, none) ∧
      (inField 5 31, inField 5 32) = (some 31, none) := by decide

/-! ## Witnesses: for each statement with hypotheses, operands and a state that meet them. -/

theorem witness_DecodeInvertsEncode : (Instr.wrVoll 23 0x8000).wellFormed = true ∧ Instr.rdTdata.wellFormed = true := by
  decide

theorem witness_EncodeInvertsDecode : decode 0x017E1234 = .ok (.wrRaddr 23 0x1234) := by decide

theorem witness_StepPerformsTheDecodedWord :
    (State.reset.issue 0x80000000).clean ∧ (State.reset.issue 0x80000000).stream = [0x80000000] ∧
      decode 0x80000000 = .ok .tick := ⟨rfl, rfl, by decide⟩

theorem witness_StepRecordsARefusedWord :
    (State.reset.issue 0x02000000).clean ∧ (State.reset.issue 0x02000000).stream = [0x02000000] ∧
      decode 0x02000000 = .error .reservedBits := ⟨rfl, rfl, by decide⟩

theorem witness_HaltedBlockHasNoStep :
    ¬ (State.reset.refuse .tdataRead 0x41A80000).clean ∧ State.reset.clean ∧ State.reset.stream = [] :=
  ⟨by simp [State.clean], rfl, rfl⟩

theorem witness_EveryTransactionHasANextState : (Instr.rdEnvx 23).wellFormed = true := by decide

/-- Both clauses at the ends of their ranges; also for `MasterVolumeWrites`. -/
theorem witness_VoiceVolumeWrites :
    (0x0000 : Half).getLsbD 15 = false ∧ (0x7FFF : Half).getLsbD 15 = false ∧ (0x8000 : Half).getLsbD 15 = true ∧
      (0xFFFF : Half).getLsbD 15 = true := by decide

theorem witness_UnusedVolumesHaveNoEffect :
    Instr.tick ≠ .rdEvoll ∧ Instr.tick ≠ .rdEvolr ∧ Instr.tick ≠ .rdExtvoll ∧ Instr.tick ≠ .rdExtvolr ∧
      ∃ t, exec .tick busyState = .next t := ⟨by decide, by decide, by decide, by decide, _, rfl⟩

theorem witness_KeyOnLowVoices_even :
    inMaskLo 0x8001 0 = true ∧ inMaskLo 0x8001 15 = true ∧
      ∀ v, inMaskLo 0x8001 v = true → (State.reset.voice v).saddr.toNat % 2 = 0 := by decide

theorem witness_KeyOnLowVoices_odd :
    inMaskLo 0xFFFF 1 = true ∧ ((oneVoice { busy with saddr := 3 }).voice 1).saddr.toNat % 2 = 1 ∧
      ∀ w, w < 1 → inMaskLo 0xFFFF w = true →
        ((oneVoice { busy with saddr := 3 }).voice w).saddr.toNat % 2 = 0 := by decide

theorem witness_KeyOnHighVoices_even :
    inMaskHi 0xFF81 16 = true ∧ inMaskHi 0xFF81 23 = true ∧
      ∀ v, inMaskHi 0xFF81 v = true → (State.reset.voice v).saddr.toNat % 2 = 0 := by decide

theorem witness_KeyOnHighVoices_odd :
    inMaskHi 0x0080 23 = true ∧
      ((State.reset.setVoice 23 { busy with saddr := 0xFFFF }).voice 23).saddr.toNat % 2 = 1 ∧
      ∀ w, w < 23 → inMaskHi 0x0080 w = true →
        ((State.reset.setVoice 23 { busy with saddr := 0xFFFF }).voice w).saddr.toNat % 2 = 0 := by decide

/-- Each clause at the ends of its range. -/
theorem witness_ReservedHeadersActAsGiven :
    ((flatBlock 0x0D 0)[0] &&& 0x0F).toNat > 12 ∧ ((flatBlock 0x0F 0)[0] &&& 0x0F).toNat > 12 ∧
      ((flatBlock 0x50 0)[0] &&& 0x70).toNat > 0x40 ∧ ((flatBlock 0x7F 0)[0] &&& 0x70).toNat > 0x40 := by decide

theorem witness_ZeroBlocksDecodeToSilence :
    ((flatBlock 0x8F 0)[0] &&& 0x70) = 0 ∧ ∀ i : Fin 16, 2 ≤ i.val → (flatBlock 0x8F 0)[i] = 0 := by decide

/-- A tick takes voice 1 from Attack to Decay. -/
theorem witness_PhasesChangeOnlyAsTheTableSays :
    ∃ t, exec .tick (oneVoice { busy with phase := .attack, level := 0x7FFF }) = .next t ∧
      (t.voice 1).phase ≠ ((oneVoice { busy with phase := .attack, level := 0x7FFF }).voice 1).phase :=
  ⟨_, rfl, by decide⟩

theorem witness_NoTickRaisesADecayingLevel :
    (∃ t, exec .tick (oneVoice { busy with phase := .decay }) = .next t) ∧
      ((oneVoice { busy with phase := .decay }).voice 1).phase = .decay ∧
      ((oneVoice { busy with phase := .release }).voice 1).phase = .release := ⟨⟨_, rfl⟩, by decide, by decide⟩

theorem witness_AttackReachesTheMaximum : { busy with phase := .attack }.phase = .attack := rfl

theorem witness_ReleaseReachesOff : { busy with phase := .release }.phase = .release := rfl

theorem witness_DecayReachesSustain : { busy with phase := .decay }.phase = .decay := rfl

/-- Voice 1 passes its block end and goes on to an aligned block. -/
theorem witness_TickEmitsOneFrameAndMovesEveryVoice :
    passesBlockEnd ((oneVoice { loud with pitch := 0x1000, ctr := 0x1B000 }).voice 1) = true ∧
      ∀ v, tickMisaligned ((oneVoice { loud with pitch := 0x1000, ctr := 0x1B000 }).voice v) = false := by decide

theorem witness_TickStopsAtTheFirstMisalignedFetch :
    tickMisaligned ((oneVoice { loud with flags := 1, raddr := 3, pitch := 0x1000, ctr := 0x1B000 }).voice 1) = true ∧
      ∀ w, w < 1 →
        tickMisaligned ((oneVoice { loud with flags := 1, raddr := 3, pitch := 0x1000, ctr := 0x1B000 }).voice w) =
          false := by decide

theorem witness_TickLeavesOffVoicesAlone :
    (∃ t, exec .tick (oneVoice loud) = .next t) ∧ ((oneVoice loud).voice 0).phase = .off := ⟨⟨_, rfl⟩, by decide⟩

/-- The last counter value inside a block. -/
theorem witness_SampleUnderTheEnvelope : { loud with ctr := 0x1BFFF }.ctr.toNat < 28 * 4096 := by decide

theorem witness_TerminatorIsSilentForEver :
    InTerminator
        { State.reset.setVoice 1 { Voice.reset with phase := .sustain, level := 100, flags := 4 } with
          ram := blockRam 0 0x00 0x04 0x00 ++ blockRam 16 0x00 0x03 0x00 } 1 0 ∧
      ∃ t, exec .tick
        { State.reset.setVoice 1 { Voice.reset with phase := .sustain, level := 100, flags := 4 } with
          ram := blockRam 0 0x00 0x04 0x00 ++ blockRam 16 0x00 0x03 0x00 } = .next t :=
  ⟨by unfold InTerminator TerminatorAt; decide, _, rfl⟩

/-- Inside the block, and at a block end. -/
theorem witness_PitchCounterAdvances :
    (∃ t, exec .tick (oneVoice { loud with pitch := 0x0FFF, ctr := 0x1B000 }) = .next t ∧ t.faults = []) ∧
      (∃ t, exec .tick (oneVoice { loud with pitch := 0x1000, ctr := 0x1B000 }) = .next t ∧ t.faults = []) ∧
      loud.phase ≠ .off ∧ (0x1B000 : BitVec 17).toNat < 28 * 4096 ∧ 0x1B000 + min 0x0FFF 0x3FFF < 28 * 4096 :=
  ⟨⟨_, rfl, by decide⟩, ⟨_, rfl, by decide⟩, by decide, by decide, by decide⟩

theorem witness_OnlyTdataChangesRam : (∀ d, Instr.tick ≠ .wrTdata d) ∧ ∃ t, exec .tick State.reset = .next t :=
  ⟨fun _ => by simp, _, rfl⟩

theorem witness_OnlyTickEmits : ∃ t, exec .tick (oneVoice loud) = .next t := ⟨_, rfl⟩

/-- RESET with an entry in FAULTS, and a step that adds one. -/
theorem witness_FaultsOnlyGrow :
    (∃ t, exec .reset (State.reset.refuse .tdataRead 0x41A80000) = .next t ∧ t.faults.length = 1) ∧
      ∃ t, step (State.reset.issue 0x41A80000) = .next t ∧ t.faults.length = 1 := ⟨⟨_, rfl, rfl⟩, _, rfl, rfl⟩

/-- A transaction that adds no entry, and one that adds one. -/
theorem witness_AtMostOneEntryATransaction :
    (∃ t, exec .tick State.reset = .next t) ∧ ∃ t, exec .rdTdata State.reset = .next t := ⟨⟨_, rfl⟩, _, rfl⟩

/-- A byte nothing has written, a written one at the last block of RAM, and both bytes of a TDATA write, one of them in
the block. -/
theorem witness_FetchedBlocksHoldTheRamBytes :
    (524272 % 16 = 0 ∧ 524272 < 524288) ∧ State.reset.ram.read 524272 = none ∧
      Memory.read (blockRam 524272 1 2 3) (524272 + (15 : Fin 16).val) = some 3 ∧
      ∃ t, exec (.wrTdata 0xABCD) { State.reset with tptr := 0x7FFFE } = .next t ∧
        524272 + (14 : Fin 16).val = (0x7FFFE : RamAddr).toNat ∧
        524272 + (15 : Fin 16).val = ((0x7FFFE : RamAddr).toNat + 1) % 524288 ∧
        524272 + (0 : Fin 16).val ≠ (0x7FFFE : RamAddr).toNat :=
  ⟨by decide, by decide, by decide, _, rfl, by decide, by decide, by decide⟩

/-- A write of the same register of another voice meets the hypotheses for voice 1. -/
theorem witness_SettingsChangeOnlyByTheirWrites :
    (∃ t, exec (.wrVoll (vsel 2) 1) State.reset = .next t) ∧ Instr.wrVoll (vsel 2) 1 ≠ .reset ∧
      ∀ d, Instr.wrVoll (vsel 2) 1 ≠ .wrVoll (vsel 1) d ∧ Instr.wrVoll (vsel 2) 1 ≠ .wrVolr (vsel 1) d ∧
        Instr.wrVoll (vsel 2) 1 ≠ .wrPitch (vsel 1) d ∧ Instr.wrVoll (vsel 2) 1 ≠ .wrSaddr (vsel 1) d ∧
        Instr.wrVoll (vsel 2) 1 ≠ .wrAdsrlo (vsel 1) d ∧ Instr.wrVoll (vsel 2) 1 ≠ .wrAdsrhi (vsel 1) d :=
  ⟨⟨_, rfl⟩, by decide, fun _ => by simp [vsel]⟩

/-- A tick that sets an ENDX bit (clause 1), and a key-on that clears one (clause 2). -/
theorem witness_EndxBitsChangeOnlyAsGiven :
    (∃ t, exec .tick (oneVoice { loud with flags := 1, pitch := 0x1000, ctr := 0x1B000 }) = .next t ∧
      (oneVoice { loud with flags := 1, pitch := 0x1000, ctr := 0x1B000 }).endx.getLsbD 1 = false ∧
      t.endx.getLsbD 1 = true) ∧
      ∃ t, exec (.wrKonlo 2) { oneVoice { loud with saddr := 3 } with endx := 2 } = .next t ∧
        t.endx.getLsbD 1 = false :=
  ⟨⟨_, rfl, by decide, by decide⟩, _, rfl, by decide⟩

/-- A state with a word to perform that meets the invariant and has a step. -/
theorem witness_EveryStepKeepsTheInvariant :
    (State.reset.issue 0x80000000).Inv ∧ ∃ t, step (State.reset.issue 0x80000000) = .next t := by
  refine ⟨⟨fun v => ?_, fun _ v => ?_, by decide, by decide, by decide, by decide, by decide⟩, _, rfl⟩
  · rw [State.issue_voice, State.reset_voice]; exact ⟨by decide, by decide, by decide, by decide⟩
  · rw [State.issue_voice, State.reset_voice]; exact ⟨by decide, by decide, by decide⟩

/-- An address of the sample, a misaligned one, and the first beyond it (H6). -/
theorem witness_RedirectedAddressesAreBlockAligned :
    (0x10 % 16 = 0 ∧ 0x10 < 16 * (2 : BlockCount).val) ∧ 0x28 % 16 ≠ 0 ∧ 0x40 ≥ 16 * (2 : BlockCount).val := by decide

/-- A host that initializes, loads a sample and keys voice 1: its stream meets the hypotheses, and a voice is keyed. -/
theorem witness_HostStreams :
    HostStream oneSemitone .block someParams 0 bootGroups [] bootStream ∧ keysOn (.wrKonlo 2) = true ∧
      Instr.wrKonlo 2 ∈ bootStream :=
  ⟨⟨someHost, bootGroups.map Piece.control, rfl, left_only _, rfl⟩, by decide, by decide⟩

/-- A host that starts in its ranges, and a permitted piece that writes the start of the terminator. -/
theorem witness_HostPiecesKeepRangesAndAddresses :
    HostState.boot oneSemitone.ranges someParams 0 = some someHost ∧ someHost.inRange oneSemitone.ranges = true ∧
      (Piece.control (.update [.wrSaddr 1 0])).permitted oneSemitone State.reset someHost = true := ⟨rfl, rfl, rfl⟩

end Sys2Proof.Machine.Tests
end

/-! What key-on and TICK leave, for every state: the voices each can move, stopped by a fault or not. -/

namespace Sys2Proof.Machine

/-- Where some voice meets `p` there is a first one. -/
theorem exists_first_voice {p : VoiceIx → Prop} (h : ∃ v, p v) : ∃ v, p v ∧ ∀ w, w < v → ¬ p w := by
  obtain ⟨v, hv, hmin⟩ := wellFounded_lt.has_min {v | p v} h
  exact ⟨v, hv, fun w hw hp => hmin w hp hw⟩

/-! Key-on of the voices a mask names (spec/44_control.md R255, R256). -/

theorem decide_mem_filter_allVoices (p : VoiceIx → Bool) : (fun v => decide (v ∈ allVoices.filter p)) = p := by
  funext v; simp

theorem keyOnAll_filter_even (word : Word) {p : VoiceIx → Bool} {s : State}
    (h : ∀ v, p v = true → (s.voice v).saddr.toNat % 2 = 0) :
    KeyedOn p s (keyOnAll word (allVoices.filter p) s).state := by
  obtain ⟨t, ht, hk⟩ := keyOnAll_even word (allVoices_nodup.filter p) (s := s) fun v hv => h v (by simpa using hv)
  rwa [decide_mem_filter_allVoices, show t = (keyOnAll word (allVoices.filter p) s).state by rw [ht]; rfl] at hk

theorem keyOnAll_filter_odd (word : Word) {p : VoiceIx → Bool} {s : State} {v : VoiceIx} (hv : p v = true)
    (ho : (s.voice v).saddr.toNat % 2 = 1) (hb : ∀ w, w < v → p w = true → (s.voice w).saddr.toNat % 2 = 0) :
    KeyOnStopped p v word s (keyOnAll word (allVoices.filter p) s).state := by
  obtain ⟨t, ht, hk⟩ := keyOnAll_odd word (allVoices_sorted.filter p) (s := s) (v := v) (by simpa using hv) ho
    fun w hw hlt => hb w hlt (by simpa using hw)
  rwa [decide_mem_filter_allVoices, show t = (keyOnAll word (allVoices.filter p) s).state by rw [ht]; rfl] at hk

/-- Keying on changes nothing but voices, ENDX and FAULTS. -/
theorem keyOnAll_outside (word : Word) (vs : List VoiceIx) (s : State) :
    SameOutsideVoices s (keyOnAll word vs s).state :=
  (keyOnAll_onlyVoices word vs s).outside.1

/-- The two outcomes of a key-on. -/
theorem keyOnAll_filter_cases (word : Word) (p : VoiceIx → Bool) (s : State) :
    ((∀ v, p v = true → (s.voice v).saddr.toNat % 2 = 0) ∧
        KeyedOn p s (keyOnAll word (allVoices.filter p) s).state) ∨
      ∃ v, p v = true ∧ (∀ w, w < v → p w = true → (s.voice w).saddr.toNat % 2 = 0) ∧
        KeyOnStopped p v word s (keyOnAll word (allVoices.filter p) s).state := by
  by_cases h : ∃ v, p v = true ∧ (s.voice v).saddr.toNat % 2 = 1
  · obtain ⟨v, ⟨hv, ho⟩, hfirst⟩ := exists_first_voice h
    have hb : ∀ w, w < v → p w = true → (s.voice w).saddr.toNat % 2 = 0 := fun w hw hp =>
      Nat.mod_two_ne_one.mp fun ho => hfirst w hw ⟨hp, ho⟩
    exact .inr ⟨v, hv, hb, keyOnAll_filter_odd word hv ho hb⟩
  · have he : ∀ v, p v = true → (s.voice v).saddr.toNat % 2 = 0 := fun v hv =>
      Nat.mod_two_ne_one.mp fun ho => h ⟨v, hv, ho⟩
    exact .inl ⟨he, keyOnAll_filter_even word he⟩

theorem exec_wrKonlo (d : Half) (s : State) :
    exec (.wrKonlo d) s =
      .next (keyOnAll (encode (.wrKonlo d)) (allVoices.filter (inMaskLo d)) { s with konLo := d }).state := rfl

theorem exec_wrKonhi (d : Half) (s : State) :
    exec (.wrKonhi d) s =
      .next (keyOnAll (encode (.wrKonhi d)) (allVoices.filter (inMaskHi d)) { s with konHi := d }).state := rfl

/-! TICK (spec/43_voice_mixer.md R220, 60_exceptions.md R313). -/

/-- `u` is what a tick leaves, its frame apart, when no voice goes to a misaligned block. -/
structure TickDone (s u : State) : Prop where
  aligned : ∀ v, tickMisaligned (s.voice v) = false
  only : OnlyVoices (fun _ => True) s u
  voice : ∀ v, u.voice v = tickedVoice s v
  endx : ∀ v : VoiceIx, u.endx.getLsbD v.val = (s.endx.getLsbD v.val || passesLoopEnd (s.voice v))
  faults : u.faults = s.faults

/-- `t` is what a tick leaves when `v` is the first voice to go to a misaligned block. -/
structure TickStopped (v : VoiceIx) (s t : State) : Prop where
  misaligned : tickMisaligned (s.voice v) = true
  aligned : ∀ w, w < v → tickMisaligned (s.voice w) = false
  only : OnlyVoices (fun _ => True) s t
  before : ∀ w, w < v → t.voice w = tickedVoice s w
  moved : t.voice v = movedVoice (s.voice v)
  after : ∀ w, v < w → t.voice w = s.voice w
  endx : ∀ w : VoiceIx, t.endx.getLsbD w.val =
    (s.endx.getLsbD w.val || (decide (w ≤ v) && passesLoopEnd (s.voice w)))
  faults : t.faults =
    s.faults ++ [.misalignedBlock v (BitVec.ofNat 19 (blockEndTarget (s.voice v))) (encode .tick) s.pos]

/-- A tick with no misaligned fetch emits its frame. -/
theorem exec_tick_done {s : State} (h : ∀ v, tickMisaligned (s.voice v) = false) :
    ∃ u, TickDone s u ∧ exec .tick s = .next (u.emit (tickFrame s)) := by
  obtain ⟨u, hu, ho, hv, he, hf⟩ := tickVoices_done (encode .tick) allVoices_nodup (m := ⟨0, 0, s⟩) fun v _ => h v
  obtain ⟨-, ⟨hL, hR, -⟩, -⟩ := ho.outside.1
  refine ⟨u, ⟨h, ho.mono fun _ _ => trivial, fun v => hv v (mem_allVoices v), fun v => ?_, hf⟩, ?_⟩
  · simpa using he v
  · simp only [exec, execTick, hu, zero_add, tickFrame_eq, hL, hR]

/-- A tick with a misaligned fetch stops at the first. -/
theorem exec_tick_stopped {s : State} {v : VoiceIx} (h : tickMisaligned (s.voice v) = true)
    (hb : ∀ w, w < v → tickMisaligned (s.voice w) = false) :
    ∃ t, TickStopped v s t ∧ exec .tick s = .next t := by
  obtain ⟨t, ht, ho, hw, hv, ha, he, hf⟩ :=
    tickVoices_stopped (encode .tick) allVoices_sorted (m := ⟨0, 0, s⟩) (mem_allVoices v) h fun w _ => hb w
  refine ⟨t, ⟨h, hb, ho.mono fun _ _ => trivial, fun w => hw w (mem_allVoices w), hv, ha, fun w => ?_, hf⟩, ?_⟩
  · simpa using he w
  · simp only [exec, execTick, ht]

/-- The two outcomes of a tick. -/
theorem exec_tick_cases {s t : State} (h : exec .tick s = .next t) :
    (∃ u, TickDone s u ∧ t = u.emit (tickFrame s)) ∨ ∃ v, TickStopped v s t := by
  by_cases hm : ∃ v, tickMisaligned (s.voice v) = true
  · obtain ⟨v, hv, hfirst⟩ := exists_first_voice hm
    obtain ⟨u, hu, he⟩ := exec_tick_stopped hv fun w hw => by simpa using hfirst w hw
    exact .inr ⟨v, Host.Outcome.next.inj (he.symm.trans h) ▸ hu⟩
  · obtain ⟨u, hu, he⟩ := exec_tick_done (s := s) fun v => by simpa using not_exists.mp hm v
    exact .inl ⟨u, hu, (Host.Outcome.next.inj (he.symm.trans h)).symm⟩

/-! The pictures of a voice: settings, counters and address. -/

theorem SameSettings.refl (x : Voice) : SameSettings x x := ⟨rfl, rfl, rfl, rfl, rfl, rfl⟩

theorem sameSettings_movedVoice (x : Voice) : SameSettings x (movedVoice x) := by
  unfold movedVoice
  split
  · exact .refl x
  · split
    · simp [SameSettings]
    · split <;> simp [SameSettings]

theorem sameSettings_tickedVoice (s : State) (v : VoiceIx) : SameSettings (s.voice v) (tickedVoice s v) := by
  unfold tickedVoice
  split <;> exact sameSettings_movedVoice (s.voice v)

/-- The counter of an active voice (R222). -/
theorem movedVoice_ctr {x : Voice} (ha : x.phase ≠ .off) (hc : x.ctr.toNat < 28 * 4096) :
    (movedVoice x).ctr.toNat = (x.ctr.toNat + min x.pitch.toNat 0x3FFF) % (28 * 4096) := by
  have hp : passesBlockEnd x = decide (x.ctr.toNat + min x.pitch.toNat 0x3FFF ≥ 28 * 4096) := by
    simp [passesBlockEnd, ha]
  rw [movedVoice, if_neg ha, hp]
  by_cases h : x.ctr.toNat + min x.pitch.toNat 0x3FFF ≥ 28 * 4096
  · rw [if_neg (by simpa using h)]
    split <;> (simp only [BitVec.toNat_ofNat]; omega)
  · rw [if_pos (by simpa using h)]
    simp only [BitVec.toNat_ofNat]; omega

@[simp] theorem tickedVoice_ctr (s : State) (v : VoiceIx) : (tickedVoice s v).ctr = (movedVoice (s.voice v)).ctr := by
  unfold tickedVoice; split <;> rfl

@[simp] theorem tickedVoice_envcnt (s : State) (v : VoiceIx) :
    (tickedVoice s v).envcnt = (movedVoice (s.voice v)).envcnt := by
  unfold tickedVoice; split <;> rfl

/-- The wait counter in a tick (10_state.md R33). -/
theorem movedVoice_envcnt_lt {x : Voice} (h : x.envcnt.toNat < 2 ^ 22) : (movedVoice x).envcnt.toNat < 2 ^ 22 := by
  have ht : x.envTick.envcnt.toNat < 2 ^ 22 := x.envTick_envcnt_lt h
  unfold movedVoice
  split
  · exact h
  · rw [envelopeTicked_eq_envTick]
    split
    · exact ht
    · split
      · exact Nat.two_pow_pos 22
      · exact ht

/-- A voice that passes no block end keeps its block, its history and its addresses. -/
theorem movedVoice_keeps_block {x : Voice} (h : passesBlockEnd x = false) :
    (movedVoice x).cur = x.cur ∧ (movedVoice x).buf = x.buf ∧ (movedVoice x).flags = x.flags ∧
      (movedVoice x).raddr = x.raddr ∧ (movedVoice x).old = x.old ∧ (movedVoice x).older = x.older := by
  by_cases ha : x.phase = .off
  · simp [movedVoice, ha]
  · simp [movedVoice_inBlock ha h, Voice.withCtr]

end Sys2Proof.Machine

/-! What one transaction can do to a voice, to FAULTS and to the registers beside the voices, said once each. -/

namespace Sys2Proof.Machine

/-! One voice. -/

/-- What the transaction `i` from `s` to `t` can leave as voice `v`. -/
inductive VoiceChange (i : Instr) (s t : State) (v : VoiceIx) : Voice → Prop
  | same : VoiceChange i s t v (s.voice v)
  | reset (hi : i = .reset) : VoiceChange i s t v Voice.reset
  | register (y : Voice) (hy : SetsRegister i v (s.voice v) y) : VoiceChange i s t v y
  | keyedOff : VoiceChange i s t v (s.voice v).keyOff
  | keyedOn (ha : (s.voice v).saddr.toNat % 2 = 0) :
      VoiceChange i s t v (fetchedVoice s (startedVoice (s.voice v)))
  | keyOnFaulted (hf : ¬ t.clean) : VoiceChange i s t v (startedVoice (s.voice v))
  | ticked (ha : tickMisaligned (s.voice v) = false) : VoiceChange i s t v (tickedVoice s v)
  | tickFaulted (hf : ¬ t.clean) : VoiceChange i s t v (movedVoice (s.voice v))

/-- An entry at the end of FAULTS is not nothing. -/
theorem not_clean_of_append {t : State} {l : List Entry} {e : Entry} (h : t.faults = l ++ [e]) : ¬ t.clean := by
  simp [State.clean, h]

/-- A key-on from `s'`, which has the voices and the RAM of `s`. -/
theorem keyOnAll_voiceChange (i : Instr) (word : Word) (p : VoiceIx → Bool) {s s' : State}
    (hs : ∀ v, s'.voice v = s.voice v) (hr : ∀ x, fetchedVoice s' x = fetchedVoice s x) (v : VoiceIx) :
    VoiceChange i s (keyOnAll word (allVoices.filter p) s').state v
      ((keyOnAll word (allVoices.filter p) s').state.voice v) := by
  have keyed (ha : p v = true → (s.voice v).saddr.toNat % 2 = 0) (t : State) :
      VoiceChange i s t v (if p v then fetchedVoice s (startedVoice (s.voice v)) else s.voice v) := by
    split
    · exact .keyedOn (ha ‹_›)
    · exact .same
  have hk := keyOnAll_filter_cases word p s'
  simp only [KeyedOn, KeyOnStopped, hs, hr] at hk
  rcases hk with ⟨he, hv, -⟩ | ⟨u, -, hb, hw, hu, ha, -, hf⟩
  · rw [hv v]; exact keyed (he v) _
  · rcases lt_trichotomy v u with h | rfl | h
    · rw [hw v h]; exact keyed (hb v h) _
    · rw [hu]; exact .keyOnFaulted (not_clean_of_append hf)
    · rw [ha v h]; exact .same

theorem exec_tick_voiceChange {s t : State} (h : exec .tick s = .next t) (v : VoiceIx) :
    VoiceChange .tick s t v (t.voice v) := by
  rcases exec_tick_cases h with ⟨u, hu, rfl⟩ | ⟨u, hu⟩
  · rw [State.emit_voice, hu.voice v]; exact .ticked (hu.aligned v)
  · rcases lt_trichotomy v u with h | rfl | h
    · rw [hu.before v h]; exact .ticked (hu.aligned v h)
    · rw [hu.moved]; exact .tickFaulted (not_clean_of_append hu.faults)
    · rw [hu.after v h]; exact .same

/-- A key-off from `s'`, which has the voices of `s`. -/
theorem keyOffAll_voiceChange (i : Instr) (vs : List VoiceIx) {s s' : State} (hs : ∀ v, s'.voice v = s.voice v)
    (t : State) (v : VoiceIx) : VoiceChange i s t v ((keyOffAll vs s').voice v) := by
  rw [keyOffAll_voice, hs v]
  split
  · exact .keyedOff
  · exact .same

/-- Every transaction does one of these to a voice. -/
theorem exec_voiceChange {i : Instr} {s t : State} (h : exec i s = .next t) (v : VoiceIx) :
    VoiceChange i s t v (t.voice v) := by
  rcases exec_cases h with rfl | rfl | ⟨d, rfl⟩ | ⟨d, rfl⟩ | ⟨d, rfl⟩ | ⟨d, rfl⟩ | ⟨d, rfl⟩ | ⟨w, y, hy, rfl⟩ | hs
  · exact exec_tick_voiceChange h v
  · have hv : t.voice v = Voice.reset := by cases h; exact State.reset_voice v
    rw [hv]; exact .reset rfl
  · cases h
    exact keyOnAll_voiceChange _ _ (inMaskLo d) (s := s) (s' := { s with konLo := d }) (fun _ => rfl) (fun _ => rfl) v
  · cases h
    exact keyOnAll_voiceChange _ _ (inMaskHi d) (s := s) (s' := { s with konHi := d }) (fun _ => rfl) (fun _ => rfl) v
  · cases h
    exact keyOffAll_voiceChange _ _ (s := s) (s' := { s with koffLo := d }) (fun _ => rfl) _ v
  · cases h
    exact keyOffAll_voiceChange _ _ (s := s) (s' := { s with koffHi := d }) (fun _ => rfl) _ v
  · cases h; exact .same
  · by_cases hv : v = w
    · subst hv; rw [State.voice_setVoice_same]; exact .register y hy
    · rw [State.voice_setVoice_other s hv]; exact .same
  · rw [hs.voice v]; exact .same

/-! The transactions that leave the voices alone. -/

/-- From `s` to `t` one of the registers beside the voices is set, a value is returned, or a refusal is recorded. -/
inductive Quiet (s : State) : State → Prop
  | refused (r : RefusalReason) (w : Word) : Quiet s (s.refuse r w)
  | returned (x : Half) : Quiet s (s.returnValue x)
  | mvolL (d : Half) (hd : isSweep d = false) : Quiet s { s with mvolL := d }
  | mvolR (d : Half) (hd : isSweep d = false) : Quiet s { s with mvolR := d }
  | unused (a b c e : Half) : Quiet s { s with evolL := a, evolR := b, extvolL := c, extvolR := e }
  | port (d : Half) : Quiet s { s with taddr := d, tptr := byteAddr d }

/-- The write of a master volume (R273, R274). -/
theorem quiet_of_masterVolume {d : Half} {w : Word} {s t u : State} (hu : isSweep d = false → Quiet s u)
    (h : (if isSweep d then .next (s.refuse .volumeSweep w) else .next u : Answer) = .next t) : Quiet s t := by
  split at h
  · cases h; exact .refused _ _
  · rename_i hs
    cases h; exact hu (by simpa using hs)

/-- `exec_cases` with the registers it does not name: what a transaction sets besides voices. -/
theorem exec_quiet_cases {i : Instr} {s t : State} (h : exec i s = .next t) :
    i = .tick ∨ i = .reset ∨ (∃ d, i = .wrKonlo d) ∨ (∃ d, i = .wrKonhi d) ∨ (∃ d, i = .wrKofflo d) ∨
      (∃ d, i = .wrKoffhi d) ∨ (∃ d, i = .wrTdata d) ∨ (∃ v y, t = s.setVoice v y) ∨ Quiet s t := by
  cases i <;> simp only [reduceCtorEq, false_or, exists_false, Instr.wrKonlo.injEq, Instr.wrKonhi.injEq,
    Instr.wrKofflo.injEq, Instr.wrKoffhi.injEq, Instr.wrTdata.injEq, exists_eq', true_or, or_true]
  case wrVoll n d | wrVolr n d =>
    rcases writeVolume_next h with ⟨-, v, -, rfl⟩ | rfl
    · exact .inl ⟨v, _, rfl⟩
    · exact .inr (.refused _ _)
  case wrPitch n d | wrSaddr n d | wrAdsrlo n d | wrAdsrhi n d | wrEnvx n d | wrRaddr n d =>
    simp only [exec, execWrPitch, execWrSaddr, execWrAdsrlo, execWrAdsrhi, execWrEnvx, execWrRaddr] at h
    obtain ⟨v, -, rfl⟩ := writeVoice_next h
    exact .inl ⟨v, _, rfl⟩
  case rdVoll n | rdVolr n | rdPitch n | rdSaddr n | rdAdsrlo n | rdAdsrhi n | rdEnvx n | rdRaddr n =>
    simp only [exec, execRdVoll, execRdVolr, execRdPitch, execRdSaddr, execRdAdsrlo, execRdAdsrhi, execRdEnvx,
      execRdRaddr] at h
    obtain ⟨x, rfl⟩ := readVoice_next h
    exact .inr (.returned x)
  case wrMvoll d => exact .inr (quiet_of_masterVolume (.mvolL d) h)
  case wrMvolr d => exact .inr (quiet_of_masterVolume (.mvolR d) h)
  case wrEvoll d => cases h; exact .inr (.unused d s.evolR s.extvolL s.extvolR)
  case wrEvolr d => cases h; exact .inr (.unused s.evolL d s.extvolL s.extvolR)
  case wrExtvoll d => cases h; exact .inr (.unused s.evolL s.evolR d s.extvolR)
  case wrExtvolr d => cases h; exact .inr (.unused s.evolL s.evolR s.extvolL d)
  case wrEndxlo d | wrEndxhi d => cases h; exact .inr (.unused s.evolL s.evolR s.extvolL s.extvolR)
  case wrTaddr d => cases h; exact .inr (.port d)
  case rdTdata => cases h; exact .inr (.refused _ _)
  case rdMvoll | rdMvolr | rdEvoll | rdEvolr | rdKonlo | rdKonhi | rdKofflo | rdKoffhi | rdEndxlo | rdEndxhi |
      rdTaddr | rdExtvoll | rdExtvolr =>
    cases h; exact .inr (.returned _)


/-! FAULTS. -/

/-- A key-on adds the entry of the fetch that stopped it, or none. -/
theorem keyOnAll_filter_faults (word : Word) (p : VoiceIx → Bool) (s : State) :
    (keyOnAll word (allVoices.filter p) s).state.faults = s.faults ∨
      ∃ e, (keyOnAll word (allVoices.filter p) s).state.faults = s.faults ++ [e] := by
  rcases keyOnAll_filter_cases word p s with ⟨-, -, -, hf⟩ | ⟨u, -, -, -, -, -, -, hf⟩
  · exact .inl hf
  · exact .inr ⟨_, hf⟩

@[simp] theorem keyOffAll_faults (vs : List VoiceIx) (s : State) : (keyOffAll vs s).faults = s.faults := by
  have h := congrArg State.faults (keyOffAll_rest vs s); exact h

/-- A transaction adds at most one entry to FAULTS (60_exceptions.md R313, R314). -/
theorem exec_faults {i : Instr} {s t : State} (h : exec i s = .next t) :
    t.faults = s.faults ∨ ∃ e, t.faults = s.faults ++ [e] := by
  rcases exec_quiet_cases h with rfl | rfl | ⟨d, rfl⟩ | ⟨d, rfl⟩ | ⟨d, rfl⟩ | ⟨d, rfl⟩ | ⟨d, rfl⟩ | ⟨v, y, rfl⟩ | hq
  · rcases exec_tick_cases h with ⟨u, hu, rfl⟩ | ⟨u, hu⟩
    · exact .inl hu.faults
    · exact .inr ⟨_, hu.faults⟩
  · cases h; exact .inl rfl
  · cases h; exact keyOnAll_filter_faults _ (inMaskLo d) { s with konLo := d }
  · cases h; exact keyOnAll_filter_faults _ (inMaskHi d) { s with konHi := d }
  · cases h; exact .inl (keyOffAll_faults _ _)
  · cases h; exact .inl (keyOffAll_faults _ _)
  · cases h; exact .inl rfl
  · exact .inl rfl
  · cases hq with
    | refused r w => exact .inr ⟨_, rfl⟩
    | _ => exact .inl rfl

/-! One step. -/

/-- A step is made by a block that is not halted: it does nothing, records a refused word, or performs a decoded one. -/
theorem step_cases {s t : State} (h : step s = .next t) :
    s.clean ∧ (t = s ∨ ∃ w rest, s.stream = w :: rest ∧
      ((∃ r, t = State.refuse { s with stream := rest, pos := s.pos + 1 } r w) ∨
        ∃ i, exec i { s with stream := rest, pos := s.pos + 1 } = .next t)) := by
  unfold step at h
  split at h
  · cases h
  · rename_i hh
    refine ⟨by simpa [State.halted, State.clean] using hh, ?_⟩
    split at h
    · cases h; exact .inl rfl
    · rename_i w u hw
      obtain ⟨rest, hs, rfl⟩ : ∃ rest, s.stream = w :: rest ∧ u = { s with stream := rest, pos := s.pos + 1 } := by
        unfold State.takeWord at hw
        split at hw
        · cases hw
        · cases hw; exact ⟨_, ‹_›, rfl⟩
      refine .inr ⟨w, rest, hs, ?_⟩
      split at h
      · exact .inr ⟨_, h⟩
      · cases h; exact .inl ⟨_, rfl⟩

end Sys2Proof.Machine

/-! The invariant of the state (10_state.md R21, R28, R33, R36, 20_memory.md R65, 40_adpcm.md R135, 60_exceptions.md
R313): each part is kept by every transaction, then by every step. -/

namespace Sys2Proof.Machine

/-! A voice. -/

theorem SameSettings.voiceInv {x y : Voice} (h : SameSettings x y) (hx : x.Inv)
    (hc : y.ctr.toNat < Config.blockEndCtr) (he : y.envcnt.toNat < 2 ^ 22) : y.Inv := by
  obtain ⟨hl, hr, -⟩ := h
  exact ⟨hc, he, by rw [hl]; exact hx.voll, by rw [hr]; exact hx.volr⟩

theorem Voice.Inv.movedVoice {x : Voice} (h : x.Inv) : (Machine.movedVoice x).Inv := by
  refine (sameSettings_movedVoice x).voiceInv h ?_ (movedVoice_envcnt_lt h.envcnt)
  by_cases ha : x.phase = .off
  · rw [Machine.movedVoice, if_pos ha]; exact h.ctr
  · rw [movedVoice_ctr ha h.ctr]; exact Nat.mod_lt _ (by decide)

theorem Voice.Inv.startedVoice {x : Voice} (h : x.Inv) : (Machine.startedVoice x).Inv :=
  ⟨by show 0 < 114688; decide, Nat.two_pow_pos 22, h.voll, h.volr⟩

/-- A fetch sets nothing the invariant of a voice speaks of. -/
theorem Voice.Inv.fetchedVoice {x : Voice} (h : x.Inv) (s : State) : (Machine.fetchedVoice s x).Inv :=
  ⟨h.ctr, h.envcnt, h.voll, h.volr⟩

theorem Voice.Inv.tickedVoice {s : State} {v : VoiceIx} (h : (s.voice v).Inv) : (Machine.tickedVoice s v).Inv := by
  unfold Machine.tickedVoice
  split
  · exact h.movedVoice.fetchedVoice s
  · exact h.movedVoice

theorem Voice.inv_reset : Voice.reset.Inv := ⟨by decide, by decide, by decide, by decide⟩

/-- A register write keeps the invariant: no sweep form is stored (R21). -/
theorem SetsRegister.inv {i : Instr} {v : VoiceIx} {x y : Voice} (h : SetsRegister i v x y) (hx : x.Inv) : y.Inv := by
  obtain ⟨hc, he, hl, hr⟩ := hx
  obtain ⟨d, ⟨-, hd, rfl⟩ | ⟨-, hd, rfl⟩ | ⟨-, rfl⟩ | ⟨-, rfl⟩ | ⟨-, rfl⟩ | ⟨-, rfl⟩ | ⟨-, rfl⟩ | ⟨-, rfl⟩⟩ := h
  · exact ⟨hc, he, hd, hr⟩
  · exact ⟨hc, he, hl, hd⟩
  all_goals exact ⟨hc, he, hl, hr⟩

theorem VoiceChange.inv {i : Instr} {s t : State} {v : VoiceIx} {y : Voice} (h : VoiceChange i s t v y)
    (hx : (s.voice v).Inv) : y.Inv := by
  cases h with
  | same => exact hx
  | reset => exact Voice.inv_reset
  | register _ hy => exact hy.inv hx
  | keyedOff => exact ⟨hx.ctr, Nat.two_pow_pos 22, hx.voll, hx.volr⟩
  | keyedOn => exact hx.startedVoice.fetchedVoice s
  | keyOnFaulted => exact hx.startedVoice
  | ticked => exact hx.tickedVoice
  | tickFaulted => exact hx.movedVoice

/-! The last fetch of a voice. -/

theorem Voice.fetched_reset : Voice.reset.Fetched := ⟨by decide, by decide, by decide⟩

/-- A fetch at an aligned address leaves its block and the last two samples of it. -/
theorem fetched_fetchedVoice (s : State) {x : Voice} (h : x.cur.toNat % 16 = 0) : (fetchedVoice s x).Fetched :=
  ⟨h, rfl, rfl⟩

theorem startedVoice_cur_aligned {x : Voice} (h : x.saddr.toNat % 2 = 0) : (startedVoice x).cur.toNat % 16 = 0 := by
  have hc : (startedVoice x).cur.toNat = x.saddr.toNat * 8 := byteAddr_toNat x.saddr
  omega

theorem movedVoice_cur_aligned {x : Voice} (hp : passesBlockEnd x = true) (ha : tickMisaligned x = false) :
    (movedVoice x).cur.toNat % 16 = 0 := by
  obtain ⟨hc, hlt⟩ := movedVoice_cur hp
  have hcur : (movedVoice x).cur.toNat = blockEndTarget x := by
    rw [hc, BitVec.toNat_ofNat, Nat.mod_eq_of_lt hlt]
  rw [hcur]
  simpa [tickMisaligned, hp] using ha

theorem Voice.Fetched.tickedVoice {s : State} {v : VoiceIx} (h : (s.voice v).Fetched)
    (ha : tickMisaligned (s.voice v) = false) : (Machine.tickedVoice s v).Fetched := by
  unfold Machine.tickedVoice
  split
  · exact fetched_fetchedVoice s (movedVoice_cur_aligned ‹_› ha)
  · rename_i hp
    obtain ⟨hcur, hbuf, -, -, hold, holder⟩ := movedVoice_keeps_block (by simpa using hp)
    exact ⟨by rw [hcur]; exact h.cur, by rw [hold, h.old]; simp only [hbuf], by rw [holder, h.older]; simp only [hbuf]⟩

theorem SetsRegister.fetched {i : Instr} {v : VoiceIx} {x y : Voice} (h : SetsRegister i v x y) (hx : x.Fetched) :
    y.Fetched := by
  obtain ⟨hc, ho, hr⟩ := hx
  obtain ⟨d, ⟨-, -, rfl⟩ | ⟨-, -, rfl⟩ | ⟨-, rfl⟩ | ⟨-, rfl⟩ | ⟨-, rfl⟩ | ⟨-, rfl⟩ | ⟨-, rfl⟩ | ⟨-, rfl⟩⟩ := h <;>
    exact ⟨hc, ho, hr⟩

/-- While no fault has been recorded every fetch was made. -/
theorem VoiceChange.fetched {i : Instr} {s t : State} {v : VoiceIx} {y : Voice} (h : VoiceChange i s t v y)
    (ht : t.clean) (hx : (s.voice v).Fetched) : y.Fetched := by
  cases h with
  | same => exact hx
  | reset => exact Voice.fetched_reset
  | register _ hy => exact hy.fetched hx
  | keyedOff => exact ⟨hx.cur, hx.old, hx.older⟩
  | keyedOn ha => exact fetched_fetchedVoice s (startedVoice_cur_aligned ha)
  | keyOnFaulted hf => exact absurd ht hf
  | ticked ha => exact hx.tickedVoice ha
  | tickFaulted hf => exact absurd ht hf

/-! The registers beside the voices. -/

/-- The part of the invariant that is about neither voices nor FAULTS. -/
structure State.RegistersInv (s : State) : Prop where
  mvolL : isSweep s.mvolL = false
  mvolR : isSweep s.mvolR = false
  tptr : s.tptr.toNat % 2 = 0
  ram : s.ram.wf = true

theorem State.registersInv_reset : State.reset.RegistersInv := ⟨by decide, by decide, by decide, by decide⟩

theorem OnlyVoices.registersInv {p : VoiceIx → Prop} {s t : State} (h : OnlyVoices p s t) (hs : s.RegistersInv) :
    t.RegistersInv := by
  obtain ⟨⟨-, ⟨hL, hR, -⟩, ⟨-, hp⟩, -⟩, hram⟩ := h.outside
  exact ⟨by rw [hL]; exact hs.mvolL, by rw [hR]; exact hs.mvolR, by rw [hp]; exact hs.tptr, by rw [hram]; exact hs.ram⟩

theorem keyOffAll_onlyVoices (vs : List VoiceIx) (s : State) : OnlyVoices (· ∈ vs) s (keyOffAll vs s) := by
  induction vs generalizing s with
  | nil => exact .refl _ s
  | cons v vs ih =>
    exact ((OnlyVoices.setVoice s v _).mono (by simp +contextual)).trans ((ih _).mono (by simp +contextual))

theorem Quiet.registersInv {s t : State} (h : Quiet s t) (hs : s.RegistersInv) : t.RegistersInv := by
  obtain ⟨hL, hR, hp, hram⟩ := hs
  cases h with
  | mvolL d hd => exact ⟨hd, hR, hp, hram⟩
  | mvolR d hd => exact ⟨hL, hd, hp, hram⟩
  | port d => exact ⟨hL, hR, by rw [byteAddr_toNat]; omega, hram⟩
  | _ => exact ⟨hL, hR, hp, hram⟩

theorem exec_registersInv {i : Instr} {s t : State} (h : exec i s = .next t) (hs : s.RegistersInv) :
    t.RegistersInv := by
  have ⟨hL, hR, hp, hram⟩ := hs
  rcases exec_quiet_cases h with rfl | rfl | ⟨d, rfl⟩ | ⟨d, rfl⟩ | ⟨d, rfl⟩ | ⟨d, rfl⟩ | ⟨d, rfl⟩ | ⟨v, y, rfl⟩ | hq
  · rcases exec_tick_cases h with ⟨u, hu, rfl⟩ | ⟨u, hu⟩
    · obtain ⟨hL, hR, hp, hram⟩ := hu.only.registersInv hs
      exact ⟨hL, hR, hp, hram⟩
    · exact hu.only.registersInv hs
  · obtain ⟨hL, hR, hp, -⟩ := State.registersInv_reset
    cases h; exact ⟨hL, hR, hp, hram⟩
  · cases h; exact (keyOnAll_onlyVoices _ _ { s with konLo := d }).registersInv ⟨hL, hR, hp, hram⟩
  · cases h; exact (keyOnAll_onlyVoices _ _ { s with konHi := d }).registersInv ⟨hL, hR, hp, hram⟩
  · cases h; exact (keyOffAll_onlyVoices _ { s with koffLo := d }).registersInv ⟨hL, hR, hp, hram⟩
  · cases h; exact (keyOffAll_onlyVoices _ { s with koffHi := d }).registersInv ⟨hL, hR, hp, hram⟩
  · cases h; exact ⟨hL, hR, tptrNext_even hp, Memory.write16_wf _ d hram⟩
  · exact ⟨hL, hR, hp, hram⟩
  · exact hq.registersInv hs

/-! The state. -/

/-- A transaction of a block that is not halted keeps the invariant. -/
theorem State.Inv.exec {i : Instr} {s t : State} (hs : s.Inv) (hc : s.clean) (h : exec i s = .next t) : t.Inv := by
  obtain ⟨hL, hR, hp, hram⟩ := exec_registersInv h ⟨hs.mvolL, hs.mvolR, hs.tptr, hs.ram⟩
  have hf : t.faults.length ≤ 1 := by
    rcases exec_faults h with hf | ⟨e, hf⟩ <;> simp [hf, show s.faults = [] from hc]
  exact ⟨fun v => (exec_voiceChange h v).inv (hs.voices v),
    fun ht v => (exec_voiceChange h v).fetched ht (hs.fetched hc v), hL, hR, hp, hram, hf⟩

/-- Settles O54: the parts of the invariant are kept by the transaction performed; a refused word only adds the one
entry of FAULTS. -/
theorem everyStepKeepsTheInvariant : Obligations.EveryStepKeepsTheInvariant := by
  intro s t hs h
  obtain ⟨hc, rfl | ⟨w, rest, -, hstep⟩⟩ := step_cases h
  · exact hs
  · have htaken : State.Inv { s with stream := rest, pos := s.pos + 1 } :=
      ⟨hs.voices, hs.fetched, hs.mvolL, hs.mvolR, hs.tptr, hs.ram, hs.faults⟩
    rcases hstep with ⟨r, rfl⟩ | ⟨i, hi⟩
    · refine ⟨hs.voices, fun hclean => absurd hclean (not_clean_of_append rfl), hs.mvolL, hs.mvolR, hs.tptr, hs.ram, ?_⟩
      simp [show s.faults = [] from hc]
    · exact htaken.exec hc hi

/-- Settles O53: every voice is at `Voice.reset`, and nothing is written or recorded. -/
theorem powerOnMeetsTheInvariant : Obligations.PowerOnMeetsTheInvariant := by
  obtain ⟨hL, hR, hp, hram⟩ := State.registersInv_reset
  exact ⟨fun v => by rw [State.reset_voice]; exact Voice.inv_reset,
    fun _ v => by rw [State.reset_voice]; exact Voice.fetched_reset, hL, hR, hp, hram, Nat.zero_le 1⟩

end Sys2Proof.Machine

/-! What a transaction changes and what it leaves: OUT, FAULTS, ENDX, the settings of a voice, the pitch counter, and
the key-on. -/

namespace Sys2Proof.Machine

/-! OUT and FAULTS. -/

theorem OnlyVoices.out {p : VoiceIx → Prop} {s t : State} (h : OnlyVoices p s t) : t.out = s.out := by
  obtain ⟨⟨-, -, -, -, ho, -⟩, -⟩ := h.outside
  exact ho

/-- Settles O48: a tick that is not stopped emits its frame; every other transaction keeps OUT. -/
theorem onlyTickEmits : Obligations.OnlyTickEmits := by
  refine ⟨rfl, fun i s t h => ?_⟩
  rcases exec_cases h with rfl | rfl | ⟨d, rfl⟩ | ⟨d, rfl⟩ | ⟨d, rfl⟩ | ⟨d, rfl⟩ | ⟨d, rfl⟩ | ⟨v, y, -, rfl⟩ | hs
  · rcases exec_tick_cases h with ⟨u, hu, rfl⟩ | ⟨u, hu⟩
    · exact .inr ⟨rfl, hu.faults, tickFrame s, by rw [State.emit_out, hu.only.out]⟩
    · exact .inl hu.only.out
  · cases h; exact .inl rfl
  · cases h; exact .inl (keyOnAll_onlyVoices _ _ { s with konLo := d }).out
  · cases h; exact .inl (keyOnAll_onlyVoices _ _ { s with konHi := d }).out
  · cases h; exact .inl (keyOffAll_onlyVoices _ { s with koffLo := d }).out
  · cases h; exact .inl (keyOffAll_onlyVoices _ { s with koffHi := d }).out
  · cases h; exact .inl rfl
  · exact .inl rfl
  · exact .inl hs.out

/-- A transaction keeps the entries there were. -/
theorem exec_faults_grow {i : Instr} {s t : State} (h : exec i s = .next t) : s.faults <+: t.faults := by
  rcases exec_faults h with hf | ⟨e, hf⟩ <;> rw [hf]
  exact List.prefix_append _ _

/-- Settles O49: a transaction, and a step, adds entries at the end of FAULTS only. -/
theorem faultsOnlyGrow : Obligations.FaultsOnlyGrow := by
  refine ⟨rfl, fun i s t h => exec_faults_grow h, fun s t h => ?_⟩
  obtain ⟨-, rfl | ⟨w, rest, -, ⟨r, rfl⟩ | ⟨i, hi⟩⟩⟩ := step_cases h
  · exact List.prefix_refl _
  · exact List.prefix_append _ _
  · exact exec_faults_grow (s := { s with stream := rest, pos := s.pos + 1 }) hi

/-! ENDX. -/

/-- A key-on clears the ENDX bits of voices it names, and touches no other. -/
theorem keyOnAll_filter_endx (word : Word) (p : VoiceIx → Bool) (s : State) (v : VoiceIx) :
    (keyOnAll word (allVoices.filter p) s).state.endx.getLsbD v.val = s.endx.getLsbD v.val ∨
      ((keyOnAll word (allVoices.filter p) s).state.endx.getLsbD v.val = false ∧ p v = true) := by
  cases hp : p v with
  | false =>
    exact .inl ((keyOnAll_onlyVoices word (allVoices.filter p) s).endx v (by simp [hp]))
  | true =>
    rcases keyOnAll_filter_cases word p s with ⟨-, -, he, -⟩ | ⟨u, -, -, -, -, -, he, -⟩
    · exact .inr ⟨by rw [he v]; simp [hp], rfl⟩
    · by_cases hv : v ≤ u
      · exact .inr ⟨by rw [he v]; simp [hp, hv], rfl⟩
      · exact .inl (by rw [he v]; simp [hv])

/-- A tick sets the ENDX bits of voices that pass a loop end, and touches no other. -/
theorem exec_tick_endx {s t : State} (h : exec .tick s = .next t) (v : VoiceIx) :
    t.endx.getLsbD v.val = s.endx.getLsbD v.val ∨
      (t.endx.getLsbD v.val = true ∧ passesLoopEnd (s.voice v) = true) := by
  cases hp : passesLoopEnd (s.voice v) with
  | false =>
    rcases exec_tick_cases h with ⟨u, hu, rfl⟩ | ⟨u, hu⟩
    · exact .inl (by rw [State.emit_endx, hu.endx v]; simp [hp])
    · exact .inl (by rw [hu.endx v]; simp [hp])
  | true =>
    rcases exec_tick_cases h with ⟨u, hu, rfl⟩ | ⟨u, hu⟩
    · exact .inr ⟨by rw [State.emit_endx, hu.endx v]; simp [hp], rfl⟩
    · by_cases hv : v ≤ u
      · exact .inr ⟨by rw [hu.endx v]; simp [hp, hv], rfl⟩
      · exact .inl (by rw [hu.endx v]; simp [hv])

theorem keyOffAll_endx (vs : List VoiceIx) (s : State) : (keyOffAll vs s).endx = s.endx := by
  have h := congrArg State.endx (keyOffAll_rest vs s); exact h

/-- What a transaction does to an ENDX bit: nothing, or it is set by a tick, or cleared by a key-on or RESET. -/
theorem exec_endx {i : Instr} {s t : State} (h : exec i s = .next t) (v : VoiceIx) :
    t.endx.getLsbD v.val = s.endx.getLsbD v.val ∨
      (t.endx.getLsbD v.val = true ∧ i = .tick ∧ passesLoopEnd (s.voice v) = true) ∨
      (t.endx.getLsbD v.val = false ∧
        (i = .reset ∨ ∃ d, (i = .wrKonlo d ∧ inMaskLo d v = true) ∨ (i = .wrKonhi d ∧ inMaskHi d v = true))) := by
  rcases exec_cases h with rfl | rfl | ⟨d, rfl⟩ | ⟨d, rfl⟩ | ⟨d, rfl⟩ | ⟨d, rfl⟩ | ⟨d, rfl⟩ | ⟨w, y, -, rfl⟩ | hs
  · rcases exec_tick_endx h v with he | ⟨he, hp⟩
    · exact .inl he
    · exact .inr (.inl ⟨he, rfl, hp⟩)
  · cases h; exact .inr (.inr ⟨BitVec.getLsbD_zero, .inl rfl⟩)
  · cases h
    rcases keyOnAll_filter_endx (encode (.wrKonlo d)) (inMaskLo d) { s with konLo := d } v with he | ⟨he, hp⟩
    · exact .inl he
    · exact .inr (.inr ⟨he, .inr ⟨d, .inl ⟨rfl, hp⟩⟩⟩)
  · cases h
    rcases keyOnAll_filter_endx (encode (.wrKonhi d)) (inMaskHi d) { s with konHi := d } v with he | ⟨he, hp⟩
    · exact .inl he
    · exact .inr (.inr ⟨he, .inr ⟨d, .inr ⟨rfl, hp⟩⟩⟩)
  · cases h; exact .inl (by rw [keyOffAll_endx])
  · cases h; exact .inl (by rw [keyOffAll_endx])
  · cases h; exact .inl rfl
  · exact .inl rfl
  · exact .inl (by rw [hs.endx])

/-- Settles O52, by what a transaction does to one bit. -/
theorem endxBitsChangeOnlyAsGiven : Obligations.EndxBitsChangeOnlyAsGiven := by
  intro i s t v h
  rcases exec_endx h v with he | ⟨he, hset⟩ | ⟨he, hclear⟩
  · rw [he]
    exact ⟨fun h0 h1 => absurd (h0.symm.trans h1) Bool.false_ne_true,
      fun h1 h0 => absurd (h0.symm.trans h1) Bool.false_ne_true⟩
  · exact ⟨fun _ _ => hset, fun _ h0 => absurd (h0.symm.trans he) Bool.false_ne_true⟩
  · exact ⟨fun _ h1 => absurd (he.symm.trans h1) Bool.false_ne_true, fun _ _ => hclear⟩

/-! The settings of a voice. -/

/-- A register write but the six keeps the settings. -/
theorem SetsRegister.sameSettings {i : Instr} {v : VoiceIx} {x y : Voice} (h : SetsRegister i v x y)
    (hi : ∀ d, i ≠ .wrVoll (vsel v) d ∧ i ≠ .wrVolr (vsel v) d ∧ i ≠ .wrPitch (vsel v) d ∧ i ≠ .wrSaddr (vsel v) d ∧
      i ≠ .wrAdsrlo (vsel v) d ∧ i ≠ .wrAdsrhi (vsel v) d) : SameSettings x y := by
  obtain ⟨d, h⟩ := h
  obtain ⟨hl, hr, hp, hs, hlo, hhi⟩ := hi d
  rcases h with ⟨e, -, -⟩ | ⟨e, -, -⟩ | ⟨e, -⟩ | ⟨e, -⟩ | ⟨e, -⟩ | ⟨e, -⟩ | ⟨-, rfl⟩ | ⟨-, rfl⟩
  · exact absurd e hl
  · exact absurd e hr
  · exact absurd e hp
  · exact absurd e hs
  · exact absurd e hlo
  · exact absurd e hhi
  · exact .refl x
  · exact .refl x

/-- Settles O51, by what a transaction can leave as the voice. -/
theorem settingsChangeOnlyByTheirWrites : Obligations.SettingsChangeOnlyByTheirWrites := by
  intro i s t v h hr hi
  have hc := exec_voiceChange h v
  generalize t.voice v = y at hc ⊢
  cases hc with
  | reset e => exact absurd e hr
  | register _ hy => exact hy.sameSettings hi
  | ticked => exact sameSettings_tickedVoice s v
  | tickFaulted => exact sameSettings_movedVoice (s.voice v)
  | _ => exact .refl (s.voice v)

/-! The pitch counter. -/

/-- Settles O43: a tick that adds no entry to FAULTS was not stopped, so the voice is `tickedVoice`. -/
theorem pitchCounterAdvances : Obligations.PitchCounterAdvances := by
  intro s t v h hf ha hc
  rcases exec_tick_cases h with ⟨u, hu, rfl⟩ | ⟨u, hu⟩
  · rw [State.emit_voice, hu.voice v]
    refine ⟨by rw [tickedVoice_ctr, movedVoice_ctr ha hc], fun hin => ?_⟩
    have hp : passesBlockEnd (s.voice v) = false := by simp [passesBlockEnd, hin]
    rw [tickedVoice, if_neg (by simp [hp])]
    exact movedVoice_keeps_block hp
  · exact absurd (hu.faults.symm.trans hf) (by simp)

/-! Key-on. -/

/-- Settles O25: the key-on of the voices KON_LO names, from the state with KON_LO set. -/
theorem keyOnLowVoices : Obligations.KeyOnLowVoices := by
  intro s d
  obtain ⟨⟨hlo, hhi, hofflo, hoffhi⟩, hmix, hport, hram, hout, hhost⟩ :=
    keyOnAll_outside (encode (.wrKonlo d)) (allVoices.filter (inMaskLo d)) { s with konLo := d }
  refine ⟨fun he => ?_, fun v hv ho hb => ?_⟩
  · have hk := keyOnAll_filter_even (encode (.wrKonlo d)) (s := { s with konLo := d }) he
    exact ⟨_, exec_wrKonlo d s, hlo, hk, hhi, hofflo, hoffhi, hmix, hport, hram, hout, hhost⟩
  · have hk := keyOnAll_filter_odd (encode (.wrKonlo d)) (s := { s with konLo := d }) hv ho hb
    exact ⟨_, exec_wrKonlo d s, hlo, hk, hhi, hofflo, hoffhi, hmix, hport, hram, hout, hhost⟩

/-- Settles O26: the key-on of the voices KON_HI names, from the state with KON_HI set. -/
theorem keyOnHighVoices : Obligations.KeyOnHighVoices := by
  intro s d
  obtain ⟨⟨hlo, hhi, hofflo, hoffhi⟩, hmix, hport, hram, hout, hhost⟩ :=
    keyOnAll_outside (encode (.wrKonhi d)) (allVoices.filter (inMaskHi d)) { s with konHi := d }
  refine ⟨fun he => ?_, fun v hv ho hb => ?_⟩
  · have hk := keyOnAll_filter_even (encode (.wrKonhi d)) (s := { s with konHi := d }) he
    exact ⟨_, exec_wrKonhi d s, hhi, hk, hlo, hofflo, hoffhi, hmix, hport, hram, hout, hhost⟩
  · have hk := keyOnAll_filter_odd (encode (.wrKonhi d)) (s := { s with konHi := d }) hv ho hb
    exact ⟨_, exec_wrKonhi d s, hhi, hk, hlo, hofflo, hoffhi, hmix, hport, hram, hout, hhost⟩

end Sys2Proof.Machine

/-! The reverb and external volumes (10_state.md R37, R38), which nothing but their own reads depends on: with other
values in them every operation does the same. -/

namespace Sys2Proof.Machine

/-- The state with other values in EVOLL, EVOLR, EXTVOLL and EXTVOLR. -/
def State.withUnused (s : State) (a b c e : Half) : State :=
  { s with evolL := a, evolR := b, extvolL := c, extvolR := e }

/-- The sums of a tick, with other values in the four registers. -/
def Mix.withUnused (m : Mix) (a b c e : Half) : Mix := { m with s := m.s.withUnused a b c e }

/-- `f` on what a part of a transaction gives when it is done, `g` on the state a fault stopped it in. -/
def Progress.map {α : Type} (f : α → α) (g : State → State) : Progress α → Progress α
  | .done x => .done (f x)
  | .stopped s => .stopped (g s)

/-! The operations of key-on and TICK. -/

theorem fetchBlock_withUnused (word : Word) (v : VoiceIx) (s : State) (a b c e : Half) :
    fetchBlock word v (s.withUnused a b c e) =
      (fetchBlock word v s).map (·.withUnused a b c e) (·.withUnused a b c e) := by
  by_cases h : (s.voice v).cur.toNat % 16 = 0
  · rw [fetchBlock_aligned word h, fetchBlock_aligned (s := s.withUnused a b c e) word h]; rfl
  · rw [fetchBlock_misaligned word h, fetchBlock_misaligned (s := s.withUnused a b c e) word h]; rfl

theorem keyOnAll_withUnused (word : Word) (vs : List VoiceIx) (s : State) (a b c e : Half) :
    keyOnAll word vs (s.withUnused a b c e) =
      (keyOnAll word vs s).map (·.withUnused a b c e) (·.withUnused a b c e) := by
  induction vs generalizing s with
  | nil => rfl
  | cons v vs ih =>
    have hk : keyOn word v (s.withUnused a b c e) =
        (keyOn word v s).map (·.withUnused a b c e) (·.withUnused a b c e) :=
      fetchBlock_withUnused word v ((s.setVoice v (s.voice v).keyOn).clearEndx v) a b c e
    rw [keyOnAll, keyOnAll, hk]
    cases keyOn word v s with
    | done s' => exact ih s'
    | stopped s' => rfl

theorem keyOnAll_state_withUnused (word : Word) (vs : List VoiceIx) (s : State) (a b c e : Half) :
    (keyOnAll word vs (s.withUnused a b c e)).state = (keyOnAll word vs s).state.withUnused a b c e := by
  rw [keyOnAll_withUnused]
  cases keyOnAll word vs s <;> rfl

theorem keyOffAll_withUnused (vs : List VoiceIx) (s : State) (a b c e : Half) :
    keyOffAll vs (s.withUnused a b c e) = (keyOffAll vs s).withUnused a b c e := by
  induction vs generalizing s with
  | nil => rfl
  | cons v vs ih => exact ih (s.setVoice v (s.voice v).keyOff)

theorem endxMarked_withUnused (s : State) (v : VoiceIx) (a b c e : Half) :
    endxMarked (s.withUnused a b c e) v = (endxMarked s v).withUnused a b c e := by
  by_cases h : passesLoopEnd (s.voice v) = true
  · rw [endxMarked, endxMarked, if_pos h]; exact if_pos h
  · rw [endxMarked, endxMarked, if_neg h]; exact if_neg h

theorem tickVoice_withUnused (word : Word) (v : VoiceIx) (m : Mix) (a b c e : Half) :
    tickVoice word v (m.withUnused a b c e) =
      (tickVoice word v m).map (·.withUnused a b c e) (·.withUnused a b c e) := by
  cases h : tickMisaligned (m.s.voice v) with
  | false =>
    rw [tickVoice_done word h, tickVoice_done (m := m.withUnused a b c e) word h]
    simp only [Mix.withUnused, endxMarked_withUnused]
    rfl
  | true =>
    rw [tickVoice_stopped word h, tickVoice_stopped (m := m.withUnused a b c e) word h]
    simp only [Mix.withUnused, endxMarked_withUnused]
    rfl

theorem tickVoices_withUnused (word : Word) (vs : List VoiceIx) (m : Mix) (a b c e : Half) :
    tickVoices word vs (m.withUnused a b c e) =
      (tickVoices word vs m).map (·.withUnused a b c e) (·.withUnused a b c e) := by
  induction vs generalizing m with
  | nil => rfl
  | cons v vs ih =>
    rw [tickVoices, tickVoices, tickVoice_withUnused]
    cases tickVoice word v m with
    | done m' => exact ih m'
    | stopped s' => rfl

/-! The transactions. -/

/-- With other values in the four registers `f` leaves the same state, those registers apart. -/
def IgnoresUnused (f : State → Answer) : Prop :=
  ∀ (s t : State) (a b c e : Half), f s = .next t →
    ∃ u, f (s.withUnused a b c e) = .next u ∧ u.withUnused t.evolL t.evolR t.extvolL t.extvolR = t

theorem IgnoresUnused.next {f : State → State}
    (hf : ∀ s a b c e, (f (s.withUnused a b c e)).withUnused (f s).evolL (f s).evolR (f s).extvolL (f s).extvolR = f s) :
    IgnoresUnused fun s => .next (f s) := by
  intro s t a b c e h
  cases h
  exact ⟨_, rfl, hf s a b c e⟩

/-- So does an operation that commutes with the change of these registers. -/
theorem IgnoresUnused.next_of_comm {f : State → State}
    (hf : ∀ s a b c e, f (s.withUnused a b c e) = (f s).withUnused a b c e) :
    IgnoresUnused fun s => .next (f s) :=
  .next fun s a b c e => by rw [hf]; rfl

theorem IgnoresUnused.withVoice {n : BitVec 5} {k : State → VoiceIx → Answer}
    (hk : ∀ v, IgnoresUnused fun s => k s v) : IgnoresUnused fun s => Machine.withVoice n (k s) := by
  intro s t a b c e h
  obtain ⟨v, rfl, hv⟩ := withVoice_next h
  simp only [withVoice_vsel]
  exact hk v s t a b c e hv

theorem IgnoresUnused.ite {p : Prop} [Decidable p] {f g : State → Answer} (hf : IgnoresUnused f)
    (hg : IgnoresUnused g) : IgnoresUnused fun s => if p then f s else g s := by
  by_cases hp : p
  · simpa only [if_pos hp] using hf
  · simpa only [if_neg hp] using hg

theorem ignoresUnused_readVoice (n : BitVec 5) (get : Voice → Half) : IgnoresUnused (readVoice n · get) :=
  .withVoice (k := fun s v => .next (s.returnValue (get (s.voice v)))) fun v =>
    .next (f := fun s => s.returnValue (get (s.voice v))) fun _ _ _ _ _ => rfl

theorem ignoresUnused_writeVoice (n : BitVec 5) (put : Voice → Voice) : IgnoresUnused (writeVoice n · put) :=
  .withVoice (k := fun s v => .next (s.setVoice v (put (s.voice v)))) fun v =>
    .next (f := fun s => s.setVoice v (put (s.voice v))) fun _ _ _ _ _ => rfl

theorem ignoresUnused_writeVolume (n : BitVec 5) (d : Half) (word : Word) (put : Voice → Voice) :
    IgnoresUnused (writeVolume n d word · put) :=
  .ite (.withVoice (k := fun s _ => .next (s.refuse .volumeSweep word)) fun _ =>
    .next (f := fun s => s.refuse .volumeSweep word) fun _ _ _ _ _ => rfl) (ignoresUnused_writeVoice n put)

theorem ignoresUnused_tick : IgnoresUnused (exec .tick) := by
  have hm (s : State) (a b c e : Half) := tickVoices_withUnused (encode .tick) allVoices ⟨0, 0, s⟩ a b c e
  refine .next_of_comm fun s a b c e => ?_
  rw [show (⟨0, 0, s.withUnused a b c e⟩ : Mix) = Mix.withUnused ⟨0, 0, s⟩ a b c e from rfl, hm]
  cases tickVoices (encode .tick) allVoices ⟨0, 0, s⟩ <;> rfl

theorem exec_ignoresUnused {i : Instr} (h1 : i ≠ .rdEvoll) (h2 : i ≠ .rdEvolr) (h3 : i ≠ .rdExtvoll)
    (h4 : i ≠ .rdExtvolr) : IgnoresUnused (exec i) := by
  cases i
  case rdEvoll => exact absurd rfl h1
  case rdEvolr => exact absurd rfl h2
  case rdExtvoll => exact absurd rfl h3
  case rdExtvolr => exact absurd rfl h4
  case tick => exact ignoresUnused_tick
  case wrKonlo d => exact .next_of_comm fun s a b c e => keyOnAll_state_withUnused _ _ { s with konLo := d } a b c e
  case wrKonhi d => exact .next_of_comm fun s a b c e => keyOnAll_state_withUnused _ _ { s with konHi := d } a b c e
  case wrKofflo d => exact .next_of_comm fun s a b c e => keyOffAll_withUnused _ { s with koffLo := d } a b c e
  case wrKoffhi d => exact .next_of_comm fun s a b c e => keyOffAll_withUnused _ { s with koffHi := d } a b c e
  case wrVoll n d => exact ignoresUnused_writeVolume n d _ fun x => { x with voll := d }
  case wrVolr n d => exact ignoresUnused_writeVolume n d _ fun x => { x with volr := d }
  case wrMvoll d | wrMvolr d => exact .ite (.next fun _ _ _ _ _ => rfl) (.next fun _ _ _ _ _ => rfl)
  case rdVoll n => exact ignoresUnused_readVoice n Voice.voll
  case rdVolr n => exact ignoresUnused_readVoice n Voice.volr
  case rdPitch n => exact ignoresUnused_readVoice n Voice.pitch
  case rdSaddr n => exact ignoresUnused_readVoice n Voice.saddr
  case rdAdsrlo n => exact ignoresUnused_readVoice n Voice.adsrLo
  case rdAdsrhi n => exact ignoresUnused_readVoice n Voice.adsrHi
  case rdEnvx n => exact ignoresUnused_readVoice n fun x => envxRead x.level
  case rdRaddr n => exact ignoresUnused_readVoice n Voice.raddr
  case wrPitch n d => exact ignoresUnused_writeVoice n fun x => { x with pitch := d }
  case wrSaddr n d => exact ignoresUnused_writeVoice n fun x => { x with saddr := d }
  case wrAdsrlo n d => exact ignoresUnused_writeVoice n fun x => { x with adsrLo := d }
  case wrAdsrhi n d => exact ignoresUnused_writeVoice n fun x => { x with adsrHi := d }
  case wrEnvx n d => exact ignoresUnused_writeVoice n fun x => { x with level := envxLevel d }
  case wrRaddr n d => exact ignoresUnused_writeVoice n fun x => { x with raddr := d }
  all_goals exact .next fun _ _ _ _ _ => rfl

/-- Settles O14: no transaction but the four reads lets one of these registers reach anything else. -/
theorem unusedVolumesHaveNoEffect : Obligations.UnusedVolumesHaveNoEffect :=
  fun _ s t a b c e h1 h2 h3 h4 h => exec_ignoresUnused h1 h2 h3 h4 s t a b c e h

/-! Registers read back (spec/44_control.md R243 to R254). -/

/-- A voice register read after a write of the same voice. -/
theorem readVoice_writeVoice (get : Voice → Half) (put : Voice → Voice) (s : State) (v : VoiceIx) :
    ∃ t u, writeVoice (vsel v) s put = .next t ∧ readVoice (vsel v) t get = .next u ∧
      u.reads = s.reads ++ [get (put (s.voice v))] :=
  ⟨s.setVoice v (put (s.voice v)), _, withVoice_vsel v _, withVoice_vsel v _, by simp⟩

/-- ENVX reads the low 15 bits written (R105). -/
theorem envxRead_envxLevel (d : Half) : envxRead (envxLevel d) = d &&& 0x7FFF := by
  have h : (0x7FFF : Half).toNat = 2 ^ 15 - 1 := rfl
  have := d.isLt
  apply BitVec.eq_of_toNat_eq
  rw [envxRead, envxLevel, BitVec.toNat_setWidth, extractLsb'_toNat_eq_div_mod, BitVec.toNat_and, h,
    Nat.and_two_pow_sub_one_eq_mod]
  omega

/-- Settles O22: each pair is a read after a write of one field of the voice. -/
theorem voiceRegistersReadBackWhatWasWritten : Obligations.VoiceRegistersReadBackWhatWasWritten := by
  intro s v d
  refine ⟨readVoice_writeVoice Voice.pitch (fun x => { x with pitch := d }) s v,
    readVoice_writeVoice Voice.saddr (fun x => { x with saddr := d }) s v,
    readVoice_writeVoice Voice.adsrLo (fun x => { x with adsrLo := d }) s v,
    readVoice_writeVoice Voice.adsrHi (fun x => { x with adsrHi := d }) s v,
    readVoice_writeVoice Voice.raddr (fun x => { x with raddr := d }) s v, ?_⟩
  rw [← envxRead_envxLevel]
  exact readVoice_writeVoice (fun x => envxRead x.level) (fun x => { x with level := envxLevel d }) s v

/-! RAM. -/

/-- Byte `i` of the block at an address inside RAM (20_memory.md R62). -/
theorem blockAt_getElem (s : State) {a : Nat} (h : a < 524288) (i : Fin 16) :
    (s.blockAt a)[i] = (s.ram.read (a + i.val)).getD (Config.ramInit (a + i.val)) := by
  simp [State.blockAt, Config.ramBytes, h, State.ramByte]

/-- Settles O31, byte by byte: what a fetch reads, and what a halfword write leaves to be read. -/
theorem fetchedBlocksHoldTheRamBytes : Obligations.FetchedBlocksHoldTheRamBytes := by
  refine ⟨fun s a _ ha i => ?_, fun s t d a h _ ha i => ?_⟩
  · rw [blockAt_getElem s ha]
    exact ⟨fun x hx => by rw [hx]; rfl, fun hx => by rw [hx]; rfl⟩
  · cases h
    have hptr := s.tptr.isLt
    rw [blockAt_getElem _ ha, blockAt_getElem s ha, Memory.read_write16, Config.ramBytes]
    refine ⟨fun hlo => ?_, fun hhi => ?_, fun hlo hhi => ?_⟩
    · rw [if_neg (by omega), if_pos hlo]; rfl
    · rw [if_pos hhi]; rfl
    · rw [if_neg hhi, if_neg hlo]

/-! The sample of a voice. -/

/-- Settles O40: the index of R223 is the whole part of the counter, and it is inside the block. -/
theorem sampleUnderTheEnvelope : Obligations.SampleUnderTheEnvelope := by
  intro x h
  have hi : x.ctr.toNat / 4096 < 28 := by omega
  simp only [Voice.enveloped, asr, interpSample, x.sampleIx_eq, dif_pos hi]

/-! RESET. -/

theorem atReset_reset : AtReset Voice.reset := by
  refine ⟨rfl, rfl, rfl, rfl, rfl, rfl, rfl, rfl, rfl, rfl, rfl, rfl, fun i => ?_, rfl, rfl, rfl⟩
  exact Vector.getElem_replicate _

theorem reset_voices_atReset (v : VoiceIx) : AtReset (State.reset.voice v) := by
  rw [State.reset_voice]; exact atReset_reset

/-- Settles O45: RESET leaves `State.reset` but for RAM, OUT, FAULTS and the host's side. -/
theorem resetLeavesTheTable : Obligations.ResetLeavesTheTable :=
  ⟨⟨reset_voices_atReset, rfl, ⟨rfl, rfl, rfl, rfl⟩, ⟨rfl, rfl, rfl, rfl, rfl, rfl⟩, rfl, rfl, fun _ => rfl, rfl, rfl⟩,
    fun _ => ⟨_, rfl, reset_voices_atReset, rfl, ⟨rfl, rfl, rfl, rfl⟩, ⟨rfl, rfl, rfl, rfl, rfl, rfl⟩, rfl, rfl,
      fun _ => rfl, rfl, rfl⟩⟩

/-- Settles O46: RESET copies the three fields of the host. -/
theorem resetKeepsTheHostSide : Obligations.ResetKeepsTheHostSide := fun _ => ⟨_, rfl, rfl, rfl, rfl⟩

end Sys2Proof.Machine

/-! RAM and the transaction taken (20_memory.md R61, R63, R64, R71): what can change a byte of RAM, what a TDATA write
stores, and a step on a word that decodes. -/

namespace Sys2Proof.Machine

/-! RAM. -/

/-- Every transaction but a TDATA write keeps RAM, stopped by a fault or not. -/
theorem exec_ram {i : Instr} {s t : State} (hi : ∀ d, i ≠ .wrTdata d) (h : exec i s = .next t) : t.ram = s.ram := by
  rcases exec_cases h with rfl | rfl | ⟨d, rfl⟩ | ⟨d, rfl⟩ | ⟨d, rfl⟩ | ⟨d, rfl⟩ | ⟨d, rfl⟩ | ⟨v, y, -, rfl⟩ | hs
  · rcases exec_tick_cases h with ⟨u, hu, rfl⟩ | ⟨u, hu⟩
    · rw [State.emit_ram, hu.only.outside.2]
    · exact hu.only.outside.2
  · cases h; rfl
  · cases h; exact (keyOnAll_onlyVoices _ _ { s with konLo := d }).outside.2
  · cases h; exact (keyOnAll_onlyVoices _ _ { s with konHi := d }).outside.2
  · cases h; exact (keyOffAll_onlyVoices _ { s with koffLo := d }).outside.2
  · cases h; exact (keyOffAll_onlyVoices _ { s with koffHi := d }).outside.2
  · exact absurd rfl (hi d)
  · exact State.setVoice_ram s v y
  · exact hs.ram

/-- Settles O47: RAM is kept whole, so every byte of it is. -/
theorem onlyTdataChangesRam : Obligations.OnlyTdataChangesRam :=
  fun _ _ _ hi h a => by rw [exec_ram hi h]

/-! The TDATA write. -/

/-- The two addresses of a halfword differ, also where the second wraps to 0 (R64). -/
theorem ramAddr_ne_next (p : RamAddr) : p.toNat ≠ (p.toNat + 1) % Config.ramBytes := by
  have hp := p.isLt
  rw [Config.ramBytes]
  omega

/-- T.ptr moves by two bytes modulo RAM_BYTES (R63). -/
theorem tptrNext_toNat (p : RamAddr) : (tptrNext p).toNat = (p.toNat + 2) % Config.ramBytes := by
  rw [tptrNext, BitVec.toNat_ofNat]
  exact Nat.mod_mod _ _

/-- Settles O17: what a read gives after a halfword write, at its two addresses and at every other. -/
theorem tdataWriteStoresAHalfword : Obligations.TdataWriteStoresAHalfword := by
  intro s d
  have hread := Memory.read_write16 s.ram s.tptr d
  refine ⟨_, rfl, ?_, ?_, fun a hlo hhi => ?_, tptrNext_toNat s.tptr, rfl, fun _ => rfl, rfl, rfl, ⟨rfl, rfl, rfl, rfl⟩,
    ⟨rfl, rfl, rfl, rfl, rfl, rfl⟩, rfl, rfl, rfl, rfl⟩
  · rw [hread, if_neg (ramAddr_ne_next s.tptr), if_pos rfl]
  · rw [hread, if_pos rfl]
  · rw [hread, if_neg hhi, if_neg hlo]

/-! The word taken. -/

theorem State.halted_of_clean {s : State} (h : s.clean) : s.halted = false := by
  rw [State.halted, show s.faults = [] from h]; rfl

theorem State.takeWord_of_cons {s : State} {w : Word} {rest : List Word} (h : s.stream = w :: rest) :
    s.takeWord = some (w, { s with stream := rest, pos := s.pos + 1 }) := by
  rw [State.takeWord, h]

/-- Settles O6: the block is not halted, so the first word is taken and decoded. -/
theorem stepPerformsTheDecodedWord : Obligations.StepPerformsTheDecodedWord := by
  intro s w rest i hc hs hd
  simp only [step, State.halted_of_clean hc, State.takeWord_of_cons hs, hd, Bool.false_eq_true, if_false]

end Sys2Proof.Machine

/-! The transaction word (30_encoding.md R90 to R99): decoder and encoder undo each other, and which words are refused,
with the reason. -/

namespace Sys2Proof

/-! Decoder and encoder. -/

/-- Settles O4, by the shape of the instruction: each kind of word has its lemma on the decoder. -/
theorem decodeInvertsEncode : Obligations.DecodeInvertsEncode := by
  intro i hi
  rcases i.shape with rfl | rfl | ⟨r, d, rfl⟩ | ⟨r, rfl⟩
  · decide
  · decide
  · rw [encode_regWrite]
    exact decode_encodeWrite r d (by rwa [wellFormed_regWrite] at hi)
  · rw [encode_regRead]
    exact decode_encodeRead r hi

/-- A CTL word is its operation and its zero field (R90). -/
theorem opOf_append_ctlOf (w : Word) : opOf w ++ ctlOf w = w := by
  rw [opOf, ctlOf, BitVec.extractLsb'_append_extractLsb'_eq_extractLsb' (by rfl), BitVec.extractLsb'_eq_self]

/-- Settles O5: a CTL word is given by its operation, a REG word by its fields, and its register sits at its offset. -/
theorem encodeInvertsDecode : Obligations.EncodeInvertsDecode := by
  intro w i h
  obtain ⟨hrsv, ⟨hop, hctl, rfl⟩ | ⟨hop, hctl, rfl⟩ | ⟨r, hreg, heven, hri⟩⟩ := decode_cases h
  · exact ⟨rfl, by rw [← opOf_append_ctlOf w, hop, hctl]; rfl⟩
  · exact ⟨rfl, by rw [← opOf_append_ctlOf w, hop, hctl]; rfl⟩
  · obtain ⟨hoffs, hwf⟩ := offs_regAt _ r hreg heven
    have hw := packReg_fields w hrsv
    obtain ⟨hop, rfl⟩ | ⟨hop, hdata, rfl⟩ := hri
    · rw [hop, ← hoffs] at hw
      exact ⟨by rwa [wellFormed_regWrite], by rwa [encode_regWrite]⟩
    · rw [hop, ← hoffs, hdata] at hw
      exact ⟨hwf, by rwa [encode_regRead]⟩

/-- A well-formed instruction is spelled by one word only. -/
theorem decode_eq_ok_iff {w : Word} {i : Instr} (hi : i.wellFormed = true) : decode w = .ok i ↔ w = encode i :=
  ⟨fun h => (encodeInvertsDecode w i h).2.symm, fun h => h ▸ decodeInvertsEncode i hi⟩

/-- Settles O2: the two words are the encodings of the two instructions. -/
theorem tickAndResetAreSingleWords : Obligations.TickAndResetAreSingleWords :=
  fun _ => ⟨decode_eq_ok_iff (i := .tick) rfl, decode_eq_ok_iff (i := .reset) rfl⟩

/-- Settles O1: thirteen runs of the decoder. -/
theorem wordsOfTheSpecDecode : Obligations.WordsOfTheSpecDecode := by
  unfold Obligations.WordsOfTheSpecDecode
  decide

/-! The refusals. -/

/-- The holes of the window (R97), among the even offsets. -/
theorem regAt_eq_none_iff (offs : BitVec 9) (even : offs.getLsbD 0 = false) :
    regAt offs = none ↔
      (0x190 ≤ offs.toNat ∧ offs.toNat ≤ 0x19A) ∨ (0x1A0 ≤ offs.toNat ∧ offs.toNat ≤ 0x1A4) ∨
        (0x1AA ≤ offs.toNat ∧ offs.toNat ≤ 0x1B2) ∨ (0x1B8 ≤ offs.toNat ∧ offs.toNat ≤ 0x1FE) := by
  revert offs
  decide

/-- The four operations by the two top bits of the word (R91). -/
theorem opOf_eq_iff (w : Word) (o : BitVec 2) :
    opOf w = o ↔ w.getLsbD 31 = o.getLsbD 1 ∧ w.getLsbD 30 = o.getLsbD 0 := by
  have bits : ∀ p q : BitVec 2, p = q ↔ p.getLsbD 1 = q.getLsbD 1 ∧ p.getLsbD 0 = q.getLsbD 0 := by decide
  rw [bits, opOf, BitVec.getLsbD_extractLsb', BitVec.getLsbD_extractLsb']
  rfl

theorem offsOf_getLsbD_zero (w : Word) : (offsOf w).getLsbD 0 = w.getLsbD 16 := by simp [offsOf]

/-- The checks of R99 on the bits of the word: RSV, then of a CTL word (bit 31) the zero field, of a REG word the parity
of the offset (bit 16), the data of a read (bit 30) and the register map. -/
theorem decode_eq (w : Word) :
    decode w =
      if rsvOf w ≠ 0 then .error .reservedBits
      else if w.getLsbD 31 then
        if ctlOf w ≠ 0 then .error .nonzeroField else .ok (if w.getLsbD 30 then .reset else .tick)
      else if w.getLsbD 16 then .error .oddOffset
      else if w.getLsbD 30 ∧ dataOf w ≠ 0 then .error .nonzeroField
      else (regAt (offsOf w)).elim (.error .unmappedOffset) fun r =>
        .ok (if w.getLsbD 30 then regRead r else regWrite (dataOf w) r) := by
  simp only [decode, opOf_eq_iff, offsOf_getLsbD_zero]
  cases w.getLsbD 31
  case true => cases w.getLsbD 30 <;> simp
  case false => cases w.getLsbD 30 <;> cases regAt (offsOf w) <;> simp

/-- Settles O3, along the checks of R99. -/
theorem reservedWordsAreRefusedByName : Obligations.ReservedWordsAreRefusedByName := by
  intro w
  simp only [← rsvOf.eq_def, ← ctlOf.eq_def, ← dataOf.eq_def, ← offsOf.eq_def]
  rw [decode_eq]
  by_cases hrsv : rsvOf w = 0#5
  case neg => simp [hrsv]
  cases w.getLsbD 31
  case true => by_cases hctl : ctlOf w = 0#30 <;> simp [hrsv, hctl]
  cases h16 : w.getLsbD 16
  case true => simp [hrsv]
  rw [← regAt_eq_none_iff (offsOf w) (by rwa [offsOf_getLsbD_zero])]
  cases w.getLsbD 30
  case false => cases regAt (offsOf w) <;> simp [hrsv]
  by_cases hdata : dataOf w = 0#16
  case neg => simp [hrsv, hdata]
  cases regAt (offsOf w) <;> simp [hrsv, hdata]

end Sys2Proof

/-! The operands of the encoding (30_encoding.md R101, R103, R104, R110 to R113), and a word refused at decode. -/

namespace Sys2Proof.Machine

/-! A refused word. -/

/-- Settles O7: the block is not halted, so the first word is taken; the entry of its refusal is the only one. -/
theorem stepRecordsARefusedWord : Obligations.StepRecordsARefusedWord := by
  intro s w rest r hc hs hd
  simp only [step, State.halted_of_clean hc, State.takeWord_of_cons hs, hd, Bool.false_eq_true, if_false,
    State.refuse, State.record, show s.faults = [] from hc, List.nil_append]

/-! The two halves of ENDX (R104). -/

theorem endxLo_getLsbD (e : BitVec 24) (i : Nat) : (endxLo e).getLsbD i = (decide (i < 16) && e.getLsbD i) := by
  rw [endxLo, BitVec.getLsbD_extractLsb', Nat.zero_add]

theorem endxHi_getLsbD (e : BitVec 24) (i : Nat) : (endxHi e).getLsbD i = (decide (i < 8) && e.getLsbD (16 + i)) := by
  rw [endxHi, BitVec.getLsbD_setWidth, BitVec.getLsbD_extractLsb']
  by_cases h : i < 8
  · simp [h, show i < 16 by omega]
  · simp [h]

/-- Settles O20: the values returned are the two halves. -/
theorem endxReads : Obligations.EndxReads := by
  intro s
  refine ⟨⟨endxLo s.endx, rfl, fun i hi => ?_⟩, ⟨endxHi s.endx, rfl, fun i hi => ?_, fun i hi => ?_⟩⟩
  · rw [endxLo_getLsbD, decide_eq_true hi, Bool.true_and]
  · rw [endxHi_getLsbD, decide_eq_true hi, Bool.true_and]
  · rw [endxHi_getLsbD, decide_eq_false (by omega), Bool.false_and]

/-! Voice masks (R103). -/

/-- Bits 15:8 of a high mask name no voice. -/
theorem inMaskHi_upper_bits (d : Half) (v : VoiceIx) : inMaskHi (d &&& 0xFF00) v = false := by
  have upper : ∀ v : VoiceIx, (0xFF00 : Half).getLsbD (v.val - 16) = false := by decide
  rw [inMaskHi, BitVec.getLsbD_and, upper, Bool.and_false, Bool.and_false]

/-- Settles O27: a mask is the ascending list of all voices, filtered. -/
theorem masksNameTheirVoices : Obligations.MasksNameTheirVoices := by
  intro d v
  refine ⟨?_, ?_, allVoices_sorted.filter _, allVoices_sorted.filter _, ?_⟩
  · simp [inMaskLo]
  · simp [inMaskHi]
  · exact List.filter_eq_nil_iff.mpr fun v _ => by rw [inMaskHi_upper_bits]; exact Bool.false_ne_true

/-! Volumes (R101). -/

/-- Settles O42: bits 14:0 as a remainder, read as a signed number. -/
theorem effectiveVolume : Obligations.EffectiveVolume := by
  intro d
  rw [volEff, BitVec.toInt_eq_toNat_cond, extractLsb'_toNat_eq_div_mod]
  split <;> split <;> omega

/-! The ADPCM decoder (R110 to R113, 40_adpcm.md R131 to R135). -/

/-- Sample `i` of a block as an integer: its residual, and the prediction from the two samples before it or from what
was given. -/
theorem decodeBlock_out_toInt (b : Block) (old older : Sample) (i : Fin 28) :
    ((decodeBlock b old older).out[i]).toInt =
      clamp16 (residualTerm (residualOf b i) (shiftOf b) +
        prediction (filterOf b)
          (if i.val = 0 then old.toInt else ((decodeBlock b old older).out[i.val - 1]).toInt)
          (if i.val = 0 then older.toInt
            else if i.val = 1 then old.toInt else ((decodeBlock b old older).out[i.val - 2]).toInt)) := by
  have hi : i.val < (residuals b).length := by rw [residuals_length]; exact i.isLt
  rw [Fin.getElem_fin, decodeBlock_out, decodeRun_getElem _ _ _ _ _ _ hi, decodeSample_toInt,
    residuals_getElem b i.val i.isLt]
  congr 3
  · split <;> rfl
  · split
    · rfl
    · split <;> rfl

/-- Settles O28: the run of the decoder sample by sample, with the fields of the block in plain arithmetic. -/
theorem decodedSamplesFollowTheRecurrence : Obligations.DecodedSamplesFollowTheRecurrence := by
  intro b old older
  refine ⟨fun i => ?_, rfl, rfl, fun k => ?_⟩
  · rw [decodeBlock_out_toInt, clamp16_eq_sat16]
    simp only [← residualOf_toNat, ← nibble_toInt, ← shiftOf_eq, ← filterOf_eq, ← pos_eq, ← neg_eq]
    rfl
  · show (blockFlags b).getLsbD k = _
    rw [blockFlags, BitVec.getLsbD_extractLsb', Nat.zero_add]

end Sys2Proof.Machine

/-! Reserved headers and silence (30_encoding.md R112, 40_adpcm.md R131, R132, R139). -/

namespace Sys2Proof.Machine

/-! A block under another header. -/

theorem residuals_set_header (b : Block) (x : Byte) : residuals (b.set 0 x) = residuals b := by
  have byte : ∀ i : Fin 28, (b.set 0 x)[2 + i.val / 2] = b[2 + i.val / 2] := fun i =>
    Vector.getElem_set_ne (by decide) _ (by omega)
  rw [residuals, residuals]
  congr 1
  funext i
  rw [residualOf, residualOf, byte]

theorem blockFlags_set_header (b : Block) (x : Byte) : blockFlags (b.set 0 x) = blockFlags b := by
  rw [blockFlags, blockFlags, Vector.getElem_set_ne (by decide) (by decide) (by decide)]

/-- The decoder looks at the header only for the shift and the filter (R131, R132). -/
theorem decodeBlock_set_header {b : Block} {x : Byte} (old older : Sample)
    (hs : shiftOf (b.set 0 x) = shiftOf b) (hf : filterOf (b.set 0 x) = filterOf b) :
    decodeBlock (b.set 0 x) old older = decodeBlock b old older := by
  have samples : decodeSamples (b.set 0 x) old older = decodeSamples b old older := by
    simp only [decodeSamples, hs, hf, residuals_set_header]
  rw [decodeBlock, decodeBlock, samples, blockFlags_set_header]

/-- Two headers decode alike when their fields, the reserved values read as R131 and R132 say, are the same. -/
theorem decodeBlock_set_header_of_fields {b : Block} {x : Byte} (old older : Sample)
    (hs : (if x.toNat % 16 > 12 then 9 else x.toNat % 16) =
      if b[0].toNat % 16 > 12 then 9 else b[0].toNat % 16)
    (hf : min (x.toNat / 16 % 8) 4 = min (b[0].toNat / 16 % 8) 4) :
    decodeBlock (b.set 0 x) old older = decodeBlock b old older := by
  apply decodeBlock_set_header
  · rw [shiftOf_eq, shiftOf_eq, Vector.getElem_set_self, hs]
  · rw [Fin.ext_iff, filterOf_eq, filterOf_eq, Vector.getElem_set_self, hf]

/-! The fields of a masked header byte. -/

theorem header_and_shift_toNat (x : Byte) : (x &&& 0x0F).toNat = x.toNat % 16 := by revert x; decide

theorem header_and_filter_toNat (x : Byte) : (x &&& 0x70).toNat = x.toNat / 16 % 8 * 16 := by revert x; decide

theorem header_and_low7_toNat (x : Byte) : (x &&& 0x7F).toNat = x.toNat % 128 := by revert x; decide

theorem header_with_shift_9_toNat (x : Byte) : (x &&& 0xF0 ||| 0x09).toNat = x.toNat / 16 * 16 + 9 := by
  revert x; decide

theorem header_with_filter_4_toNat (x : Byte) :
    (x &&& 0x8F ||| 0x40).toNat = x.toNat / 128 * 128 + 64 + x.toNat % 16 := by
  revert x; decide

/-- Settles O29: each of the three headers has the shift and the filter the given one acts as. -/
theorem reservedHeadersActAsGiven : Obligations.ReservedHeadersActAsGiven := by
  intro b old older
  refine ⟨fun hshift => decodeBlock_set_header_of_fields _ _ ?_ ?_,
    fun hfilter => decodeBlock_set_header_of_fields _ _ ?_ ?_, decodeBlock_set_header_of_fields _ _ ?_ ?_⟩
  · rw [header_and_shift_toNat] at hshift
    rw [header_with_shift_9_toNat, if_pos hshift, if_neg (by omega)]
    omega
  · rw [header_with_shift_9_toNat]
    omega
  · have shift : (b[0] &&& 0x8F ||| 0x40).toNat % 16 = b[0].toNat % 16 := by
      rw [header_with_filter_4_toNat]
      omega
    rw [shift]
  · rw [header_and_filter_toNat] at hfilter
    rw [header_with_filter_4_toNat]
    omega
  · rw [header_and_low7_toNat, Nat.mod_mod_of_dvd _ (by decide)]
  · rw [header_and_low7_toNat]
    omega

/-! Silence. -/

theorem filterOf_eq_zero {b : Block} (h : (b[0] &&& 0x70) = 0) : filterOf b = 0 := by
  have hf : b[0].toNat / 16 % 8 * 16 = 0 := by rw [← header_and_filter_toNat, h]; rfl
  rw [Fin.ext_iff, filterOf_eq, Fin.val_zero]
  omega

/-- Data bytes of zero hold residuals of zero (R113). -/
theorem residualOf_eq_zero {b : Block} (h : ∀ i : Fin 16, 2 ≤ i.val → b[i] = 0) (i : Fin 28) : residualOf b i = 0 := by
  have byte : b[2 + i.val / 2] = 0 := h ⟨2 + i.val / 2, by omega⟩ (Nat.le_add_right _ _)
  apply BitVec.eq_of_toNat_eq
  rw [residualOf_toNat, byte]
  split <;> rfl

theorem residualTerm_zero (sh : Nat) : residualTerm 0 sh = 0 := Int.zero_ediv _

/-- Filter 0 ignores the history: the rounding term alone is below one step (R139). -/
theorem prediction_filter_zero (old older : Int) : prediction 0 old older = 0 := by
  simp [prediction, Config.pos, Config.neg, asr]

/-- Settles O30: of each sample both terms are zero, and the new history is two of the samples. -/
theorem zeroBlocksDecodeToSilence : Obligations.ZeroBlocksDecodeToSilence := by
  intro b old older hfilter hdata
  have silent : ∀ i : Fin 28, (decodeBlock b old older).out[i] = 0 := fun i => by
    apply BitVec.eq_of_toInt_eq
    rw [decodeBlock_out_toInt, filterOf_eq_zero hfilter, residualOf_eq_zero hdata, residualTerm_zero,
      prediction_filter_zero]
    rfl
  exact ⟨silent, silent 27, silent 26⟩

end Sys2Proof.Machine

/-! The terminator (41_spu_ram.md R154, R158): the blocks it fetches, and a voice that plays it in a tick. -/

namespace Sys2Proof.Machine

/-- The part of `InTerminator` that is about the voice: it stands in one of the two blocks of the terminator at block
`n`, with zero samples. -/
structure Voice.PlaysTerminator (x : Voice) (n : Nat) : Prop where
  raddr : x.raddr.toNat = 2 * n
  block : (x.cur.toNat = 16 * n ∧ x.flags = 4) ∨ (x.cur.toNat = 16 * n + 16 ∧ x.flags = 3)
  silent : ∀ i : Fin 28, x.buf[i] = 0
  ctr : x.ctr.toNat < 28 * 4096

theorem inTerminator_iff {s : State} {v : VoiceIx} {n : Nat} :
    InTerminator s v n ↔ n ≤ 32766 ∧ TerminatorAt s n ∧ (s.voice v).PlaysTerminator n :=
  ⟨fun ⟨hn, hram, hr, hb, hs, hc⟩ => ⟨hn, hram, hr, hb, hs, hc⟩,
    fun ⟨hn, hram, hr, hb, hs, hc⟩ => ⟨hn, hram, hr, hb, hs, hc⟩⟩

/-! The two blocks. -/

/-- Byte `i` of the block at `a`. -/
theorem ramBlock_getElem (s : State) (a : Nat) (i : Fin 16) : (ramBlock s a)[i] = s.ramByte (a + i.val) := by
  simp [ramBlock, State.ramByte]

theorem TerminatorAt.first_block {s : State} {n : Nat} (h : TerminatorAt s n) (i : Fin 16) :
    (ramBlock s (16 * n))[i] = if i.val = 1 then 0x04 else 0 := by
  rw [ramBlock_getElem, h i.val (by omega), if_neg (show ¬ i.val = 17 by omega)]

theorem TerminatorAt.second_block {s : State} {n : Nat} (h : TerminatorAt s n) (i : Fin 16) :
    (ramBlock s (16 * n + 16))[i] = if i.val = 1 then 0x03 else 0 := by
  rw [ramBlock_getElem, Nat.add_assoc, h (16 + i.val) (by omega), if_neg (show ¬ 16 + i.val = 1 by omega)]
  by_cases hi : i.val = 1
  · rw [if_pos hi, if_pos (by omega)]
  · rw [if_neg hi, if_neg (by omega)]

/-- A block with zero bytes but for its flag byte decodes to silence. -/
theorem decodeBlock_silent {b : Block} {f : Byte} (hb : ∀ i : Fin 16, b[i] = if i.val = 1 then f else 0)
    (old older : Sample) (i : Fin 28) : (decodeBlock b old older).out[i] = 0 := by
  have hheader : b[0] = 0 := hb 0
  have hdata (j : Fin 16) (hj : 2 ≤ j.val) : b[j] = 0 := by rw [hb j, if_neg (by omega)]
  exact (zeroBlocksDecodeToSilence b old older (by rw [hheader]; rfl) hdata).1 i

/-! A voice that plays it. -/

namespace Voice.PlaysTerminator

variable {x : Voice} {n : Nat}

/-- Every sample is 0, so both terms are. -/
theorem mixTerms_eq_zero (h : x.PlaysTerminator n) : mixTerms x = (0, 0) := by
  have hi : x.ctr.toNat / 4096 < 28 := by have := h.ctr; omega
  have hsample : x.buf[x.ctr.toNat / 4096]? = some 0 := by
    rw [Vector.getElem?_eq_getElem hi]
    exact congrArg some (h.silent ⟨_, hi⟩)
  rw [mixTerms, hsample]
  simp

/-- The first block goes on to the second; the second, whose END flag is set, back to the first. -/
theorem blockEndTarget_cases (h : x.PlaysTerminator n) (hn : n ≤ 32766) :
    blockEndTarget x = 16 * n ∨ blockEndTarget x = 16 * n + 16 := by
  have hr := h.raddr
  rcases h.block with ⟨hc, hf⟩ | ⟨-, hf⟩
  · right
    rw [blockEndTarget, hf, if_neg (by decide)]
    omega
  · left
    rw [blockEndTarget, hf, if_pos (by decide)]
    omega

theorem tickMisaligned_eq_false (h : x.PlaysTerminator n) (hn : n ≤ 32766) : tickMisaligned x = false := by
  have : blockEndTarget x % 16 = 0 := by rcases h.blockEndTarget_cases hn with ht | ht <;> omega
  simp [tickMisaligned, this]

end Voice.PlaysTerminator

/-- A fetch in the terminator, of whichever of its blocks the voice has come to. -/
theorem fetchedVoice_playsTerminator {s : State} {x : Voice} {n : Nat} (hram : TerminatorAt s n)
    (hr : x.raddr.toNat = 2 * n) (hcur : x.cur.toNat = 16 * n ∨ x.cur.toNat = 16 * n + 16)
    (hctr : x.ctr.toNat < 28 * 4096) : (fetchedVoice s x).PlaysTerminator n := by
  rcases hcur with hc | hc
  · have hb := hram.first_block
    have hflags : (ramBlock s (16 * n))[1] = 0x04 := hb 1
    refine ⟨?_, .inl ⟨hc, ?_⟩, ?_, hctr⟩
    · simp only [fetchedVoice, hc, hflags]
      rw [if_pos (by decide), BitVec.toNat_ofNat]
      omega
    · simp only [fetchedVoice, hc, hflags]; decide
    · simp only [fetchedVoice, hc]; exact decodeBlock_silent hb _ _
  · have hb := hram.second_block
    have hflags : (ramBlock s (16 * n + 16))[1] = 0x03 := hb 1
    refine ⟨?_, .inr ⟨hc, ?_⟩, ?_, hctr⟩
    · simp only [fetchedVoice, hc, hflags]
      rw [if_neg (by decide)]
      exact hr
    · simp only [fetchedVoice, hc, hflags]; decide
    · simp only [fetchedVoice, hc]; exact decodeBlock_silent hb _ _

/-- Neither the envelope nor the advance sets RADDR. -/
theorem movedVoice_raddr (x : Voice) : (movedVoice x).raddr = x.raddr := by
  unfold movedVoice
  split
  · rfl
  · split
    · simp
    · split <;> simp

/-- The counter stays inside the block (R222). -/
theorem movedVoice_ctr_lt {x : Voice} (h : x.ctr.toNat < 28 * 4096) : (movedVoice x).ctr.toNat < 28 * 4096 := by
  by_cases ha : x.phase = .off
  · rwa [movedVoice, if_pos ha]
  · rw [movedVoice_ctr ha h]
    exact Nat.mod_lt _ (by decide)

/-- A tick takes the voice on in its block, or to the block it fetches next. -/
theorem tickedVoice_playsTerminator {s : State} {v : VoiceIx} {n : Nat} (hn : n ≤ 32766) (hram : TerminatorAt s n)
    (h : (s.voice v).PlaysTerminator n) : (tickedVoice s v).PlaysTerminator n := by
  have hctr := movedVoice_ctr_lt h.ctr
  unfold tickedVoice
  split
  · rename_i hp
    obtain ⟨hc, hlt⟩ := movedVoice_cur hp
    have hcur : (movedVoice (s.voice v)).cur.toNat = blockEndTarget (s.voice v) := by
      rw [hc, BitVec.toNat_ofNat, Nat.mod_eq_of_lt hlt]
    exact fetchedVoice_playsTerminator hram (by rw [movedVoice_raddr]; exact h.raddr)
      (by rw [hcur]; exact h.blockEndTarget_cases hn) hctr
  · rename_i hp
    obtain ⟨hcur, hbuf, hflags, hraddr, -⟩ := movedVoice_keeps_block (by simpa using hp)
    exact ⟨by rw [hraddr]; exact h.raddr, by rw [hcur, hflags]; exact h.block, by rw [hbuf]; exact h.silent, hctr⟩

/-- Settles O44: a voice in the terminator goes to no misaligned block, so a tick moves it whole, or is stopped by a
voice before it and leaves it; RAM is kept. -/
theorem terminatorIsSilentForEver : Obligations.TerminatorIsSilentForEver := by
  intro s t v n hin h
  obtain ⟨hn, hram, hplay⟩ := inTerminator_iff.mp hin
  have hram' : TerminatorAt t n := fun i hi => by
    rw [State.ramByte, exec_ram (fun _ => Instr.noConfusion) h]
    exact hram i hi
  refine ⟨hplay.mixTerms_eq_zero, inTerminator_iff.mpr ⟨hn, hram', ?_⟩⟩
  have hticked := tickedVoice_playsTerminator hn hram hplay
  rcases exec_tick_cases h with ⟨u, hu, rfl⟩ | ⟨u, hu⟩
  · rwa [State.emit_voice, hu.voice v]
  · rcases lt_trichotomy v u with hlt | rfl | hlt
    · rwa [hu.before v hlt]
    · exact absurd (hu.misaligned.symm.trans (hplay.tickMisaligned_eq_false hn)) (by decide)
    · rwa [hu.after v hlt]

end Sys2Proof.Machine

/-! The host's uploads (41_spu_ram.md R151 to R157): the words of a sample and of its terminator, and the redirection of
sample addresses. -/

namespace Sys2Proof.Machine

/-- Settles O55: the data is an even number of bytes, each halfword of it two bytes of the sample or its padding. -/
theorem writeSampleWords : Obligations.WriteSampleWords := by
  intro h bytes
  have hnb : (sampleBlocks bytes.length).val = min ((bytes.length + 15) / 16) 32768 := rfl
  have hlen := sampleData_length bytes
  refine ⟨?_, rfl, rfl, rfl⟩
  show sampleWords bytes = _
  rw [← hnb, sampleWords, pseudoWram, halfwords_eq _ (by omega), hlen, List.map_map,
    show 16 * (sampleBlocks bytes.length).val / 2 = 8 * (sampleBlocks bytes.length).val by omega]
  congr 1
  refine List.map_congr_left fun j hj => ?_
  have hj := List.mem_range.mp hj
  rw [Function.comp_apply, sampleData_getD bytes (by omega), sampleData_getD bytes (by omega)]

/-- The word of a TADDR write: the offset of TADDR above the data (30_encoding.md R96, R120). -/
theorem encode_wrTaddr (d : Half) : encode (.wrTaddr d) = 0x01A60000 + BitVec.ofNat 32 d.toNat := by
  have hd := d.isLt
  have hhigh : (0x01A60000 : Word) + BitVec.ofNat 32 d.toNat = (0x01A6 : Half) ++ d := by
    apply BitVec.eq_of_toNat_eq
    rw [BitVec.toNat_append, ← Nat.shiftLeft_add_eq_or_of_lt hd]
    bv_omega
  rw [hhigh]
  rfl

theorem terminatorBlockIndexFor_eq (n : BlockCount) : terminatorBlockIndexFor n = min n.val 32766 := rfl

/-- Settles O56: TADDR is twice the block index, which the field holds; the sixteen TDATA words are fixed. -/
theorem terminatorWords : Obligations.TerminatorWords := by
  refine fun n => ⟨terminatorBlockIndexFor_eq n, ?_⟩
  have data : ((terminatorStart ++ terminatorEnd).map Instr.wrTdata).map encode =
      0x01A80400 :: (List.replicate 7 0x01A80000 ++ 0x01A80300 :: List.replicate 7 0x01A80000) := by decide
  rw [placeTerminator, pseudoWram, List.map_cons, data, encode_wrTaddr, terminatorBlockIndexFor_eq, BitVec.toNat_ofNat,
    Nat.mod_eq_of_lt (by omega)]

/-- Settles O57: by the two branches of the redirection; an address of the sample is a multiple of 8 that the register
holds. -/
theorem redirectedAddressesAreBlockAligned : Obligations.RedirectedAddressesAreBlockAligned := by
  intro count addr
  have hcount : count.val < 32769 := count.isLt
  refine ⟨redirect_even count addr, fun haligned hinside => ?_, fun hout => ?_⟩
  · rw [redirect, if_neg (by omega), BitVec.toNat_ofNat]
    omega
  · rw [redirect, if_pos hout, terminatorBlockIndexFor_eq, BitVec.toNat_ofNat]
    omega

end Sys2Proof.Machine

/-! The host's stream (44_control.md R290, R298, R299): what its pieces hold, the ranges they keep, and that a key-on
comes after a sample and its terminator. -/

namespace Sys2Proof.Machine

/-! The transactions of one piece. -/

/-- A transaction of the initialization of a MasterMix register, of a RAM upload, or one permitted by itself. -/
def IssuedBy (laws : HostLaws) (h : HostState) (i : Instr) : Prop :=
  i ∈ initMasterMix laws.masterVol ∨ (∃ d, i = .wrTaddr d) ∨ (∃ d, i = .wrTdata d) ∨ hostMay h i = true

/-- Every transaction of a permitted piece is one of these. -/
theorem Piece.issued_of_permitted {laws : HostLaws} {s : State} {h : HostState} {p : Piece}
    (hp : p.permitted laws s h = true) : ∀ i ∈ (p.issue laws s h).1, IssuedBy laws h i := by
  have upload {units : Half} {hs : List Half} (i : Instr) (hi : i ∈ pseudoWram units hs) : IssuedBy laws h i := by
    rcases mem_pseudoWram hi with rfl | ⟨d, rfl⟩
    · exact .inr (.inl ⟨units, rfl⟩)
    · exact .inr (.inr (.inl ⟨d, rfl⟩))
  rcases Piece.permitted_cases hp with ⟨rfl, -⟩ | ⟨bytes, rfl⟩ | rfl | ⟨raw, rfl⟩ | ⟨hmay, -⟩
  · exact fun i hi => .inl hi
  · exact upload
  · exact upload
  · exact fun i hi => absurd hi List.not_mem_nil
  · exact fun i hi => .inr (.inr (.inr (hmay i hi)))

/-- What every piece's transactions satisfy, the stream's do. -/
theorem hostRun_forall {laws : HostLaws} {q : Instr → Prop}
    (hq : ∀ (h : HostState) (i : Instr), IssuedBy laws h i → q i) {s : State} {h : HostState} {ps : List Piece}
    {stream : List Instr} (hr : hostRun laws s h ps = some stream) : ∀ i ∈ stream, q i := by
  induction ps generalizing s h stream with
  | nil => cases hr; exact fun i hi => absurd hi List.not_mem_nil
  | cons p ps ih =>
    obtain ⟨hp, rest, hrest, rfl⟩ := hostRun_cons hr
    intro i hi
    rcases List.mem_append.mp hi with hi | hi
    · exact hq h i (Piece.issued_of_permitted hp i hi)
    · exact ih hrest i hi

/-! Ranges and addresses (R299, 41_spu_ram.md R157). -/

/-- An address write of a piece is judged by `hostMay`, so its address is inside the sample. -/
theorem IssuedBy.address_inside {laws : HostLaws} {h : HostState} {i : Instr} {v : BitVec 5} {d : Half}
    (hi : IssuedBy laws h i) (haddr : i = .wrSaddr v d ∨ i = .wrRaddr v d) :
    insideSample h.blockCount d = true := by
  rcases hi with hi | ⟨e, rfl⟩ | ⟨e, rfl⟩ | hmay
  · rcases haddr with rfl | rfl <;> simp [initMasterMix] at hi
  · simp at haddr
  · simp at haddr
  · obtain ⟨-, hduty, -⟩ := hostMay_cases hmay
    rcases haddr with rfl | rfl <;> exact hduty

/-- Only a pitch-bend in its range sets something that came from outside. -/
theorem onEvent_inRange {laws : HostLaws} (envx : VoiceIx → Half) {h : HostState} (e : Event)
    (hin : h.inRange laws.ranges = true) : (onEvent laws envx h e).2.inRange laws.ranges = true := by
  cases e with
  | noteOn n v => simp only [onEvent]; split <;> exact hin
  | noteOff n => exact hin
  | pitchBend b =>
    simp only [onEvent]
    split
    · rename_i hb
      obtain ⟨hparams, -⟩ := Bool.and_eq_true_iff.mp hin
      exact Bool.and_eq_true_iff.mpr ⟨hparams, hb⟩
    · exact hin
  | controlChange c v => exact hin

theorem onEvents_inRange {laws : HostLaws} (envx : VoiceIx → Half) {h : HostState} (es : List Event)
    (hin : h.inRange laws.ranges = true) : (onEvents laws envx h es).2.inRange laws.ranges = true := by
  induction es generalizing h with
  | nil => exact hin
  | cons e es ih => exact ih (onEvent_inRange envx e hin)

/-- New parameters are taken only in their ranges. -/
theorem HostGroup.issue_inRange {laws : HostLaws} {h : HostState} (g : HostGroup)
    (hin : h.inRange laws.ranges = true) : (g.issue laws h).2.inRange laws.ranges = true := by
  cases g with
  | init => exact hin
  | writeSample bytes => exact hin
  | placeTerminator => exact hin
  | params raw =>
    obtain ⟨hparams, hbend⟩ := Bool.and_eq_true_iff.mp hin
    refine Bool.and_eq_true_iff.mpr ⟨?_, hbend⟩
    show ((raw.validate laws.ranges).getD h.params).inRange laws.ranges = true
    cases hv : raw.validate laws.ranges with
    | none => exact hparams
    | some p => exact RawParams.validate_inRange hv
  | update words => exact hin

theorem Piece.issue_inRange {laws : HostLaws} (s : State) {h : HostState} (p : Piece)
    (hin : h.inRange laws.ranges = true) : (p.issue laws s h).2.inRange laws.ranges = true := by
  cases p with
  | control g => exact g.issue_inRange hin
  | audio b => exact onEvents_inRange s.envx b.events hin

/-- Settles O60: the range check at the start, then piece by piece; of an address write the duty of R157. -/
theorem hostPiecesKeepRangesAndAddresses : Obligations.HostPiecesKeepRangesAndAddresses := by
  refine ⟨fun ranges raw bend h hb => ?_, fun laws s h p hin hp => ⟨p.issue_inRange s hin, fun v d hd => ?_⟩⟩
  · obtain ⟨params, hv, hbend, rfl⟩ := HostState.boot_cases hb
    exact Bool.and_eq_true_iff.mpr ⟨RawParams.validate_inRange hv, hbend⟩
  · have issued := Piece.issued_of_permitted hp
    have inside : insideSample h.blockCount d = true := by
      rcases hd with hd | hd
      · exact (issued _ hd).address_inside (.inl rfl)
      · exact (issued _ hd).address_inside (.inr rfl)
    exact (insideSample_iff h.blockCount d).mp inside

/-! What the block refuses. -/

/-- A transaction that the block does not refuse, and no odd address. -/
structure NotRefused (i : Instr) : Prop where
  wellFormed : i.wellFormed = true
  noRead : i ≠ .rdTdata
  volume : ∀ v d, i = .wrVoll v d ∨ i = .wrVolr v d → d.getLsbD 15 = false
  master : ∀ d, i = .wrMvoll d ∨ i = .wrMvolr d → d.getLsbD 15 = false
  address : ∀ v d, i = .wrSaddr v d ∨ i = .wrRaddr v d → d.toNat % 2 = 0

/-- The master volumes are two of the initialization, bit 15 of them clear. -/
theorem notRefused_of_mem_initMasterMix {m : BitVec 15} {i : Instr} (hi : i ∈ initMasterMix m) :
    NotRefused i := by
  have hclear : (fixedVolume m)[15] = false := isSweep_fixedVolume m
  simp only [initMasterMix, List.mem_cons, List.not_mem_nil, or_false] at hi
  rcases hi with rfl | rfl | rfl | rfl | rfl | rfl <;>
    exact ⟨rfl, Instr.noConfusion, by simp, by simp [hclear], by simp⟩

theorem notRefused_of_hostMay {h : HostState} {i : Instr} (hi : hostMay h i = true) : NotRefused i := by
  obtain ⟨hwf, hduty, hmix, -⟩ := hostMay_cases hi
  refine ⟨hwf, ?_, fun v d hv => ?_, fun d hd => ?_, fun v d hv => ?_⟩
  · rintro rfl; exact absurd hduty Bool.false_ne_true
  · rcases hv with rfl | rfl <;> exact Bool.not_eq_true' _ |>.mp hduty
  · rcases hd with rfl | rfl <;> exact absurd hmix.symm Bool.false_ne_true
  · have inside : insideSample h.blockCount d = true := by rcases hv with rfl | rfl <;> exact hduty
    exact ((insideSample_iff h.blockCount d).mp inside).1

theorem IssuedBy.notRefused {laws : HostLaws} {h : HostState} {i : Instr} (hi : IssuedBy laws h i) :
    NotRefused i := by
  rcases hi with hi | ⟨d, rfl⟩ | ⟨d, rfl⟩ | hmay
  · exact notRefused_of_mem_initMasterMix hi
  · exact ⟨rfl, Instr.noConfusion, by simp, by simp, by simp⟩
  · exact ⟨rfl, Instr.noConfusion, by simp, by simp, by simp⟩
  · exact notRefused_of_hostMay hmay

/-! The first key-on. -/

/-- No transaction of the list keys a voice on. -/
def KeysNone (is : List Instr) : Prop := ∀ i ∈ is, keysOn i = false

theorem KeysNone.append {xs ys : List Instr} (hx : KeysNone xs) (hy : KeysNone ys) : KeysNone (xs ++ ys) :=
  fun i hi => (List.mem_append.mp hi).elim (hx i) (hy i)

theorem keysNone_pseudoWram (units : Half) (hs : List Half) : KeysNone (pseudoWram units hs) := fun i hi => by
  rcases mem_pseudoWram hi with rfl | ⟨d, rfl⟩ <;> rfl

theorem keysNone_initMasterMix (m : BitVec 15) : KeysNone (initMasterMix m) := by
  simp [KeysNone, initMasterMix, keysOn]

/-- A sample and its terminator are placed before the first key-on, if there is one. -/
def SampleBeforeKeyOn (stream : List Instr) : Prop :=
  KeysNone stream ∨
    ∃ before bytes between rest,
      stream = before ++ sampleWords bytes ++ between ++ placeTerminator (sampleBlocks bytes.length) ++ rest ∧
        KeysNone before ∧ KeysNone between

/-- So is the terminator of a sample of `count` blocks that has been placed already. -/
def TerminatorBeforeKeyOn (count : BlockCount) (stream : List Instr) : Prop :=
  KeysNone stream ∨
    ∃ between rest, stream = between ++ placeTerminator count ++ rest ∧ KeysNone between

/-- What is still to come before the first key-on when the loading of the sample, of `count` blocks, is at `stage`. A
written sample may yet be replaced by another. -/
def LoadedBeforeKeyOn (count : BlockCount) : SampleStage → List Instr → Prop
  | .none, stream => SampleBeforeKeyOn stream
  | .written, stream => TerminatorBeforeKeyOn count stream ∨ SampleBeforeKeyOn stream
  | .terminated, _ => True

theorem SampleBeforeKeyOn.prepend {xs stream : List Instr} (hx : KeysNone xs) (h : SampleBeforeKeyOn stream) :
    SampleBeforeKeyOn (xs ++ stream) := by
  rcases h with h | ⟨before, bytes, between, rest, rfl, hb, hbetween⟩
  · exact .inl (hx.append h)
  · exact .inr ⟨xs ++ before, bytes, between, rest, by simp only [List.append_assoc], hx.append hb, hbetween⟩

theorem TerminatorBeforeKeyOn.prepend {count : BlockCount} {xs stream : List Instr} (hx : KeysNone xs)
    (h : TerminatorBeforeKeyOn count stream) : TerminatorBeforeKeyOn count (xs ++ stream) := by
  rcases h with h | ⟨between, rest, rfl, hb⟩
  · exact .inl (hx.append h)
  · exact .inr ⟨xs ++ between, rest, by simp only [List.append_assoc], hx.append hb⟩

theorem LoadedBeforeKeyOn.prepend {count : BlockCount} {stage : SampleStage} {xs stream : List Instr}
    (hx : KeysNone xs) (h : LoadedBeforeKeyOn count stage stream) : LoadedBeforeKeyOn count stage (xs ++ stream) := by
  cases stage with
  | none => exact SampleBeforeKeyOn.prepend hx h
  | written => exact h.imp (.prepend hx) (.prepend hx)
  | terminated => trivial

/-- A sample written, whatever stood in RAM before it. -/
theorem SampleBeforeKeyOn.of_writeSample {bytes : List Byte} {stream : List Instr}
    (h : LoadedBeforeKeyOn (sampleBlocks bytes.length) .written stream) :
    SampleBeforeKeyOn (sampleWords bytes ++ stream) := by
  have hwords : KeysNone (sampleWords bytes) := keysNone_pseudoWram _ _
  rcases h with (h | ⟨between, rest, rfl, hbetween⟩) | h
  · exact .inl (hwords.append h)
  · exact .inr ⟨[], bytes, between, rest, by simp only [List.nil_append, List.append_assoc],
      fun i hi => absurd hi List.not_mem_nil, hbetween⟩
  · exact h.prepend hwords

theorem LoadedBeforeKeyOn.of_sampleBeforeKeyOn {stream : List Instr} (h : SampleBeforeKeyOn stream)
    (count : BlockCount) (stage : SampleStage) : LoadedBeforeKeyOn count stage stream := by
  cases stage with
  | none => exact h
  | written => exact .inr h
  | terminated => trivial

/-- A terminator placed: where no sample has been written it loads nothing. -/
theorem LoadedBeforeKeyOn.of_placeTerminator {count : BlockCount} {stage : SampleStage} {stream : List Instr}
    (h : LoadedBeforeKeyOn count stage.terminate stream) :
    LoadedBeforeKeyOn count stage (placeTerminator count ++ stream) := by
  cases stage with
  | none => exact SampleBeforeKeyOn.prepend (keysNone_pseudoWram _ _) h
  | written => exact .inl (.inr ⟨[], stream, rfl, fun i hi => absurd hi List.not_mem_nil⟩)
  | terminated => trivial

/-- Transactions permitted one by one key nothing before the sample is in RAM with its terminator. -/
theorem LoadedBeforeKeyOn.of_hostMay {h : HostState} {xs stream : List Instr} (hmay : ∀ i ∈ xs, hostMay h i = true)
    (hs : LoadedBeforeKeyOn h.blockCount h.stage stream) :
    LoadedBeforeKeyOn h.blockCount h.stage (xs ++ stream) := by
  by_cases hstage : h.stage = .terminated
  · rw [hstage]; trivial
  · refine hs.prepend fun i hi => ?_
    obtain ⟨-, -, -, -, hkeys | hready⟩ := hostMay_cases (hmay i hi)
    · exact hkeys
    · exact absurd (of_decide_eq_true (Bool.and_eq_true_iff.mp hready).2) hstage

/-- By the pieces of the stream, each against the stage it leaves. -/
theorem hostRun_loadedBeforeKeyOn {laws : HostLaws} {s : State} {h : HostState} {ps : List Piece}
    {stream : List Instr} (hr : hostRun laws s h ps = some stream) :
    LoadedBeforeKeyOn h.blockCount h.stage stream := by
  induction ps generalizing s h stream with
  | nil =>
    cases hr
    exact .of_sampleBeforeKeyOn (.inl fun i hi => absurd hi List.not_mem_nil) _ _
  | cons p ps ih =>
    obtain ⟨hp, rest, hrest, rfl⟩ := hostRun_cons hr
    have hloaded := ih hrest
    rcases Piece.permitted_cases hp with ⟨rfl, -⟩ | ⟨bytes, rfl⟩ | rfl | ⟨raw, rfl⟩ | ⟨hmay, -, hstage, hcount⟩
    · exact hloaded.prepend (keysNone_initMasterMix _)
    · exact .of_sampleBeforeKeyOn (.of_writeSample hloaded) _ _
    · exact .of_placeTerminator hloaded
    · exact hloaded
    · rw [hstage, hcount] at hloaded
      exact .of_hostMay hmay hloaded

/-- Settles O59: a host starts with no sample written, and none of its transactions is refused. -/
theorem hostStreamsKeyOnlySamplesAndAreNotRefused : Obligations.HostStreamsKeyOnlySamplesAndAreNotRefused := by
  rintro laws grain raw bend control audio stream ⟨h, pieces, hb, -, hr⟩
  obtain ⟨params, -, -, rfl⟩ := HostState.boot_cases hb
  refine ⟨hostRun_loadedBeforeKeyOn hr, fun i hi => ?_⟩
  obtain ⟨hwf, hread, hvol, hmaster, haddr⟩ := hostRun_forall (fun _ _ => IssuedBy.notRefused) hr i hi
  exact ⟨hwf, hread, hvol, hmaster, haddr⟩

end Sys2Proof.Machine

/-! A tick as a whole (43_voice_mixer.md R220), and what it and every other transaction do to the phase and the level
of a voice (42_envelope.md R171, R180). -/

namespace Sys2Proof.Machine

/-! TICK as a whole. -/

/-- Settles O37: what a tick that is not stopped leaves, and then its frame. -/
theorem tickEmitsOneFrameAndMovesEveryVoice : Obligations.TickEmitsOneFrameAndMovesEveryVoice := by
  intro s h
  obtain ⟨u, hu, he⟩ := exec_tick_done h
  obtain ⟨hkeys, hmix, hport, hram, hout, hhost⟩ := hu.only.outside.1
  exact ⟨_, he, by rw [State.emit_out, hout], hu.voice, hu.endx, hu.faults, hkeys, hmix, hport, hram, hhost⟩

/-- Settles O38: what a tick leaves that is stopped at `v`; its word is 0x80000000. -/
theorem tickStopsAtTheFirstMisalignedFetch : Obligations.TickStopsAtTheFirstMisalignedFetch := by
  intro s v hv hb
  obtain ⟨t, ht, he⟩ := exec_tick_stopped hv hb
  obtain ⟨hkeys, hmix, hport, hram, hout, hhost⟩ := ht.only.outside.1
  exact ⟨t, he, hout, ht.before, ht.moved, ht.after, fun w => by rw [ht.endx w, Bool.and_comm], ht.faults, hkeys, hmix,
    hport, hram, hhost⟩

/-! Phase and level of a voice in a tick. -/

@[simp] theorem tickedVoice_phase (s : State) (v : VoiceIx) :
    (tickedVoice s v).phase = (movedVoice (s.voice v)).phase := by
  unfold tickedVoice; split <;> rfl

@[simp] theorem tickedVoice_level (s : State) (v : VoiceIx) :
    (tickedVoice s v).level = (movedVoice (s.voice v)).level := by
  unfold tickedVoice; split <;> rfl

/-- A voice in a tick has the phase and the level of its envelope step, or is muted at a loop end without REP (R214). -/
theorem movedVoice_envelope (x : Voice) :
    ((movedVoice x).phase = x.envTick.phase ∧ (movedVoice x).level = x.envTick.level) ∨
      ((movedVoice x).phase = .release ∧ (movedVoice x).level = 0 ∧ x.phase ≠ .off ∧ passesLoopEnd x = true ∧
        x.flags.getLsbD 1 = false) := by
  unfold movedVoice
  split
  · rename_i hoff
    exact .inl (by rw [Voice.envTick_off hoff]; exact ⟨rfl, rfl⟩)
  · rename_i hoff
    rw [envelopeTicked_eq_envTick]
    split
    · exact .inl ⟨rfl, rfl⟩
    · rename_i hp
      split
      · rename_i hmute
        obtain ⟨hend, hrep⟩ := Bool.and_eq_true_iff.mp hmute
        refine .inr ⟨rfl, rfl, hoff, ?_, by simpa using hrep⟩
        simp [passesLoopEnd, hp, hend]
      · exact .inl ⟨rfl, rfl⟩

/-- A tick leaves a voice as it was, or moves its phase and its level as `movedVoice` says; a fetch sets neither. -/
theorem exec_tick_envelope {s t : State} (h : exec .tick s = .next t) (v : VoiceIx) :
    t.voice v = s.voice v ∨
      ((t.voice v).phase = (movedVoice (s.voice v)).phase ∧ (t.voice v).level = (movedVoice (s.voice v)).level) := by
  rcases exec_tick_cases h with ⟨u, hu, rfl⟩ | ⟨u, hu⟩
  · rw [State.emit_voice, hu.voice v]; exact .inr ⟨tickedVoice_phase s v, tickedVoice_level s v⟩
  · rcases lt_trichotomy v u with hlt | rfl | hlt
    · rw [hu.before v hlt]; exact .inr ⟨tickedVoice_phase s v, tickedVoice_level s v⟩
    · rw [hu.moved]; exact .inr ⟨rfl, rfl⟩
    · exact .inl (hu.after v hlt)

/-- Settles O33: the envelope step does not raise the level, and a mute makes it 0. -/
theorem noTickRaisesADecayingLevel : Obligations.NoTickRaisesADecayingLevel := by
  intro s t v h hp
  rcases exec_tick_envelope h v with hv | ⟨-, hl⟩
  · rw [hv]
  · rw [hl]
    rcases movedVoice_envelope (s.voice v) with ⟨-, hm⟩ | ⟨-, hm, -⟩
    · rw [hm]; exact Voice.envTick_level_le hp
    · rw [hm]; exact Nat.zero_le _

/-! The phase of a voice in the other transactions. -/

theorem SetsRegister.phase {i : Instr} {v : VoiceIx} {x y : Voice} (h : SetsRegister i v x y) : y.phase = x.phase := by
  obtain ⟨d, ⟨-, -, rfl⟩ | ⟨-, -, rfl⟩ | ⟨-, rfl⟩ | ⟨-, rfl⟩ | ⟨-, rfl⟩ | ⟨-, rfl⟩ | ⟨-, rfl⟩ | ⟨-, rfl⟩⟩ := h <;> rfl

/-- A key-on takes voices it names to Attack, whether their fetch faults or not, and keeps the phase of every other. -/
theorem keyOnAll_filter_phase (word : Word) (p : VoiceIx → Bool) (s : State) (v : VoiceIx) :
    ((keyOnAll word (allVoices.filter p) s).state.voice v).phase = (s.voice v).phase ∨
      (((keyOnAll word (allVoices.filter p) s).state.voice v).phase = .attack ∧ p v = true) := by
  have keyed {y : Voice} (hy : y = if p v then fetchedVoice s (startedVoice (s.voice v)) else s.voice v) :
      y.phase = (s.voice v).phase ∨ (y.phase = .attack ∧ p v = true) := by
    rw [hy]
    split
    · exact .inr ⟨rfl, ‹_›⟩
    · exact .inl rfl
  rcases keyOnAll_filter_cases word p s with ⟨-, hv, -⟩ | ⟨u, hu, -, hw, hs, ha, -⟩
  · exact keyed (hv v)
  · rcases lt_trichotomy v u with hlt | rfl | hlt
    · exact keyed (hw v hlt)
    · rw [hs]; exact .inr ⟨rfl, hu⟩
    · rw [ha v hlt]; exact .inl rfl

/-- A key-off takes the voices of its list to Release. -/
theorem keyOffAll_phase (vs : List VoiceIx) (s : State) (v : VoiceIx) :
    ((keyOffAll vs s).voice v).phase = (s.voice v).phase ∨
      (((keyOffAll vs s).voice v).phase = .release ∧ v ∈ vs) := by
  rw [keyOffAll_voice]
  split
  · exact .inr ⟨rfl, ‹_›⟩
  · exact .inl rfl

/-- The sustain threshold (R174) from the low four bits of ADSR_LO. -/
theorem sustainThreshold_eq (lo : Half) : sustainThreshold lo = min (((lo &&& 0xF).toNat + 1) * 0x800) 0x7FFF := by
  have h : sustainLevel lo = (lo &&& 0xF).toNat := by
    rw [sustainLevel, extractLsb'_toNat_eq_div_mod, pow_zero, Nat.div_one, BitVec.toNat_and]
    exact (Nat.and_two_pow_sub_one_eq_mod _ 4).symm
  rw [sustainThreshold, h]

/-- The phase of a voice in a tick: the phase check (R178), or the mute. -/
theorem exec_tick_phase {s t : State} (h : exec .tick s = .next t) (v : VoiceIx)
    (hne : (t.voice v).phase ≠ (s.voice v).phase) :
    ((s.voice v).phase = .attack ∧ (t.voice v).phase = .decay ∧ (t.voice v).level.toNat = 0x7FFF) ∨
      ((s.voice v).phase = .decay ∧ (t.voice v).phase = .sustain ∧
        (t.voice v).level.toNat ≤ sustainThreshold (s.voice v).adsrLo) ∨
      ((s.voice v).phase = .release ∧ (t.voice v).phase = .off ∧ (t.voice v).level.toNat = 0) ∨
      ((s.voice v).phase ≠ .off ∧ (t.voice v).phase = .release ∧ (t.voice v).level.toNat = 0 ∧
        passesLoopEnd (s.voice v) = true ∧ (s.voice v).flags.getLsbD 1 = false) := by
  rcases exec_tick_envelope h v with hv | ⟨hphase, hlevel⟩
  · exact absurd (congrArg Voice.phase hv) hne
  · rw [hphase] at hne ⊢
    rw [hlevel]
    rcases movedVoice_envelope (s.voice v) with ⟨hp, hl⟩ | ⟨hp, hl, hoff, hend, hrep⟩
    · rw [hp] at hne ⊢
      rw [hl]
      rcases Voice.envTick_phase hne with hc | hc | hc
      · exact .inl hc
      · exact .inr (.inl hc)
      · exact .inr (.inr (.inl hc))
    · exact .inr (.inr (.inr ⟨hoff, hp, by rw [hl]; rfl, hend, hrep⟩))

/-- Settles O32, by what each transaction does to the phase. -/
theorem phasesChangeOnlyAsTheTableSays : Obligations.PhasesChangeOnlyAsTheTableSays := by
  intro i s t v h hne
  rw [← sustainThreshold_eq]
  rcases exec_cases h with rfl | rfl | ⟨d, rfl⟩ | ⟨d, rfl⟩ | ⟨d, rfl⟩ | ⟨d, rfl⟩ | ⟨d, rfl⟩ | ⟨w, y, hy, rfl⟩ | hs
  · rcases exec_tick_phase h v hne with hc | hc | hc | hc
    · exact .inr (.inr (.inl ⟨rfl, hc⟩))
    · exact .inr (.inr (.inr (.inl ⟨rfl, hc⟩)))
    · exact .inr (.inr (.inr (.inr (.inl ⟨rfl, hc⟩))))
    · exact .inr (.inr (.inr (.inr (.inr (.inl ⟨rfl, hc⟩)))))
  · cases h
    exact .inr (.inr (.inr (.inr (.inr (.inr ⟨rfl, congrArg Voice.phase (State.reset_voice v)⟩)))))
  · cases h
    rcases keyOnAll_filter_phase (encode (.wrKonlo d)) (inMaskLo d) { s with konLo := d } v with hp | ⟨hp, hv⟩
    · exact absurd hp hne
    · exact .inl ⟨hp, d, .inl ⟨rfl, hv⟩⟩
  · cases h
    rcases keyOnAll_filter_phase (encode (.wrKonhi d)) (inMaskHi d) { s with konHi := d } v with hp | ⟨hp, hv⟩
    · exact absurd hp hne
    · exact .inl ⟨hp, d, .inr ⟨rfl, hv⟩⟩
  · cases h
    rcases keyOffAll_phase (maskLo d) { s with koffLo := d } v with hp | ⟨hp, hv⟩
    · exact absurd hp hne
    · exact .inr (.inl ⟨hp, d, .inl ⟨rfl, mem_maskLo.mp hv⟩⟩)
  · cases h
    rcases keyOffAll_phase (maskHi d) { s with koffHi := d } v with hp | ⟨hp, hv⟩
    · exact absurd hp hne
    · exact .inr (.inl ⟨hp, d, .inr ⟨rfl, mem_maskHi.mp hv⟩⟩)
  · cases h; exact absurd rfl hne
  · rw [State.voice_setVoice] at hne
    split at hne
    · subst w; exact absurd hy.phase hne
    · exact absurd rfl hne
  · exact absurd (congrArg Voice.phase (hs.voice v)) hne

end Sys2Proof.Machine

/-! Attack, Decay and Release end (42_envelope.md R180): every envelope tick of such a phase ends it or lowers
the number of ticks it can still take. -/

namespace Sys2Proof.Machine

/-! A run of ticks. -/

/-- While `P` holds every `f` lowers `μ` or leads to `Q`: `Q` is reached within `μ x + 1` of them, with `P` until then. -/
theorem exists_iterate_of_decreasing {α : Type} {f : α → α} {P Q : α → Prop} {μ : α → Nat}
    (h : ∀ x, P x → Q (f x) ∨ (P (f x) ∧ μ (f x) < μ x)) (x : α) (hx : P x) :
    ∃ n ≤ μ x + 1, Q (f^[n] x) ∧ ∀ k < n, P (f^[k] x) := by
  induction hm : μ x using Nat.strong_induction_on generalizing x with
  | _ m ih =>
    subst hm
    rcases h x hx with hq | ⟨hp, hlt⟩
    · exact ⟨1, by omega, hq, fun k hk => by rw [Nat.lt_one_iff.mp hk]; exact hx⟩
    · obtain ⟨n, hn, hq, hk⟩ := ih _ hlt (f x) hp rfl
      refine ⟨n + 1, by omega, hq, fun k hlt => ?_⟩
      cases k with
      | zero => exact hx
      | succ k => exact hk k (Nat.lt_of_succ_lt_succ hlt)

/-- The ticks a phase can still take, when `rank` bounds the level changes left at a level and `most` the ticks one of
them takes: the changes after the next one, and what the next one still waits. -/
def Voice.ticksLeft (rank : Nat → Nat) (most : Nat) (x : Voice) : Nat :=
  rank x.level.toNat * most + (most - 1 - x.envcnt.toNat)

/-- With `rank` at most `n` this is less than `n + 1` level changes. -/
theorem Voice.ticksLeft_lt {rank : Nat → Nat} {most n : Nat} (hm : 0 < most) {x : Voice}
    (h : rank x.level.toNat ≤ n) : x.ticksLeft rank most < (n + 1) * most := by
  have := Nat.mul_le_mul_right most h
  rw [Voice.ticksLeft, Nat.add_mul]
  omega

/-! One level update (R175 to R177). -/

theorem EnvRow.cycles_pos (r : EnvRow) (level : Nat) : 0 < r.cycles level := by
  unfold EnvRow.cycles; split <;> positivity

/-- A change comes at least every 2^22 ticks. -/
theorem EnvRow.cycles_le {r : EnvRow} (h : r.shift ≤ 31) (level : Nat) : r.cycles level ≤ 2 ^ 22 := by
  have : 2 ^ (r.shift - 11) ≤ 2 ^ 20 := Nat.pow_le_pow_right (by decide) (by omega)
  unfold EnvRow.cycles; split <;> omega

/-- A decrease is not slowed down. -/
theorem EnvRow.cycles_of_decrease {r : EnvRow} (h : r.inc = false) (level : Nat) :
    r.cycles level = 2 ^ (r.shift - 11) := by
  simp [EnvRow.cycles, h]

/-- An increase of step value 4 or more raises the level by 4 or more. -/
theorem EnvRow.four_le_step {r : EnvRow} (hi : r.inc = true) (hs : 4 ≤ r.sv) (level : Nat) : 4 ≤ r.step level := by
  have hp : (1 : Int) ≤ 2 ^ (11 - r.shift) := one_le_pow₀ (by decide)
  simp only [EnvRow.step, hi, Bool.not_true, Bool.and_false, Bool.false_eq_true, if_false]
  nlinarith

/-- A decrease of step value -8 lowers every level above 0. -/
theorem EnvRow.step_neg {r : EnvRow} (hs : r.sv = -8) {level : Nat} (hl : 0 < level) : r.step level < 0 := by
  have hp : (1 : Int) ≤ 2 ^ (11 - r.shift) := one_le_pow₀ (by decide)
  have hc : r.sv * 2 ^ (11 - r.shift) < 0 := by rw [hs]; omega
  unfold EnvRow.step
  split
  · exact Int.ediv_neg_of_neg_of_pos (mul_neg_of_neg_of_pos hc (by exact_mod_cast hl)) (by decide)
  · exact hc

/-- A level update waits one tick more, or changes the level and waits anew. -/
theorem Voice.envStep_cases (x : Voice) (r : EnvRow) :
    (x.envcnt.toNat + 1 < r.cycles x.level.toNat ∧
        x.envStep r = { x with envcnt := BitVec.ofNat 23 (x.envcnt.toNat + 1) }) ∨
      ((x.envStep r).envcnt = 0 ∧
        ((x.envStep r).level.toNat : Int) = max 0 (min 0x7FFF (x.level.toNat + r.step x.level.toNat))) := by
  unfold Voice.envStep
  split
  · refine .inr ⟨rfl, ?_⟩
    rw [clamp_eq_max_min (by decide), BitVec.toNat_ofInt]
    omega
  · exact .inl ⟨by omega, rfl⟩

/-- A level update leaves fewer ticks, when a level change lowers `rank`. -/
theorem Voice.ticksLeft_envStep_lt {x : Voice} {r : EnvRow} {rank : Nat → Nat} {most : Nat}
    (hc : r.cycles x.level.toNat ≤ most) (hm : most ≤ 2 ^ 22)
    (hr : ((x.envStep r).level.toNat : Int) = max 0 (min 0x7FFF (x.level.toNat + r.step x.level.toNat)) →
      rank (x.envStep r).level.toNat < rank x.level.toNat) :
    (x.envStep r).ticksLeft rank most < x.ticksLeft rank most := by
  rcases x.envStep_cases r with ⟨hw, he⟩ | ⟨he, hl⟩
  · have hn : (x.envStep r).envcnt.toNat = x.envcnt.toNat + 1 := by
      rw [he, BitVec.toNat_ofNat]; omega
    have hl : (x.envStep r).level = x.level := by rw [he]
    rw [Voice.ticksLeft, Voice.ticksLeft, hn, hl]
    omega
  · have hpos := r.cycles_pos x.level.toNat
    calc (x.envStep r).ticksLeft rank most
        < (rank (x.envStep r).level.toNat + 1) * most := Voice.ticksLeft_lt (by omega) le_rfl
      _ ≤ rank x.level.toNat * most := Nat.mul_le_mul_right most (hr hl)
      _ ≤ x.ticksLeft rank most := Nat.le_add_right _ _

/-! The phase check (R178) of the phases that end. -/

theorem Voice.phaseCheck_attack {x : Voice} (h : x.phase = .attack) :
    x.phaseCheck = if x.level.toNat = 0x7FFF then { x with phase := .decay, envcnt := 0 } else x := by
  simp only [Voice.phaseCheck, h]

theorem Voice.phaseCheck_decay {x : Voice} (h : x.phase = .decay) :
    x.phaseCheck =
      if x.level.toNat ≤ sustainThreshold x.adsrLo then { x with phase := .sustain, envcnt := 0 } else x := by
  simp only [Voice.phaseCheck, h]

theorem Voice.phaseCheck_release {x : Voice} (h : x.phase = .release) :
    x.phaseCheck = if x.level.toNat = 0 then { x with phase := .off, envcnt := 0 } else x := by
  simp only [Voice.phaseCheck, h]

/-! Attack. -/

/-- The level changes Attack still makes after the next, each of 4 or more. -/
def attackRank (level : Nat) : Nat := 8191 - level / 4

/-- Before its phase check a tick of Attack has the maximum level, or leaves fewer ticks. -/
theorem Voice.exists_rise {x : Voice} (h : x.phase = .attack) :
    ∃ y : Voice, x.envTick = y.phaseCheck ∧ y.phase = .attack ∧
      (y.level.toNat ≠ 0x7FFF → y.ticksLeft attackRank (2 ^ 22) < x.ticksLeft attackRank (2 ^ 22)) := by
  obtain ⟨r, hr, hi, hs, hsv⟩ : ∃ r, x.envTick = (x.envStep r).phaseCheck ∧ r.inc = true ∧ r.shift ≤ 31 ∧
      4 ≤ r.sv := by
    refine ⟨_, by rw [Voice.envTick, h]; rfl, rfl, Nat.le_of_lt_succ (BitVec.isLt _), ?_⟩
    have : attackStep x.adsrLo < 4 := BitVec.isLt _
    simp only [stepValue, if_true]
    omega
  refine ⟨x.envStep r, hr, (x.envStep_phase r).trans h, fun hmax => ?_⟩
  refine Voice.ticksLeft_envStep_lt (EnvRow.cycles_le hs _) le_rfl fun hlevel => ?_
  have hstep := EnvRow.four_le_step hi hsv x.level.toNat
  unfold attackRank
  omega

/-- A tick of Attack reaches the maximum, or leaves fewer ticks of Attack. -/
theorem Voice.envTick_attack (x : Voice) (h : x.phase = .attack) :
    (x.envTick.phase = .decay ∧ x.envTick.level.toNat = 0x7FFF) ∨
      (x.envTick.phase = .attack ∧ x.envTick.ticksLeft attackRank (2 ^ 22) < x.ticksLeft attackRank (2 ^ 22)) := by
  obtain ⟨y, hy, hp, hlt⟩ := Voice.exists_rise h
  rw [hy, Voice.phaseCheck_attack hp]
  split
  · exact .inl ⟨rfl, ‹_›⟩
  · exact .inr ⟨hp, hlt ‹_›⟩

/-- Settles O34: at most 2^13 level changes of at most 2^22 ticks. -/
theorem attackReachesTheMaximum : Obligations.AttackReachesTheMaximum := by
  intro x h
  obtain ⟨n, hn, hq, -⟩ := exists_iterate_of_decreasing (P := (·.phase = .attack))
    (Q := fun y => y.phase = .decay ∧ y.level.toNat = 0x7FFF) Voice.envTick_attack x h
  have hlt : x.ticksLeft attackRank (2 ^ 22) < (8191 + 1) * 2 ^ 22 := Voice.ticksLeft_lt (by decide) (Nat.sub_le _ _)
  exact ⟨n, by omega, hq⟩

/-! Decay and Release. -/

/-- The level changes down to 0 after the next, each of 1 or more. -/
def fallRank (level : Nat) : Nat := level - 1

/-- Before its phase check a tick of Decay or Release has level 0, or leaves fewer ticks. -/
theorem Voice.exists_fall {x : Voice} (h : x.phase = .decay ∨ x.phase = .release) :
    ∃ y : Voice, x.envTick = y.phaseCheck ∧ y.phase = x.phase ∧
      (y.level.toNat ≠ 0 → y.ticksLeft fallRank (2 ^ 20) < x.ticksLeft fallRank (2 ^ 20)) := by
  obtain ⟨r, hr, hi, hs, hsv⟩ : ∃ r, x.envTick = (x.envStep r).phaseCheck ∧ r.inc = false ∧ r.shift ≤ 31 ∧
      r.sv = -8 := by
    rcases h with h | h
    · have : decayShift x.adsrLo < 16 := BitVec.isLt _
      exact ⟨_, by rw [Voice.envTick, h]; rfl, rfl, by show decayShift x.adsrLo ≤ 31; omega, rfl⟩
    · exact ⟨_, by rw [Voice.envTick, h]; rfl, rfl, Nat.le_of_lt_succ (BitVec.isLt _), rfl⟩
  refine ⟨x.envStep r, hr, x.envStep_phase r, fun hne => ?_⟩
  have hc : r.cycles x.level.toNat ≤ 2 ^ 20 := by
    rw [EnvRow.cycles_of_decrease hi]
    exact Nat.pow_le_pow_right (by decide) (by omega)
  refine Voice.ticksLeft_envStep_lt hc (by decide) fun hlevel => ?_
  have hpos : 0 < x.level.toNat := by
    have := EnvRow.step_nonpos (r := r) (by omega) x.level.toNat
    omega
  have hstep := EnvRow.step_neg hsv hpos
  unfold fallRank
  omega

/-- A tick of Release reaches level 0, or leaves fewer ticks of Release. -/
theorem Voice.envTick_release (x : Voice) (h : x.phase = .release) :
    (x.envTick.phase = .off ∧ x.envTick.level.toNat = 0) ∨
      (x.envTick.phase = .release ∧ x.envTick.ticksLeft fallRank (2 ^ 20) < x.ticksLeft fallRank (2 ^ 20)) := by
  obtain ⟨y, hy, hp, hlt⟩ := Voice.exists_fall (.inr h)
  rw [h] at hp
  rw [hy, Voice.phaseCheck_release hp]
  split
  · exact .inl ⟨rfl, ‹_›⟩
  · exact .inr ⟨hp, hlt ‹_›⟩

/-- A tick of Decay reaches Sustain, or leaves fewer ticks of Decay: level 0 is below every sustain threshold. -/
theorem Voice.envTick_decay (x : Voice) (h : x.phase = .decay) :
    x.envTick.phase = .sustain ∨
      (x.envTick.phase = .decay ∧ x.envTick.ticksLeft fallRank (2 ^ 20) < x.ticksLeft fallRank (2 ^ 20)) := by
  obtain ⟨y, hy, hp, hlt⟩ := Voice.exists_fall (.inl h)
  rw [h] at hp
  rw [hy, Voice.phaseCheck_decay hp]
  split
  · exact .inl rfl
  · exact .inr ⟨hp, hlt (by omega)⟩

/-- Settles O35: at most 0x7FFF level changes of at most 2^20 ticks. -/
theorem releaseReachesOff : Obligations.ReleaseReachesOff := by
  intro x h
  obtain ⟨n, hn, hq, -⟩ := exists_iterate_of_decreasing (P := (·.phase = .release))
    (Q := fun y => y.phase = .off ∧ y.level.toNat = 0) Voice.envTick_release x h
  have hlevel : fallRank x.level.toNat ≤ 0x7FFE := Nat.sub_le_sub_right (Nat.le_of_lt_succ x.level.isLt) 1
  have hlt : x.ticksLeft fallRank (2 ^ 20) < (0x7FFE + 1) * 2 ^ 20 := Voice.ticksLeft_lt (by decide) hlevel
  exact ⟨n, by omega, hq⟩

/-- Settles O36: the ticks left in Decay get fewer until Sustain. -/
theorem decayReachesSustain : Obligations.DecayReachesSustain := by
  intro x h
  obtain ⟨n, -, hn⟩ := exists_iterate_of_decreasing (P := (·.phase = .decay)) (Q := fun y => y.phase = .sustain)
    Voice.envTick_decay x h
  exact ⟨n, hn⟩

end Sys2Proof.Machine

/-! The mixer (43_voice_mixer.md R221, R224, R225): an Off voice in a tick, and the range of what a voice adds. -/

namespace Sys2Proof.Machine

/-! An Off voice (R221). -/

section Off

variable {x : Voice} (h : x.phase = .off)
include h

theorem movedVoice_off : movedVoice x = x := if_pos h

theorem passesBlockEnd_off : passesBlockEnd x = false := decide_eq_false fun hp => hp.1 h

theorem passesLoopEnd_off : passesLoopEnd x = false := by rw [passesLoopEnd, passesBlockEnd_off h, Bool.false_and]

theorem mixTerms_off : mixTerms x = (0, 0) := if_pos h

end Off

theorem tickedVoice_off {s : State} {v : VoiceIx} (h : (s.voice v).phase = .off) : tickedVoice s v = s.voice v := by
  rw [tickedVoice, passesBlockEnd_off h, if_neg Bool.false_ne_true, movedVoice_off h]

/-- Also where the tick is stopped: by another voice, since an Off voice fetches nothing. -/
theorem exec_tick_voice_off {s t : State} {v : VoiceIx} (h : exec .tick s = .next t)
    (hoff : (s.voice v).phase = .off) : t.voice v = s.voice v := by
  rcases exec_tick_cases h with ⟨u, hu, rfl⟩ | ⟨u, hu⟩
  · rw [State.emit_voice, hu.voice v, tickedVoice_off hoff]
  · rcases lt_trichotomy v u with hlt | rfl | hlt
    · rw [hu.before v hlt, tickedVoice_off hoff]
    · rw [hu.moved, movedVoice_off hoff]
    · exact hu.after v hlt

/-- Settles O39: an Off voice passes no block end, so a tick neither moves it nor sets its ENDX bit. -/
theorem tickLeavesOffVoicesAlone : Obligations.TickLeavesOffVoicesAlone := by
  intro s t v h hoff
  refine ⟨exec_tick_voice_off h hoff, ?_, mixTerms_off hoff⟩
  rcases exec_tick_endx h v with he | ⟨-, hp⟩
  · exact he
  · exact absurd (hp.symm.trans (passesLoopEnd_off hoff)) (by decide)

/-! The range of a voice's terms (R224, R225). -/

/-- A volume is an even number of 16 bits (R101). -/
theorem volEff_bounds (d : Half) : -32768 ≤ volEff d ∧ volEff d ≤ 32766 := by
  have hlo := BitVec.le_toInt (d.extractLsb' 0 15)
  have hhi := BitVec.toInt_lt (x := d.extractLsb' 0 15)
  rw [volEff]
  omega

/-- A sample under an envelope level loses at least one unit of its range, as the level is below 2^15. -/
theorem Voice.enveloped_bounds (x : Voice) : -32767 ≤ x.enveloped ∧ x.enveloped ≤ 32766 := by
  unfold Voice.enveloped asr
  generalize interpSample x x.sampleIx x.frac = sample
  have hlevel : (x.level.toNat : Int) ≤ 32767 := by have := x.level.isLt; omega
  have hlo : -32768 * (x.level.toNat : Int) ≤ sample.toInt * x.level.toNat :=
    Int.mul_le_mul_of_nonneg_right (BitVec.le_toInt sample) (Int.natCast_nonneg _)
  have hhi : sample.toInt * x.level.toNat ≤ 32767 * (x.level.toNat : Int) :=
    Int.mul_le_mul_of_nonneg_right (Int.le_of_lt_add_one BitVec.toInt_lt) (Int.natCast_nonneg _)
  omega

/-- An enveloped sample under a volume: the product is at most 32767 * 2^15 in size. -/
theorem asr_mul_volEff_bounds {a : Int} (hlo : -32767 ≤ a) (hhi : a ≤ 32766) (d : Half) :
    -32767 ≤ asr (a * volEff d) 15 ∧ asr (a * volEff d) 15 ≤ 32767 := by
  obtain ⟨vlo, vhi⟩ := volEff_bounds d
  have hsize : |a * volEff d| ≤ 32767 * 32768 := by
    rw [abs_mul]
    exact mul_le_mul (abs_le.mpr ⟨hlo, by omega⟩) (abs_le.mpr ⟨vlo, by omega⟩) (abs_nonneg _) (by decide)
  obtain ⟨plo, phi⟩ := abs_le.mp hsize
  unfold asr
  omega

theorem Voice.termL_bounds (x : Voice) : -32767 ≤ x.termL ∧ x.termL ≤ 32767 :=
  asr_mul_volEff_bounds x.enveloped_bounds.1 x.enveloped_bounds.2 x.voll

theorem Voice.termR_bounds (x : Voice) : -32767 ≤ x.termR ∧ x.termR ≤ 32767 :=
  asr_mul_volEff_bounds x.enveloped_bounds.1 x.enveloped_bounds.2 x.volr

/-- Both terms of a voice, Off or not. -/
theorem mixTerms_bounds (x : Voice) :
    (-32767 ≤ (mixTerms x).1 ∧ (mixTerms x).1 ≤ 32767) ∧ (-32767 ≤ (mixTerms x).2 ∧ (mixTerms x).2 ≤ 32767) := by
  by_cases h : x.phase = .off
  · rw [mixTerms_off h]; decide
  · rw [mixTerms_eq h]; exact ⟨x.termL_bounds, x.termR_bounds⟩

/-- A sum over the 24 voices is at most 24 * 32767 in size, where each summand is at most 32767. -/
theorem sum_allVoices_bounds {f : VoiceIx → Int} (h : ∀ v, -32767 ≤ f v ∧ f v ≤ 32767) :
    -2 ^ 31 ≤ (allVoices.map f).sum ∧ (allVoices.map f).sum < 2 ^ 31 := by
  have hlen : (allVoices.map f).length = 24 := by rw [List.length_map]; rfl
  have hlo := List.card_nsmul_le_sum (allVoices.map f) (-32767) (List.forall_mem_map.mpr fun v _ => (h v).1)
  have hhi := List.sum_le_card_nsmul (allVoices.map f) 32767 (List.forall_mem_map.mpr fun v _ => (h v).2)
  rw [hlen, nsmul_eq_mul] at hlo hhi
  omega

/-- Settles O41: the bounds of a voice, then those of the two sums. -/
theorem mixerTermsStayInRange : Obligations.MixerTermsStayInRange := by
  refine ⟨fun x => ?_, fun s => ?_⟩
  · obtain ⟨elo, ehi⟩ := x.enveloped_bounds
    obtain ⟨llo, lhi⟩ := x.termL_bounds
    obtain ⟨rlo, rhi⟩ := x.termR_bounds
    exact ⟨elo, ehi, llo, lhi, rlo, rhi⟩
  · obtain ⟨llo, lhi⟩ := sum_allVoices_bounds fun v => (mixTerms_bounds (s.voice v)).1
    obtain ⟨rlo, rhi⟩ := sum_allVoices_bounds fun v => (mixTerms_bounds (s.voice v)).2
    exact ⟨llo, lhi, rlo, rhi⟩

end Sys2Proof.Machine

/-! The registers of the block (44_control.md R241 to R285) and the host's initialization of MasterMix (R290, R298). -/

namespace Sys2Proof.Machine

/-! Key-off of the voices a mask names (R257, R258). -/

/-- Settles O23: KOFF_LO is stored, then the voices it names are keyed off. -/
theorem keyOffLowVoices : Obligations.KeyOffLowVoices := by
  intro s d
  obtain ⟨⟨⟨hkonLo, hkonHi, hkoffLo, hkoffHi⟩, hmix, hport, hram, hout, hhost⟩, -⟩ :=
    (keyOffAll_onlyVoices (maskLo d) { s with koffLo := d }).outside
  refine ⟨_, rfl, hkoffLo, fun v => ?_, hkonLo, hkonHi, hkoffHi, keyOffAll_endx _ _, keyOffAll_faults _ _, hmix, hport,
    hram, hout, hhost⟩
  simp only [keyOffAll_voice, mem_maskLo, inMaskLo, Bool.and_eq_true, decide_eq_true_eq]
  rfl

/-- Settles O24: KOFF_HI is stored, then the voices it names are keyed off. -/
theorem keyOffHighVoices : Obligations.KeyOffHighVoices := by
  intro s d
  obtain ⟨⟨⟨hkonLo, hkonHi, hkoffLo, hkoffHi⟩, hmix, hport, hram, hout, hhost⟩, -⟩ :=
    (keyOffAll_onlyVoices (maskHi d) { s with koffHi := d }).outside
  refine ⟨_, rfl, hkoffHi, fun v => ?_, hkonLo, hkonHi, hkoffLo, keyOffAll_endx _ _, keyOffAll_faults _ _, hmix, hport,
    hram, hout, hhost⟩
  simp only [keyOffAll_voice, mem_maskHi, inMaskHi, Bool.and_eq_true, decide_eq_true_eq]
  rfl

/-! The MasterMix registers in a stream of the host (R298). -/

/-- No transaction of the list writes a MasterMix register. -/
def MixesNone (is : List Instr) : Prop := ∀ i ∈ is, writesMasterMix i = false

/-- Nor does one key a voice on. -/
def NeitherMixesNorKeys (is : List Instr) : Prop := ∀ i ∈ is, writesMasterMix i = false ∧ keysOn i = false

/-- What the rest of a stream can hold, after the initialization (of value `m`) or before it. -/
def MixedBeforeKeyOn (m : BitVec 15) (initialized : Bool) (stream : List Instr) : Prop :=
  match initialized with
  | true => MixesNone stream
  | false =>
    NeitherMixesNorKeys stream ∨
      ∃ before rest, stream = before ++ initMasterMix m ++ rest ∧ NeitherMixesNorKeys before ∧ MixesNone rest

theorem NeitherMixesNorKeys.append {xs ys : List Instr} (hx : NeitherMixesNorKeys xs) (hy : NeitherMixesNorKeys ys) :
    NeitherMixesNorKeys (xs ++ ys) :=
  List.forall_mem_append.mpr ⟨hx, hy⟩

theorem neitherMixesNorKeys_pseudoWram (units : Half) (hs : List Half) :
    NeitherMixesNorKeys (pseudoWram units hs) := fun i hi => by
  rcases mem_pseudoWram hi with rfl | ⟨d, rfl⟩ <;> exact ⟨rfl, rfl⟩

theorem MixedBeforeKeyOn.prepend {m : BitVec 15} {b : Bool} {xs stream : List Instr} (hx : NeitherMixesNorKeys xs)
    (h : MixedBeforeKeyOn m b stream) : MixedBeforeKeyOn m b (xs ++ stream) := by
  cases b with
  | true => exact List.forall_mem_append.mpr ⟨fun i hi => (hx i hi).1, h⟩
  | false =>
    rcases h with h | ⟨before, rest, rfl, hbefore, hrest⟩
    · exact .inl (hx.append h)
    · exact .inr ⟨xs ++ before, rest, by simp only [List.append_assoc], hx.append hbefore, hrest⟩

/-- Transactions permitted one by one write no MasterMix register, and key nothing before the initialization. -/
theorem MixedBeforeKeyOn.of_hostMay {m : BitVec 15} {h : HostState} {xs stream : List Instr}
    (hmay : ∀ i ∈ xs, hostMay h i = true) (hs : MixedBeforeKeyOn m h.initialized stream) :
    MixedBeforeKeyOn m h.initialized (xs ++ stream) := by
  have hmix : MixesNone xs := fun i hi => by
    obtain ⟨-, -, hmix, -⟩ := hostMay_cases (hmay i hi)
    exact hmix
  cases hinit : h.initialized with
  | true =>
    rw [hinit] at hs
    exact List.forall_mem_append.mpr ⟨hmix, hs⟩
  | false =>
    rw [hinit] at hs
    refine hs.prepend fun i hi => ⟨hmix i hi, ?_⟩
    obtain ⟨-, -, -, -, hkeys | hready⟩ := hostMay_cases (hmay i hi)
    · exact hkeys
    · rw [HostState.mayKeyOn, hinit, Bool.false_and] at hready
      exact absurd hready Bool.false_ne_true

/-- By the pieces of the stream: the first initialization sets the host's mark, and no later one is permitted. -/
theorem hostRun_mixedBeforeKeyOn {laws : HostLaws} {s : State} {h : HostState} {ps : List Piece} {stream : List Instr}
    (hr : hostRun laws s h ps = some stream) : MixedBeforeKeyOn laws.masterVol h.initialized stream := by
  induction ps generalizing s h stream with
  | nil =>
    cases hr
    cases h.initialized with
    | true => exact List.forall_mem_nil _
    | false => exact .inl (List.forall_mem_nil _)
  | cons p ps ih =>
    obtain ⟨hp, rest, hrest, rfl⟩ := hostRun_cons hr
    have hmixed := ih hrest
    rcases Piece.permitted_cases hp with ⟨rfl, hinit⟩ | ⟨bytes, rfl⟩ | rfl | ⟨raw, rfl⟩ | ⟨hmay, hinit, -⟩
    · rw [hinit]
      exact .inr ⟨[], rest, rfl, List.forall_mem_nil _, hmixed⟩
    · exact hmixed.prepend (neitherMixesNorKeys_pseudoWram _ _)
    · exact hmixed.prepend (neitherMixesNorKeys_pseudoWram _ _)
    · exact hmixed
    · rw [hinit] at hmixed
      exact .of_hostMay hmay hmixed

/-- Settles O58: a host starts with nothing initialized. -/
theorem masterMixIsWrittenOnceBeforeAnyKeyOn : Obligations.MasterMixIsWrittenOnceBeforeAnyKeyOn := by
  rintro laws grain raw bend control audio stream ⟨h, pieces, hb, -, hr⟩
  obtain ⟨params, -, -, rfl⟩ := HostState.boot_cases hb
  exact hostRun_mixedBeforeKeyOn hr

/-! Writes of a voice's registers (R241 to R246, R252, R253). -/

theorem onlyVoice_setVoice (s : State) (v : VoiceIx) (x : Voice) : OnlyVoice v s (s.setVoice v x) := by
  obtain ⟨houtside, -⟩ := (OnlyVoices.setVoice s v x).outside
  exact ⟨fun _ hw => s.voice_setVoice_other hw x, rfl, rfl, houtside⟩

/-- A voice write is performed, on its voice alone. -/
theorem writeVoice_onlyVoice (put : Voice → Voice) (s : State) (v : VoiceIx) :
    ∃ t, writeVoice (vsel v) s put = .next t ∧ OnlyVoice v s t ∧ t.voice v = put (s.voice v) :=
  ⟨_, withVoice_vsel v _, onlyVoice_setVoice s v _, s.voice_setVoice_same v _⟩

/-- So is a volume write without the sweep form. -/
theorem writeVolume_onlyVoice {d : Half} (h : isSweep d = false) (word : Word) (put : Voice → Voice) (s : State)
    (v : VoiceIx) :
    ∃ t, writeVolume (vsel v) d word s put = .next t ∧ OnlyVoice v s t ∧ t.voice v = put (s.voice v) := by
  rw [writeVolume, if_neg (Bool.not_eq_true _ ▸ h)]
  exact writeVoice_onlyVoice put s v

/-- One with the sweep form is refused. -/
theorem writeVolume_of_sweep {d : Half} (h : isSweep d = true) (word : Word) (put : Voice → Voice) (s : State)
    (v : VoiceIx) : writeVolume (vsel v) d word s put = .next (s.refuse .volumeSweep word) :=
  (if_pos h).trans (withVoice_vsel v _)

/-- The level a write of ENVX sets, as a number (R105). -/
theorem envxLevel_eq_ofNat (d : Half) : envxLevel d = BitVec.ofNat 15 (d.toNat % 2 ^ 15) := by
  apply BitVec.eq_of_toNat_eq
  rw [envxLevel, extractLsb'_toNat_eq_div_mod, BitVec.toNat_ofNat]
  omega

/-- Settles O10: each of the six is a voice write. -/
theorem voiceRegisterWrites : Obligations.VoiceRegisterWrites := by
  intro s v d
  rw [← envxLevel_eq_ofNat]
  exact ⟨writeVoice_onlyVoice (fun x => { x with pitch := d }) s v,
    writeVoice_onlyVoice (fun x => { x with saddr := d }) s v,
    writeVoice_onlyVoice (fun x => { x with adsrLo := d }) s v,
    writeVoice_onlyVoice (fun x => { x with adsrHi := d }) s v,
    writeVoice_onlyVoice (fun x => { x with level := envxLevel d }) s v,
    writeVoice_onlyVoice (fun x => { x with raddr := d }) s v⟩

/-- Settles O11: by bit 15 of the volume. -/
theorem voiceVolumeWrites : Obligations.VoiceVolumeWrites := by
  refine fun s v d => ⟨fun hclear => ?_, fun hset => ?_⟩
  · exact ⟨writeVolume_onlyVoice hclear _ (fun x => { x with voll := d }) s v,
      writeVolume_onlyVoice hclear _ (fun x => { x with volr := d }) s v⟩
  · exact ⟨writeVolume_of_sweep hset _ _ s v, writeVolume_of_sweep hset _ _ s v⟩

/-! Writes of the global registers (R262, R264, R269, R273, R274, R278, R279, R282, R283). -/

/-- Settles O12: by bit 15 of the volume. -/
theorem masterVolumeWrites : Obligations.MasterVolumeWrites := by
  refine fun s d => ⟨fun hclear => ?_, fun hset => ⟨if_pos hset, if_pos hset⟩⟩
  have hsweep : ¬ isSweep d = true := Bool.not_eq_true _ ▸ hclear
  exact ⟨if_neg hsweep, if_neg hsweep⟩

/-- Settles O13: each of the four stores its value without a check. -/
theorem unusedVolumeWrites : Obligations.UnusedVolumeWrites := fun _ _ => ⟨rfl, rfl, rfl, rfl⟩

/-- Settles O15: both writes answer the state they are given. -/
theorem endxWritesAreIgnored : Obligations.EndxWritesAreIgnored := fun _ _ => ⟨rfl, rfl⟩

/-- Settles O16: the byte address of a register value is eight times it. -/
theorem taddrWriteSetsThePointer : Obligations.TaddrWriteSetsThePointer := fun _ d =>
  ⟨_, rfl, rfl, byteAddr_toNat d, fun _ => rfl, rfl, rfl, ⟨rfl, rfl, rfl, rfl⟩, ⟨rfl, rfl, rfl, rfl, rfl, rfl⟩,
    fun _ => rfl, rfl, rfl, rfl, rfl⟩

/-! Reads (R247 to R251, R254, R259, R260, R265 to R268, R270, R271, R276, R277, R280, R281, R284, R285). -/

/-- A voice read is performed, and returns its register. -/
theorem readVoice_vsel (get : Voice → Half) (s : State) (v : VoiceIx) :
    readVoice (vsel v) s get = .next (s.returnValue (get (s.voice v))) :=
  withVoice_vsel v _

/-- Settles O18: each of the eight is a voice read. -/
theorem voiceRegisterReads : Obligations.VoiceRegisterReads := by
  intro s v
  rw [BitVec.ofNat_toNat]
  exact ⟨readVoice_vsel Voice.voll s v, readVoice_vsel Voice.volr s v, readVoice_vsel Voice.pitch s v,
    readVoice_vsel Voice.saddr s v, readVoice_vsel Voice.adsrLo s v, readVoice_vsel Voice.adsrHi s v,
    readVoice_vsel (fun x => envxRead x.level) s v, readVoice_vsel Voice.raddr s v⟩

/-- Settles O19: each of the eleven returns its register. -/
theorem globalRegisterReads : Obligations.GlobalRegisterReads :=
  fun _ => ⟨rfl, rfl, rfl, rfl, rfl, rfl, rfl, rfl, rfl, rfl, rfl⟩

/-- The word of a TDATA read (30_encoding.md R96, R120). -/
theorem encode_rdTdata : encode .rdTdata = 0x41A80000 := by decide

/-- Settles O21: the refusal is recorded with the word of the read. -/
theorem tdataReadIsRefused : Obligations.TdataReadIsRefused := by
  intro s
  rw [← encode_rdTdata]
  rfl

end Sys2Proof.Machine

/-! Refusals and faults (60_exceptions.md R310, R313, R314, R321): every transaction a word spells has a next state, it
adds at most one entry, and a block with an entry has no step. -/

namespace Sys2Proof.Machine

/-! Every transaction has a next state. -/

/-- A voice number the decoder accepts names a voice (R95). -/
theorem exists_vsel_of_voiceOk {n : BitVec 5} (h : Instr.voiceOk n = true) : ∃ v, n = vsel v := by
  have hn : n.toNat < 24 := of_decide_eq_true h
  exact ⟨⟨n.toNat, hn⟩, by simp [vsel]⟩

theorem exists_next_of_readVoice {n : BitVec 5} (h : Instr.voiceOk n = true) (s : State) (get : Voice → Half) :
    ∃ t, readVoice n s get = .next t := by
  obtain ⟨v, rfl⟩ := exists_vsel_of_voiceOk h
  exact ⟨_, readVoice_vsel get s v⟩

theorem exists_next_of_writeVoice {n : BitVec 5} (h : Instr.voiceOk n = true) (s : State) (put : Voice → Voice) :
    ∃ t, writeVoice n s put = .next t := by
  obtain ⟨v, rfl⟩ := exists_vsel_of_voiceOk h
  exact ⟨_, withVoice_vsel v _⟩

/-- The sweep form is recorded as refused, any other value is written. -/
theorem exists_next_of_writeVolume {n : BitVec 5} (h : Instr.voiceOk n = true) (d : Half) (word : Word) (s : State)
    (put : Voice → Voice) : ∃ t, writeVolume n d word s put = .next t := by
  cases hd : isSweep d with
  | true =>
    obtain ⟨v, rfl⟩ := exists_vsel_of_voiceOk h
    exact ⟨_, writeVolume_of_sweep hd word put s v⟩
  | false =>
    obtain ⟨t, ht⟩ := exists_next_of_writeVoice h s put
    exact ⟨t, by rw [writeVolume, hd, if_neg Bool.false_ne_true, ht]⟩

/-- A master volume write is refused or performed, with a next state either way (R273, R274). -/
theorem exists_next_of_ite {p : Prop} [Decidable p] (t u : State) :
    ∃ r, (if p then .next t else .next u : Answer) = .next r :=
  ⟨_, (apply_ite Host.Outcome.next p t u).symm⟩

/-- Settles O9: a voice register is that of a voice there is, a volume write is performed or recorded as refused, and
every other transaction answers its state at once. -/
theorem everyTransactionHasANextState : Obligations.EveryTransactionHasANextState := by
  intro i s h
  cases i
  case wrVoll n d | wrVolr n d => exact exists_next_of_writeVolume h d _ s _
  case wrPitch n d | wrSaddr n d | wrAdsrlo n d | wrAdsrhi n d | wrEnvx n d | wrRaddr n d =>
    simp only [exec, execWrPitch, execWrSaddr, execWrAdsrlo, execWrAdsrhi, execWrEnvx, execWrRaddr]
    exact exists_next_of_writeVoice h s _
  case rdVoll n | rdVolr n | rdPitch n | rdSaddr n | rdAdsrlo n | rdAdsrhi n | rdEnvx n | rdRaddr n =>
    simp only [exec, execRdVoll, execRdVolr, execRdPitch, execRdSaddr, execRdAdsrlo, execRdAdsrhi, execRdEnvx,
      execRdRaddr]
    exact exists_next_of_readVoice h s _
  case wrMvoll d | wrMvolr d => exact exists_next_of_ite _ _
  all_goals exact ⟨_, rfl⟩

/-! Entries. -/

/-- Settles O50: a transaction that adds an entry is not a tick that emits, since such a tick keeps FAULTS. -/
theorem atMostOneEntryATransaction : Obligations.AtMostOneEntryATransaction := by
  intro i s t h
  rcases exec_faults h with hkept | ⟨e, hadded⟩
  · exact .inl hkept
  · rcases onlyTickEmits.2 i s t h with hout | ⟨-, hkept, -⟩
    · exact .inr ⟨e, hadded, hout⟩
    · exact .inl hkept

/-! A halted block and an idle one. -/

theorem State.halted_of_not_clean {s : State} (h : ¬ s.clean) : s.halted = true := by
  rw [State.halted, Bool.not_eq_true', ← Bool.not_eq_true, List.isEmpty_iff]; exact h

theorem State.takeWord_of_nil {s : State} (h : s.stream = []) : s.takeWord = none := by
  rw [State.takeWord, h]

/-- Settles O8: an entry halts the block before it looks at the stream; an empty stream gives no word to perform. -/
theorem haltedBlockHasNoStep : Obligations.HaltedBlockHasNoStep := by
  refine fun s => ⟨fun hc => ?_, fun hc hs => ?_⟩
  · rw [step, State.halted_of_not_clean hc, if_pos rfl]
  · rw [step, State.halted_of_clean hc, if_neg Bool.false_ne_true, State.takeWord_of_nil hs]

end Sys2Proof.Machine
